-- ==== Sys2Proof/Word.lean ====
section
/-! DEFINITION. Bytes, words, blocks (00_scope.md R7, R8). The only arithmetic on them is exclusive or,
copying and field extraction, and it stands in Sys2Proof/Machine/Bytes.lean and Sys2Proof/Decode.lean. -/

namespace Sys2Proof

/-- A byte, 8 bits (R7). -/
abbrev Byte := BitVec 8

/-- A word, 32 bits, bit 31 the most significant (R8). -/
abbrev Word := BitVec 32

/-- A byte string, index 0 first (R7, R63). -/
abbrev Bytes := List Byte

/-- A block: a byte string of length 16 (R5, R7). -/
abbrev Block := Vector Byte 16

/-- `ctx[c].block_size`, "fixed at 16 bytes (AES block)" (R5, R26). -/
abbrev blockSize : Nat := 16

/-- `LENMAX`, the largest byte count of one XFORM (R6, 92_eei_decisions.md D21). -/
abbrev lenMax : Nat := 2 ^ 32 - 1

end Sys2Proof
end

