-- ==== Sys2Proof/Syntax.lean ====
section
/-! DEFINITION. The commands of the engine (30_encoding.md R100 to R117), one constructor per row of
spec/opcode_table.json, and the form in which the host presents one at the command port. -/

namespace Sys2Proof

/-- The direction of a context or of an XFORM (R5, R25, R104). -/
inductive Direction where
  /-- Coded 0. -/
  | encrypt
  /-- Coded 1. -/
  | decrypt
  deriving DecidableEq, Repr, Inhabited

/-- The key size (R5, R105). -/
inductive KeySize where
  /-- 128 bits, code 0. -/
  | k128
  /-- 192 bits, code 1. -/
  | k192
  /-- 256 bits, code 2. -/
  | k256
  deriving DecidableEq, Repr, Inhabited

/-- The closed mode set (R5, R103). -/
inductive Mode where
  /-- Code 0. -/
  | ecb
  /-- Code 1. -/
  | ofb
  /-- Code 2. -/
  | cfb128
  /-- Code 3. -/
  | cfb8
  /-- Code 4, a table entry without a hardware engine (R134, R225). -/
  | cfb1
  deriving DecidableEq, Repr, Inhabited

/-- Number of key bytes of a key size (R5, R105, R108). -/
abbrev KeySize.bytes : KeySize → Nat
  | .k128 => 16
  | .k192 => 24
  | .k256 => 32

/-- A command with its operands (R108, R117). `c` is the `CTX` field. -/
inductive Instr where
  /-- INIT.ECB (R138): no `IV` operand. -/
  | initEcb (c : BitVec 8) (ks : KeySize) (dir : Direction) (key : Bytes)
  /-- INIT.OFB (R139). -/
  | initOfb (c : BitVec 8) (ks : KeySize) (dir : Direction) (key : Bytes) (iv : Block)
  /-- INIT.CFB128 (R140). -/
  | initCfb128 (c : BitVec 8) (ks : KeySize) (dir : Direction) (key : Bytes) (iv : Block)
  /-- INIT.CFB8 (R141). -/
  | initCfb8 (c : BitVec 8) (ks : KeySize) (dir : Direction) (key : Bytes) (iv : Block)
  /-- INIT.CFB1 (R142). -/
  | initCfb1 (c : BitVec 8) (ks : KeySize) (dir : Direction) (key : Bytes) (iv : Block)
  /-- XFORM (R150): `len` is the `LEN` operand, `data` the input stream (R61). -/
  | xform (c : BitVec 8) (dir : Direction) (len : Word) (data : Bytes)
  /-- RELEASE (R158). -/
  | release (c : BitVec 8)
  deriving DecidableEq, Repr

/-- The slot a command names (R21, R106). -/
def Instr.slot : Instr → BitVec 8
  | .initEcb c _ _ _ => c
  | .initOfb c _ _ _ _ => c
  | .initCfb128 c _ _ _ _ => c
  | .initCfb8 c _ _ _ _ => c
  | .initCfb1 c _ _ _ _ => c
  | .xform c _ _ _ => c
  | .release c => c

/-- One operand, transferred whole (R108): a byte string (KEY, IV, DATA) or a word (LEN). Words have no
byte order at this interface (R63). -/
inductive Operand where
  | bytes (b : Bytes)
  | word (w : Word)
  deriving DecidableEq, Repr

/-- What the host presents at the command port in one transaction: a command word and the operands that
follow it, "presented whole" (R60, R100, R108). -/
structure Frame where
  word : Word
  operands : List Operand
  deriving DecidableEq, Repr

end Sys2Proof
end

