-- ==== Sys2Proof/Config.lean ====
section
/-! DEFINITION. The parameters of the engine (00_scope.md R6; 92_eei_decisions.md "Open parameters"). Each
is a constant without a body: nothing in Lean can say what it is, so a theorem that mentions one holds for
every value the spec allows. The meanings are written over an arbitrary `Platform`; `exec` runs them over
`Config.platform`. -/

namespace Sys2Proof

/-- `SwState`, "an opaque type" the engine "never looks inside" (R30, R228). DESIGN CHOICE, log 7: a state
of the software engine is held as the byte string that writes it down. -/
structure SwState where
  image : Bytes
  deriving DecidableEq, Repr, Inhabited

/-- What stands at the primitive port and at the software-engine port (R6, R67, R228). -/
structure Platform where
  /-- `E(key, X)`, the block encryption function (R6). R6 gives it for keys of 16, 24 and 32 bytes; that it is a
  function of keys of every length is a DESIGN CHOICE (log 6), and no invoke reaches another length (R68). -/
  blockE : Bytes → Block → Block
  /-- `D(key, Y)`, the block decryption function (R6), with the same DESIGN CHOICE for keys of other lengths
  (log 6). Its inverse law is a premise of the claims that need it (R254). -/
  blockD : Bytes → Block → Block
  /-- `PrimFails(fs, key, data, cv)` (R6, R74). -/
  primFails : BitVec 8 → Bytes → Bytes → Option Block → Bool
  /-- `SwInit(mode, ks, dir, key, iv)`; `none` is FAIL, and the IV is `none` for ECB (R228). -/
  swInit : Mode → KeySize → Direction → Bytes → Option Block → Option SwState
  /-- `SwXform(s, data)`; `none` is FAIL (R228). -/
  swXform : SwState → Bytes → Option (Bytes × SwState)

namespace Config

/-- `NCTX - 1`; eight bits give exactly the range of R6 (log 4). -/
opaque nctxLessOne : BitVec 8

/-- `NCTX`, the number of context slots, 1 to 256 (R6, R21). -/
def nctx : Nat := nctxLessOne.toNat + 1

/-- `CAP_IN`, the capability input sampled at reset (R6, R79; log 5). -/
opaque capIn : BitVec 27

/-- `E` (R6; log 6). -/
opaque blockE : Bytes → Block → Block

/-- `D` (R6; log 6). -/
opaque blockD : Bytes → Block → Block

/-- `PrimFails` (R6, R74; log 6). -/
opaque primFails : BitVec 8 → Bytes → Bytes → Option Block → Bool

/-- `SwInit` (R6, R228; log 7). -/
opaque swInit : Mode → KeySize → Direction → Bytes → Option Block → Option SwState

/-- `SwXform` (R6, R228; log 7). -/
opaque swXform : SwState → Bytes → Option (Bytes × SwState)

/-- The platform the machine stands on. -/
def platform : Platform where
  blockE := blockE
  blockD := blockD
  primFails := primFails
  swInit := swInit
  swXform := swXform

end Config

end Sys2Proof
end

