-- ==== Sys2Proof/Machine/State.lean ====
section
/-! DEFINITION. The state of the engine (10_state.md R20 to R38), its reset value (70_reset_and_hazards.md
R300), and the reasons a step can stop. -/

namespace Sys2Proof.Machine

/-- `ctx[c].state` (R22). -/
inductive SlotState where
  | empty
  | ready
  deriving DecidableEq, Repr

/-- `path` of an engine handle (R23). -/
inductive Path where
  | hw
  | sw
  deriving DecidableEq, Repr

/-- `ctx[c].engine`: the nine legal handles of R23. `HW_CFB1` does not exist (R134) and cannot be written. -/
inductive Engine where
  | hwEcb
  | hwOfb
  | hwCfb128
  | hwCfb8
  /-- `SW_ECB`, `SW_OFB`, `SW_CFB128`, `SW_CFB8`, `SW_CFB1`. -/
  | sw (mode : Mode)
  deriving DecidableEq, Repr

/-- The `path` half of a handle (R23). -/
def Engine.path : Engine → Path
  | .hwEcb => .hw
  | .hwOfb => .hw
  | .hwCfb128 => .hw
  | .hwCfb8 => .hw
  | .sw _ => .sw

/-- The `mode` half of a handle (R23). -/
def Engine.mode : Engine → Mode
  | .hwEcb => .ecb
  | .hwOfb => .ofb
  | .hwCfb128 => .cfb128
  | .hwCfb8 => .cfb8
  | .sw m => m

/-- One slot of the context file (R21 to R31). A field that "holds no value" (R22, R31) is `none`, as
93_implementation_defined.md U4 asks for (log 8). `block_size` is the constant 16 and not stored (R26). -/
structure Slot where
  /-- `state` (R22). -/
  state : SlotState
  /-- `engine` (R23). -/
  engine : Option Engine
  /-- `key_material`, 16, 24 or 32 bytes (R24). -/
  keyMaterial : Option Bytes
  /-- `direction` (R25). -/
  direction : Option Direction
  /-- `function_selector`, 8 bits (R27, R112). -/
  functionSelector : Option (BitVec 8)
  /-- `feedback_register`, 16 bytes (R28). -/
  feedbackRegister : Option Block
  /-- `residual_offset`, 0 to 15 (R29). -/
  residualOffset : Option (Fin 16)
  /-- `sw_state` (R30). -/
  swState : Option SwState
  deriving DecidableEq, Repr

/-- An EMPTY slot: no other field holds a value (R22, R300). -/
def Slot.cleared : Slot where
  state := .empty
  engine := none
  keyMaterial := none
  direction := none
  functionSelector := none
  feedbackRegister := none
  residualOffset := none
  swState := none

/-- The phase sequencer (R34). -/
inductive Phase where
  | idle
  | check
  | drain
  | bulk
  | tail
  | delegate
  | commit
  deriving DecidableEq, Repr

/-- The staging registers and the staged output (R35); an empty register is `none`. -/
structure Staging where
  /-- `S_CV`. -/
  cv : Option Block
  /-- `S_N`. -/
  n : Option (Fin 16)
  /-- `S_SW`. -/
  sw : Option SwState
  /-- `S_OUT`. -/
  out : Bytes
  deriving DecidableEq, Repr

/-- "The staging registers are empty between commands" (R35). -/
def Staging.none : Staging where
  cv := .none
  n := .none
  sw := .none
  out := []

/-- The response of a command: a status word and the output bytes (R109, R62). -/
structure Response where
  status : Word
  output : Bytes
  deriving DecidableEq, Repr

/-- The state of the engine, with its two ports to the host. -/
structure State where
  /-- The context file; its length is `NCTX` (R21; log 4). -/
  ctx : List Slot
  /-- `CAPS` (R33). -/
  caps : Word
  /-- `phase` (R34; log 3). -/
  phase : Phase
  /-- `S_CV`, `S_N`, `S_SW`, `S_OUT` (R35; log 3). -/
  staging : Staging
  /-- The commands presented and not yet accepted, the next one first (R60, R80). The model's own field
  (log 1). -/
  commandPort : List Frame
  /-- The responses returned so far, the oldest first (R36, R109). The model's own field (log 2): no rule
  reads it. -/
  responsePort : List Response
  deriving DecidableEq, Repr

/-- The fields of a slot that can hold no value (R31). -/
inductive SlotField where
  | engine
  | keyMaterial
  | direction
  | functionSelector
  | feedbackRegister
  | residualOffset
  | swState
  deriving DecidableEq, Repr

/-- Why the model stops with a fault. -/
inductive Fault where
  /-- XFORM read a field of a READY slot that holds no value: "treat a read as a fault of the model" (R31,
  U4). Raised by the XFORM meanings only, and in no state that meets `Safety.StateOk`. Safe. -/
  | noValue (field : SlotField)
  deriving DecidableEq, Repr

/-- Why the model refuses. -/
inductive Refusal where
  /-- Raised by an arm of `exec` whose instruction has no meaning yet. Safe. No arm is one. -/
  | notModelled (mnemonic : String)
  /-- Raised by `step` when the head of the command port has a legal word and not the operands R108 gives
  it; the spec has commands "presented whole" (R60) and gives such a presentation no effect (log 9). Safe. -/
  | operandMismatch
  deriving DecidableEq, Repr

/-- The state after a reset with `n` slots and capability input `capIn` (R300). -/
def State.afterReset (n : Nat) (capIn : BitVec 27) : State where
  ctx := List.replicate n Slot.cleared
  caps := capIn.setWidth 32
  phase := .idle
  staging := .none
  commandPort := []
  responsePort := []

/-- The machine right after reset (R300): `NCTX` EMPTY slots, `CAPS` from `CAP_IN`. -/
def State.reset : State := State.afterReset Config.nctx Config.capIn

end Sys2Proof.Machine
end

