-- ==== Sys2Proof/Machine/Flags.lean ====
section
/-! DEFINITION. The engine has no flags ("Flags: none" in every command rule; 10_state.md R25). What a
command reports is its status (60_exceptions.md R271) in the status word (30_encoding.md R109). -/

namespace Sys2Proof.Machine

/-- The status codes (R271); 9 to 15 are reserved and never returned. -/
inductive Status where
  | ok
  | errUnsupported
  | errMisaligned
  | errPrimFail
  | errDirMismatch
  | errNoContext
  | errIllegalCmd
  | errCtxInUse
  | errSwFail
  deriving DecidableEq, Repr

/-- `CODE` of a status (R271). -/
def statusCode : Status → BitVec 4
  | .ok => 0
  | .errUnsupported => 1
  | .errMisaligned => 2
  | .errPrimFail => 3
  | .errDirMismatch => 4
  | .errNoContext => 5
  | .errIllegalCmd => 6
  | .errCtxInUse => 7
  | .errSwFail => 8

/-- The status word: `CODE` in bits 3:0, `SWPATH` in bit 8, every other bit 0 (R109). -/
def statusWord (st : Status) (swPath : Bool) : Word :=
  (statusCode st).setWidth 32 ||| ((BitVec.ofBool swPath).setWidth 32 <<< 8)

end Sys2Proof.Machine
end

