-- ==== Sys2Proof/Machine/Bytes.lean ====
section
/-! DEFINITION. Byte strings and blocks (00_scope.md R7, 20_memory.md R63): exclusive or, and the passage
between a byte string and a block, index 0 first. -/

namespace Sys2Proof.Machine

/-- `XOR` on byte strings, bytewise (R7). R7 defines it on strings of equal length only. DESIGN CHOICE, log
15: on strings of unequal length it ends with the shorter one, and no rule applies it to such. -/
def xorBytes (a b : Bytes) : Bytes := List.zipWith (· ^^^ ·) a b

/-- The block with the bytes of `b`, byte 0 first. Used only on 16 bytes; a shorter string would be
filled with zeros and a longer one cut, and no rule asks for either (log 13). -/
def blockOfBytes (b : Bytes) : Block :=
  ⟨(b.take 16 ++ List.replicate (16 - b.length) 0).toArray, by simp; omega⟩

/-- The block that a byte string is, if it has 16 bytes (R7). -/
def blockOfBytes? (b : Bytes) : Option Block :=
  if b.length = 16 then some (blockOfBytes b) else none

/-- `MemRead(IN, i, n)`: the `n` bytes of the input at offset `i` (R10, R61). R10 and R61 give it no value where
`i + n` passes the end of the input. DESIGN CHOICE, log 16: it then yields only the bytes that are there, and no
rule reads so far. -/
def memRead (input : Bytes) (i n : Nat) : Bytes := (input.drop i).take n

end Sys2Proof.Machine
end

