-- ==== Sys2Proof/WellFormed.lean ====
section
/-! DEFINITION. Which terms of `Instr` are commands with the operands their word calls for
(30_encoding.md R108). `CTX < NCTX` (R106) is not one of these checks: `NCTX` belongs to the machine, and
a command that fails it is answered with a status. -/

namespace Sys2Proof

/-- The KEY operand has the length its key size names (R108). -/
abbrev keyLengthOk (ks : KeySize) (key : Bytes) : Prop := key.length = ks.bytes

/-- The DATA operand has exactly LEN bytes (R61, R108). -/
abbrev dataLengthOk (len : Word) (data : Bytes) : Prop := data.length = len.toNat

/-- A well-formed command: its operands have the lengths of R108. -/
abbrev WellFormed : Instr → Prop
  | .initEcb _ ks _ key => keyLengthOk ks key
  | .initOfb _ ks _ key _ => keyLengthOk ks key
  | .initCfb128 _ ks _ key _ => keyLengthOk ks key
  | .initCfb8 _ ks _ key _ => keyLengthOk ks key
  | .initCfb1 _ ks _ key _ => keyLengthOk ks key
  | .xform _ _ len data => dataLengthOk len data
  | .release _ => True

/-- `WellFormed` as a check that runs. -/
def wellFormed : Instr → Bool
  | .initEcb _ ks _ key => decide (keyLengthOk ks key)
  | .initOfb _ ks _ key _ => decide (keyLengthOk ks key)
  | .initCfb128 _ ks _ key _ => decide (keyLengthOk ks key)
  | .initCfb8 _ ks _ key _ => decide (keyLengthOk ks key)
  | .initCfb1 _ ks _ key _ => decide (keyLengthOk ks key)
  | .xform _ _ len data => decide (dataLengthOk len data)
  | .release _ => true

end Sys2Proof
end

