-- ==== Sys2Proof/Decode.lean ====
section
/-! DEFINITION. Decoding a presented command (30_encoding.md R101 to R111, R116, R117), and the encoder
(R108, R115). Decoding is total. It does not look at `NCTX`: `CTX >= NCTX` (R106, R110) is answered by the
command's meaning with the same status as every other illegal word (log 4). -/

namespace Sys2Proof

/-- `OPC`, bits 31:28 (R101). -/
def fieldOpc (w : Word) : BitVec 4 := w.extractLsb' 28 4

/-- `MODE`, bits 27:24 (R101). -/
def fieldMode (w : Word) : BitVec 4 := w.extractLsb' 24 4

/-- `DIR`, bit 23 (R101). -/
def fieldDir (w : Word) : Bool := w.getLsbD 23

/-- `KS`, bits 22:21 (R101). -/
def fieldKs (w : Word) : BitVec 2 := w.extractLsb' 21 2

/-- `RSV`, bits 20:8 (R101). -/
def fieldRsv (w : Word) : BitVec 13 := w.extractLsb' 8 13

/-- `CTX`, bits 7:0 (R101). -/
def fieldCtx (w : Word) : BitVec 8 := w.extractLsb' 0 8

/-- The direction coded by a `DIR` bit (R104). -/
def dirOfBit : Bool → Direction
  | false => .encrypt
  | true => .decrypt

/-- The `DIR` bit of a direction (R25, R104). -/
def dirBit : Direction → Bool
  | .encrypt => false
  | .decrypt => true

/-- The key size coded by `KS`; 3 is reserved (R105). -/
def ksOfCode (k : BitVec 2) : Option KeySize :=
  if k = 0 then some .k128 else if k = 1 then some .k192 else if k = 2 then some .k256 else none

/-- The `KS` code of a key size (R105). -/
def ksCode : KeySize → BitVec 2
  | .k128 => 0
  | .k192 => 1
  | .k256 => 2

/-- The mode coded by `MODE`; 5 to 15 are reserved (R103). -/
def modeOfCode (m : BitVec 4) : Option Mode :=
  if m = 0 then some .ecb else if m = 1 then some .ofb else if m = 2 then some .cfb128
  else if m = 3 then some .cfb8 else if m = 4 then some .cfb1 else none

/-- The `MODE` code of a mode (R103). -/
def modeCode : Mode → BitVec 4
  | .ecb => 0
  | .ofb => 1
  | .cfb128 => 2
  | .cfb8 => 3
  | .cfb1 => 4

/-- What a legal command word says by itself (R116): the command and its fields, without operands. -/
inductive Head where
  | init (mode : Mode) (dir : Direction) (ks : KeySize) (c : BitVec 8)
  | xform (dir : Direction) (c : BitVec 8)
  | release (c : BitVec 8)
  deriving DecidableEq, Repr

/-- Why a presentation is not a command. -/
inductive DecodeError where
  /-- The command word is illegal (R110, apart from `CTX >= NCTX`). -/
  | illegalWord
  /-- The word is legal and the operands that came with it are not those of R108. -/
  | operandMismatch
  deriving DecidableEq, Repr

/-- Decode a command word (R116): `none` when it is illegal under R110 for a reason other than
`CTX >= NCTX`. -/
def decodeWord (w : Word) : Option Head :=
  if fieldRsv w ≠ 0 then none
  else if fieldOpc w = 1 then
    match modeOfCode (fieldMode w), ksOfCode (fieldKs w) with
    | some m, some k => some (.init m (dirOfBit (fieldDir w)) k (fieldCtx w))
    | _, _ => none
  else if fieldOpc w = 2 then
    if fieldMode w = 0 ∧ fieldKs w = 0 then some (.xform (dirOfBit (fieldDir w)) (fieldCtx w)) else none
  else if fieldOpc w = 3 then
    if fieldMode w = 0 ∧ fieldKs w = 0 ∧ fieldDir w = false then some (.release (fieldCtx w)) else none
  else none

/-- The five INIT commands by mode (R117); only ECB has no IV (R108). -/
def initInstr (m : Mode) (c : BitVec 8) (k : KeySize) (d : Direction) (key : Bytes) (iv : Option Block) :
    Option Instr :=
  match m, iv with
  | .ecb, none => some (.initEcb c k d key)
  | .ofb, some v => some (.initOfb c k d key v)
  | .cfb128, some v => some (.initCfb128 c k d key v)
  | .cfb8, some v => some (.initCfb8 c k d key v)
  | .cfb1, some v => some (.initCfb1 c k d key v)
  | .ecb, some _ => none
  | .ofb, none => none
  | .cfb128, none => none
  | .cfb8, none => none
  | .cfb1, none => none

/-- Join a decoded word with the operands that came after it, in the order and of the lengths of R108. -/
def joinOperands (h : Head) (ops : List Operand) : Option Instr :=
  match h, ops with
  | .init m d k c, [.bytes key] =>
      if key.length = k.bytes then initInstr m c k d key none else none
  | .init m d k c, [.bytes key, .bytes iv] =>
      if key.length = k.bytes then
        match Machine.blockOfBytes? iv with
        | some v => initInstr m c k d key (some v)
        | none => none
      else none
  | .xform d c, [.word len, .bytes data] =>
      if data.length = len.toNat then some (.xform c d len data) else none
  | .release c, [] => some (.release c)
  | _, _ => none

/-- Decode a presented command (R116, R108). -/
def decode (f : Frame) : Except DecodeError Instr :=
  match decodeWord f.word with
  | none => .error .illegalWord
  | some h =>
    match joinOperands h f.operands with
    | none => .error .operandMismatch
    | some i => .ok i

/-- `OPC << 28 | MODE << 24 | DIR << 23 | KS << 21 | CTX` (R115), RSV zero. -/
def packWord (opc mode : BitVec 4) (dir : Bool) (ks : BitVec 2) (c : BitVec 8) : Word :=
  (opc.setWidth 32 <<< 28) ||| (mode.setWidth 32 <<< 24) ||| ((BitVec.ofBool dir).setWidth 32 <<< 23)
    ||| (ks.setWidth 32 <<< 21) ||| c.setWidth 32

/-- The command word of a command (R115), with the fields it does not use 0. -/
def encodeWord : Instr → Word
  | .initEcb c ks dir _ => packWord 1 0 (dirBit dir) (ksCode ks) c
  | .initOfb c ks dir _ _ => packWord 1 1 (dirBit dir) (ksCode ks) c
  | .initCfb128 c ks dir _ _ => packWord 1 2 (dirBit dir) (ksCode ks) c
  | .initCfb8 c ks dir _ _ => packWord 1 3 (dirBit dir) (ksCode ks) c
  | .initCfb1 c ks dir _ _ => packWord 1 4 (dirBit dir) (ksCode ks) c
  | .xform c dir _ _ => packWord 2 0 (dirBit dir) 0 c
  | .release c => packWord 3 0 false 0 c

/-- The operands of a command, in the order of R108. -/
def encodeOperands : Instr → List Operand
  | .initEcb _ _ _ key => [.bytes key]
  | .initOfb _ _ _ key iv => [.bytes key, .bytes iv.toList]
  | .initCfb128 _ _ _ key iv => [.bytes key, .bytes iv.toList]
  | .initCfb8 _ _ _ key iv => [.bytes key, .bytes iv.toList]
  | .initCfb1 _ _ _ key iv => [.bytes key, .bytes iv.toList]
  | .xform _ _ len data => [.word len, .bytes data]
  | .release _ => []

/-- The presentation of a command. -/
def encode (i : Instr) : Frame := ⟨encodeWord i, encodeOperands i⟩

/-- The all-zero operands that a command word calls for: KEY and IV of zero bytes, LEN 0 and no DATA. -/
def zeroOperands (w : Word) : List Operand :=
  match decodeWord w with
  | some (.init .ecb _ k _) => [.bytes (List.replicate k.bytes 0)]
  | some (.init _ _ k _) => [.bytes (List.replicate k.bytes 0), .bytes (List.replicate 16 0)]
  | some (.xform _ _) => [.word 0, .bytes []]
  | some (.release _) => []
  | none => []

/-- The presentation of an opcode-table word: the low 32 of its `nbits` bits are the command word, every
operand bit is 0. -/
def tableFrame (nbits w : Nat) : Frame :=
  let word := BitVec.ofNat 32 (w % 2 ^ nbits)
  ⟨word, zeroOperands word⟩

/-- The instruction the decoder reads from an opcode-table word with operands of zeros. -/
def decodeTableWord (nbits w : Nat) : Option Instr :=
  match decode (tableFrame nbits w) with
  | .ok i => some i
  | .error _ => none

end Sys2Proof
end

