-- ==== Sys2Proof/Machine/Operands.lean ====
section
/-! DEFINITION. What a command reads besides its own bytes: the capability bits (10_state.md R33), the
function selector (30_encoding.md R112, R113), and the fields of a slot (10_state.md R31). -/

namespace Sys2Proof.Machine

/-- Position of `HW[m][k]` in `CAPS`: `3*m + k` (R33). -/
def hwBit (m : Mode) (k : KeySize) : Nat := 3 * (modeCode m).toNat + (ksCode k).toNat

/-- Position of `SW[m][k]` in `CAPS`: `12 + 3*m + k` (R33). -/
def swBit (m : Mode) (k : KeySize) : Nat := 12 + 3 * (modeCode m).toNat + (ksCode k).toNat

/-- `CAPS.HW[m][k]`. There is no `HW[CFB1]` bit (R33, R134). -/
def hwCap (caps : Word) (m : Mode) (k : KeySize) : Bool :=
  if m = .cfb1 then false else caps.getLsbD (hwBit m k)

/-- `CAPS.SW[m][k]` (R33). -/
def swCap (caps : Word) (m : Mode) (k : KeySize) : Bool := caps.getLsbD (swBit m k)

/-- Feedback width in bytes of a selector for modes without one (R112). -/
def fbwNone : BitVec 5 := 0

/-- Feedback width of CFB-8 in bytes (R112). -/
def fbwByte : BitVec 5 := 1

/-- Feedback width of CFB-128 in bytes (R112). -/
def fbwBlock : BitVec 5 := 16

/-- The function selector `(KS, DEC, FBW)`: KS in bits 1:0, DEC in bit 2, FBW in bits 7:3 (R112). -/
def fsPack (ks : BitVec 2) (dec : Bool) (fbw : BitVec 5) : BitVec 8 :=
  (fbw.setWidth 8 <<< 3) ||| ((BitVec.ofBool dec).setWidth 8 <<< 2) ||| ks.setWidth 8

/-- `fs.KS` (R112). -/
def fsKs (fs : BitVec 8) : BitVec 2 := fs.extractLsb' 0 2

/-- `fs.DEC` (R112). -/
def fsDec (fs : BitVec 8) : Bool := fs.getLsbD 2

/-- `fs.FBW` (R112). -/
def fsFbw (fs : BitVec 8) : BitVec 5 := fs.extractLsb' 3 5

/-- `FS_GEN(fs) = fs[1:0]` zero-extended: the encrypt selector of the tail phases (R113). -/
def fsGen (fs : BitVec 8) : BitVec 8 := (fsKs fs).setWidth 8

/-- The number of key bytes that `fs.KS` names; none for the reserved code 3 (R68, R105). -/
def fsKeyBytes (fs : BitVec 8) : Option Nat := (ksOfCode (fsKs fs)).map KeySize.bytes

/-- The value of a slot's field `f`, handed to `k`; a field that holds no value faults (R31, U4). -/
def readField {α : Type} (f : SlotField) (v : Option α)
    (k : α → Host.Outcome State Fault Refusal) : Host.Outcome State Fault Refusal :=
  match v with
  | some a => k a
  | none => .fault (.noValue f)

end Sys2Proof.Machine
end

