-- ==== Sys2Proof/Machine/Ops.lean ====
section
/-! DEFINITION. The operations the commands share: the sequencer and the staging registers (10_state.md
R34, R35), the one write of a slot, the response, `commit`, and `raise`, which is what takes an exception
on this hardware (60_exceptions.md R285). There is no return from one (R286). -/

namespace Sys2Proof.Machine

/-- One step's outcome. -/
abbrev Result := Host.Outcome State Fault Refusal

/-- `ctx[c]`; nothing when `CTX >= NCTX` (R21, R106). -/
def State.slot? (s : State) (c : BitVec 8) : Option Slot := s.ctx[c.toNat]?

/-- `phase <- P` (R10, R34). -/
def State.enter (p : Phase) (s : State) : State := { s with phase := p }

/-- Write the staging registers (R35). -/
def State.stage (g : Staging) (s : State) : State := { s with staging := g }

/-- Write slot `c`, all its fields in one indivisible action (R137, R155). -/
def State.setSlot (c : BitVec 8) (x : Slot) (s : State) : State := { s with ctx := s.ctx.set c.toNat x }

/-- End the command: the sequencer is IDLE, the staging registers are empty, the response is returned
(R34, R35, R109). -/
def finish (r : Response) (s : State) : State :=
  { s with phase := .idle, staging := .none, responsePort := s.responsePort ++ [r] }

/-- `raise S` (R10, R285): sequencer to IDLE, staging discarded, no slot and not `CAPS` written, the
response is the code with no output byte. -/
def raise (st : Status) (s : State) : State := finish ⟨statusWord st false, []⟩ s

/-- Respond OK with output `out`; `swPath` is bit `SWPATH` (R109). -/
def respondOk (swPath : Bool) (out : Bytes) (s : State) : State := finish ⟨statusWord .ok swPath, out⟩ s

/-- A slot after `commit`: each staging register that holds a value is copied into its field (R35, R181,
R216, R232). -/
def committed (g : Staging) (x : Slot) : Slot :=
  { x with
    feedbackRegister := g.cv.or x.feedbackRegister
    residualOffset := g.n.or x.residualOffset
    swState := g.sw.or x.swState }

/-- `phase <- COMMIT; commit; phase <- IDLE; respond OK with out` (R35, R150, R155): slot `c`, whose
contents were `x` when the command began, is written once from the staging registers and `S_OUT` is
released. -/
def commit (c : BitVec 8) (x : Slot) (s : State) : State :=
  let s := s.enter .commit
  respondOk false s.staging.out (s.setSlot c (committed s.staging x))

end Sys2Proof.Machine
end

