-- ==== Sys2Proof/Machine/Init.lean ====
section
/-! DEFINITION. The mode-selector capability arbiter and the five INIT commands (40_selector_init.md R130
to R147). -/

namespace Sys2Proof.Machine

/-- The hardware engine handle of a mode; CFB1 has none (R23, R134). -/
def hwEngine : Mode → Option Engine
  | .ecb => some .hwEcb
  | .ofb => some .hwOfb
  | .cfb128 => some .hwCfb128
  | .cfb8 => some .hwCfb8
  | .cfb1 => none

/-- `Select(mode, ks, CAPS)` (R131); `none` is `NO_ENGINE`. -/
def select (m : Mode) (k : KeySize) (caps : Word) : Option Engine :=
  if hwCap caps m k then hwEngine m
  else if swCap caps m k then some (.sw m)
  else none

/-- The sequence of every INIT up to the choice of an engine (R136), in the order of R283; `populate` is
what the mode does with the handle. -/
def initFront (m : Mode) (c : BitVec 8) (k : KeySize) (s : State) (populate : Engine → State) : State :=
  match s.slot? c with
  | none => raise .errIllegalCmd s
  | some x =>
    if x.state = .ready then raise .errCtxInUse s
    else
      match select m k s.caps with
      | none => raise .errUnsupported s
      | some h => populate h

/-- The slot a hardware-path INIT leaves (R137): handle, key, direction and READY for every mode, and the
mode's own selector, feedback register and offset. -/
def hwSlot (h : Engine) (dir : Direction) (key : Bytes) (fs : BitVec 8) (cv : Option Block)
    (n : Option (Fin 16)) : Slot where
  state := .ready
  engine := some h
  keyMaterial := some key
  direction := some dir
  functionSelector := some fs
  feedbackRegister := cv
  residualOffset := n
  swState := none

/-- The slot a software-path INIT leaves (R137, R143). -/
def swSlot (m : Mode) (dir : Direction) (key : Bytes) (st : SwState) : Slot where
  state := .ready
  engine := some (.sw m)
  keyMaterial := some key
  direction := some dir
  functionSelector := none
  feedbackRegister := none
  residualOffset := none
  swState := some st

/-- Populate slot `c` on the hardware path and respond OK, `SWPATH` 0 (R136, R137). INIT makes no
primitive invoke (R144). -/
def populateHw (c : BitVec 8) (x : Slot) (s : State) : State := respondOk false [] (s.setSlot c x)

/-- INIT on the software path (R143): one call of `SwInit`; FAIL raises `ERR_SW_FAIL`. -/
def populateSw (P : Platform) (m : Mode) (c : BitVec 8) (k : KeySize) (dir : Direction) (key : Bytes)
    (iv : Option Block) (s : State) : State :=
  match P.swInit m k dir key iv with
  | none => raise .errSwFail s
  | some st => respondOk true [] (s.setSlot c (swSlot m dir key st))

/-- INIT.ECB over a platform (R138): selector `(KS, DIR, 0)`, no feedback register, no offset. -/
def initEcbOn (P : Platform) (c : BitVec 8) (ks : KeySize) (dir : Direction) (key : Bytes) (s : State) :
    State :=
  initFront .ecb c ks s fun h =>
    match h.path with
    | .hw => populateHw c (hwSlot h dir key (fsPack (ksCode ks) (dirBit dir) fbwNone) none none) s
    | .sw => populateSw P .ecb c ks dir key none s

/-- INIT.OFB over a platform (R139): selector `(KS, 0, 0)` for both directions, register from the IV,
offset 0. -/
def initOfbOn (P : Platform) (c : BitVec 8) (ks : KeySize) (dir : Direction) (key : Bytes) (iv : Block)
    (s : State) : State :=
  initFront .ofb c ks s fun h =>
    match h.path with
    | .hw => populateHw c (hwSlot h dir key (fsPack (ksCode ks) false fbwNone) (some iv) (some 0)) s
    | .sw => populateSw P .ofb c ks dir key (some iv) s

/-- INIT.CFB128 over a platform (R140): selector `(KS, DIR, 16)`, register from the IV, offset 0. -/
def initCfb128On (P : Platform) (c : BitVec 8) (ks : KeySize) (dir : Direction) (key : Bytes) (iv : Block)
    (s : State) : State :=
  initFront .cfb128 c ks s fun h =>
    match h.path with
    | .hw => populateHw c (hwSlot h dir key (fsPack (ksCode ks) (dirBit dir) fbwBlock) (some iv) (some 0)) s
    | .sw => populateSw P .cfb128 c ks dir key (some iv) s

/-- INIT.CFB8 over a platform (R141): selector `(KS, DIR, 1)`, register from the IV, offset 0. -/
def initCfb8On (P : Platform) (c : BitVec 8) (ks : KeySize) (dir : Direction) (key : Bytes) (iv : Block)
    (s : State) : State :=
  initFront .cfb8 c ks s fun h =>
    match h.path with
    | .hw => populateHw c (hwSlot h dir key (fsPack (ksCode ks) (dirBit dir) fbwByte) (some iv) (some 0)) s
    | .sw => populateSw P .cfb8 c ks dir key (some iv) s

/-- INIT.CFB1 over a platform (R142): there is no hardware path (R134). -/
def initCfb1On (P : Platform) (c : BitVec 8) (ks : KeySize) (dir : Direction) (key : Bytes) (iv : Block)
    (s : State) : State :=
  initFront .cfb1 c ks s fun _ => populateSw P .cfb1 c ks dir key (some iv) s

/-- The meaning of INIT.ECB (R136, R138). -/
def execInitEcb (c : BitVec 8) (ks : KeySize) (dir : Direction) (key : Bytes) (s : State) : Result :=
  .next (initEcbOn Config.platform c ks dir key s)

/-- The meaning of INIT.OFB (R136, R139). -/
def execInitOfb (c : BitVec 8) (ks : KeySize) (dir : Direction) (key : Bytes) (iv : Block) (s : State) :
    Result :=
  .next (initOfbOn Config.platform c ks dir key iv s)

/-- The meaning of INIT.CFB128 (R136, R140). -/
def execInitCfb128 (c : BitVec 8) (ks : KeySize) (dir : Direction) (key : Bytes) (iv : Block) (s : State) :
    Result :=
  .next (initCfb128On Config.platform c ks dir key iv s)

/-- The meaning of INIT.CFB8 (R136, R141). -/
def execInitCfb8 (c : BitVec 8) (ks : KeySize) (dir : Direction) (key : Bytes) (iv : Block) (s : State) :
    Result :=
  .next (initCfb8On Config.platform c ks dir key iv s)

/-- The meaning of INIT.CFB1 (R136, R142). -/
def execInitCfb1 (c : BitVec 8) (ks : KeySize) (dir : Direction) (key : Bytes) (iv : Block) (s : State) :
    Result :=
  .next (initCfb1On Config.platform c ks dir key iv s)

end Sys2Proof.Machine
end

