-- ==== Sys2Proof/Machine/Release.lean ====
section
/-! DEFINITION. RELEASE (41_xform_dispatch.md R158, R159). -/

namespace Sys2Proof.Machine

/-- The state RELEASE leaves (R158): a READY slot becomes EMPTY and no other field of it holds a value from
now on; an EMPTY slot is answered with `ERR_NO_CONTEXT`. The software engine is not notified. -/
def releaseSlot (c : BitVec 8) (s : State) : State :=
  match s.slot? c with
  | none => raise .errIllegalCmd s
  | some x =>
    if x.state ≠ .ready then raise .errNoContext s
    else respondOk false [] (s.setSlot c Slot.cleared)

/-- The meaning of RELEASE (R158). -/
def execRelease (c : BitVec 8) (s : State) : Result := .next (releaseSlot c s)

end Sys2Proof.Machine
end

