-- ==== Sys2Proof/Machine/Prim.lean ====
section
/-! DEFINITION. The primitive port (20_memory.md R67 to R77): one invoke of the Generic Block Primitive. -/

namespace Sys2Proof.Machine

/-- The operation kinds of R68. -/
inductive PrimKind where
  | block
  | ofb
  | cfb128
  | cfb8
  deriving DecidableEq, Repr

/-- What an invoke returns when it does not fail (R67): output, and the updated chaining vector when one
was given. -/
structure PrimResult where
  out : Bytes
  cv : Option Block
  deriving DecidableEq, Repr

/-- The kind of an invoke, from the presence of the chaining vector and from `fs` (R68); `none` for a
reserved combination. -/
def primKind (fs : BitVec 8) (cv : Option Block) : Option PrimKind :=
  match cv with
  | none => if fsFbw fs = fbwNone then some .block else none
  | some _ =>
    if fsFbw fs = fbwNone then (if fsDec fs then none else some .ofb)
    else if fsFbw fs = fbwBlock then some .cfb128
    else if fsFbw fs = fbwByte then some .cfb8
    else none

/-- The length contract (R64, R73): a positive multiple of 16, and any positive length for CFB8. -/
def primLengthOk (kind : PrimKind) (data : Bytes) : Bool :=
  match kind with
  | .cfb8 => decide (0 < data.length)
  | .block => decide (0 < data.length ∧ data.length % 16 = 0)
  | .ofb => decide (0 < data.length ∧ data.length % 16 = 0)
  | .cfb128 => decide (0 < data.length ∧ data.length % 16 = 0)

/-- Kind BLOCK over `m` blocks of `data` (R69): each block is transformed alone. -/
def blockKind (f : Block → Block) : Nat → Bytes → Bytes
  | 0, _ => []
  | m + 1, data => (f (blockOfBytes (data.take 16))).toList ++ blockKind f m (data.drop 16)

/-- Kind OFB over `m` blocks (R70): `V_j = E(key, V_{j-1})`, `O_j = B_j XOR V_j`; yields `V_{m-1}` too. -/
def ofbKind (e : Block → Block) : Nat → Block → Bytes → Bytes × Block
  | 0, v, _ => ([], v)
  | m + 1, v, data =>
    let r := ofbKind e m (e v) (data.drop 16)
    (xorBytes (data.take 16) (e v).toList ++ r.1, r.2)

/-- Kind CFB128 over `m` blocks (R71): `O_j = B_j XOR E(key, V_{j-1})`; `V_j` is the ciphertext block,
`O_j` when encrypting and `B_j` when decrypting. -/
def cfb128Kind (e : Block → Block) (dec : Bool) : Nat → Block → Bytes → Bytes × Block
  | 0, v, _ => ([], v)
  | m + 1, v, data =>
    let o := xorBytes (data.take 16) (e v).toList
    let r := cfb128Kind e dec m (blockOfBytes (if dec then data.take 16 else o)) (data.drop 16)
    (o ++ r.1, r.2)

/-- `V[1..15] ++ [c]`, the shift of the 8-bit feedback register (R72). -/
def shiftIn (v : Block) (c : Byte) : Block := blockOfBytes (v.toList.drop 1 ++ [c])

/-- Kind CFB8 (R72, marked there as general knowledge; log 10), byte by byte. -/
def cfb8Kind (e : Block → Block) (dec : Bool) : Block → Bytes → Bytes × Block
  | v, [] => ([], v)
  | v, b :: bs =>
    let o := b ^^^ (e v)[0]
    let r := cfb8Kind e dec (shiftIn v (if dec then b else o)) bs
    (o :: r.1, r.2)

/-- What a kind computes (R69 to R72). -/
def primCompute (P : Platform) (kind : PrimKind) (fs : BitVec 8) (key data : Bytes) (cv : Option Block) :
    PrimResult :=
  match kind, cv with
  | .block, _ =>
    ⟨blockKind (if fsDec fs then P.blockD key else P.blockE key) (data.length / 16) data, none⟩
  | .ofb, some v =>
    let r := ofbKind (P.blockE key) (data.length / 16) v data
    ⟨r.1, some r.2⟩
  | .cfb128, some v =>
    let r := cfb128Kind (P.blockE key) (fsDec fs) (data.length / 16) v data
    ⟨r.1, some r.2⟩
  | .cfb8, some v =>
    let r := cfb8Kind (P.blockE key) (fsDec fs) v data
    ⟨r.1, some r.2⟩
  | .ofb, none => ⟨[], none⟩
  | .cfb128, none => ⟨[], none⟩
  | .cfb8, none => ⟨[], none⟩

/-- `Prim(fs, key, data, cv)` (R67, R74); `none` is FAIL. It fails on a reserved combination (R68), on a
length the contract excludes (R73, U5; log 11), and where `PrimFails` holds. -/
def prim (P : Platform) (fs : BitVec 8) (key data : Bytes) (cv : Option Block) : Option PrimResult :=
  match primKind fs cv with
  | none => none
  | some kind =>
    if fsKeyBytes fs = some key.length ∧ primLengthOk kind data = true
        ∧ P.primFails fs key data cv = false then
      some (primCompute P kind fs key data cv)
    else none

end Sys2Proof.Machine
end

