-- ==== Sys2Proof/Machine/Xform.lean ====
section
/-! DEFINITION. XFORM: the front end and dispatch (41_xform_dispatch.md R150 to R157) and the five bodies
(42_ecb.md R166, 43_ofb.md R176, 44_cfb128.md R196, 45_cfb8.md R216, 46_cfb1_sw.md R232). Every body works
on the staging registers and ends in `commit` or in `raise`. -/

namespace Sys2Proof.Machine

/-- What is written back into `cv[n]` after a byte: nothing in OFB (R178), the output byte in an Encrypt
and the input byte in a Decrypt CFB-128 context (R195, R197). -/
inductive FeedbackMux where
  | keep
  | output
  | input
  deriving DecidableEq, Repr

/-- The byte the mux selects, from the register's byte, the input byte and the output byte. -/
def muxPick : FeedbackMux → Byte → Byte → Byte → Byte
  | .keep, reg, _, _ => reg
  | .output, _, _, out => out
  | .input, _, inp, _ => inp

/-- The mux of a CFB-128 context: the ciphertext byte in both directions (R195, R196). -/
def cfbMux : Direction → FeedbackMux
  | .encrypt => .output
  | .decrypt => .input

/-- The staged copies that the three phases of OFB and CFB-128 work on: `S_CV`, `S_N`, `S_OUT` (R35,
R177). -/
structure Carousel where
  cv : Block
  n : Fin 16
  out : Bytes
  deriving DecidableEq, Repr

/-- The staging registers that hold a carousel. -/
def stagingOf (w : Carousel) : Staging where
  cv := some w.cv
  n := some w.n
  sw := none
  out := w.out

/-- One byte at position `S_N` (R176, R196): output, feedback, and the offset advanced modulo 16. The read
of `S_CV[S_N]` precedes the write (R197). -/
def byteStep (mux : FeedbackMux) (b : Byte) (w : Carousel) : Carousel :=
  let o := w.cv[w.n] ^^^ b
  { cv := w.cv.set w.n (muxPick mux w.cv[w.n] b o)
    n := w.n + 1
    out := w.out ++ [o] }

/-- Phase 1, drain (R178, R197): while `S_N != 0` and input is left; yields the input not consumed. -/
def drainPhase (mux : FeedbackMux) : Bytes → Carousel → Carousel × Bytes
  | [], w => (w, [])
  | b :: bs, w => if w.n = 0 then (w, b :: bs) else drainPhase mux bs (byteStep mux b w)

/-- `bulk_len`, the rest rounded down to a multiple of the block size (R9, R182). -/
def bulkLen (rest : Bytes) : Nat := rest.length - rest.length % 16

/-- Phase 2, bulk (R179, R198): one invoke over exactly `bulk_len` bytes with the slot's selector and
`S_CV`, or none when `bulk_len` is 0; `none` when the invoke fails. -/
def bulkPhase (P : Platform) (fs : BitVec 8) (key rest : Bytes) (w : Carousel) : Option Carousel :=
  if bulkLen rest = 0 then some w
  else
    match prim P fs key (memRead rest 0 (bulkLen rest)) (some w.cv) with
    | none => none
    | some r => some { w with cv := r.cv.getD w.cv, out := w.out ++ r.out }

/-- The byte loop of the tail, positions `0 .. rem-1` (R180, R199). -/
def tailBytes (mux : FeedbackMux) (bs : Bytes) (w : Carousel) : Carousel :=
  bs.foldl (fun w b => byteStep mux b w) w

/-- Phase 3, tail (R180, R199): one BLOCK invoke on `S_CV` itself with the generator selector, then the
`rem` bytes left; nothing when `rem` is 0; `none` when the invoke fails. -/
def tailPhase (P : Platform) (mux : FeedbackMux) (fs : BitVec 8) (key left : Bytes) (w : Carousel) :
    Option Carousel :=
  if left.length = 0 then some w
  else
    match prim P (fsGen fs) key w.cv.toList none with
    | none => none
    | some r =>
      some { tailBytes mux left { w with cv := blockOfBytes r.out, n := 0 } with
        n := Fin.ofNat 16 left.length }

/-- The three phases of OFB (R176) and of CFB-128 (R196), which differ in the feedback mux alone (R195). -/
def carouselBody (P : Platform) (mux : FeedbackMux) (c : BitVec 8) (x : Slot) (fs : BitVec 8)
    (key : Bytes) (cv : Block) (n : Fin 16) (data : Bytes) (s : State) : State :=
  let d := drainPhase mux data ⟨cv, n, []⟩
  let s := (s.enter .drain).stage (stagingOf d.1)
  let rest := d.2
  let s := s.enter .bulk
  match bulkPhase P fs key rest d.1 with
  | none => raise .errPrimFail s
  | some w =>
    let s := s.stage (stagingOf w)
    let s := s.enter .tail
    match tailPhase P mux fs key (rest.drop (bulkLen rest)) w with
    | none => raise .errPrimFail s
    | some w => commit c x (s.stage (stagingOf w))

/-- Body of XFORM for `HW_ECB` (R166): one BLOCK invoke over the whole input; no state to stage. -/
def xformEcb (P : Platform) (c : BitVec 8) (x : Slot) (data : Bytes) (s : State) : Result :=
  readField .functionSelector x.functionSelector fun fs =>
  readField .keyMaterial x.keyMaterial fun key =>
    let s := s.enter .bulk
    match prim P fs key (memRead data 0 data.length) none with
    | none => .next (raise .errPrimFail s)
    | some r => .next (commit c x (s.stage { Staging.none with out := r.out }))

/-- Body of XFORM for `HW_OFB` (R176): the register is not fed back, whatever the direction. -/
def xformOfb (P : Platform) (c : BitVec 8) (x : Slot) (data : Bytes) (s : State) : Result :=
  readField .functionSelector x.functionSelector fun fs =>
  readField .keyMaterial x.keyMaterial fun key =>
  readField .feedbackRegister x.feedbackRegister fun cv =>
  readField .residualOffset x.residualOffset fun n =>
    .next (carouselBody P .keep c x fs key cv n data s)

/-- Body of XFORM for `HW_CFB128` (R196): the ciphertext byte is fed back. -/
def xformCfb128 (P : Platform) (c : BitVec 8) (x : Slot) (data : Bytes) (s : State) : Result :=
  readField .functionSelector x.functionSelector fun fs =>
  readField .keyMaterial x.keyMaterial fun key =>
  readField .feedbackRegister x.feedbackRegister fun cv =>
  readField .residualOffset x.residualOffset fun n =>
  readField .direction x.direction fun dir =>
    .next (carouselBody P (cfbMux dir) c x fs key cv n data s)

/-- Body of XFORM for `HW_CFB8` (R216): one CFB8 invoke over the whole input; the offset is neither read
nor written. -/
def xformCfb8 (P : Platform) (c : BitVec 8) (x : Slot) (data : Bytes) (s : State) : Result :=
  readField .functionSelector x.functionSelector fun fs =>
  readField .keyMaterial x.keyMaterial fun key =>
  readField .feedbackRegister x.feedbackRegister fun cv =>
    let s := (s.stage { Staging.none with cv := some cv }).enter .bulk
    match prim P fs key (memRead data 0 data.length) (some cv) with
    | none => .next (raise .errPrimFail s)
    | some r => .next (commit c x (s.stage { Staging.none with cv := some (r.cv.getD cv), out := r.out }))

/-- Body of XFORM for the software path (R232): one delegation. -/
def xformSw (P : Platform) (c : BitVec 8) (x : Slot) (data : Bytes) (s : State) : Result :=
  readField .swState x.swState fun st =>
    let s := s.enter .delegate
    match P.swXform st (memRead data 0 data.length) with
    | none => .next (raise .errSwFail s)
    | some r => .next (commit c x (s.stage { Staging.none with sw := some r.2, out := r.1 }))

/-- Dispatch on the handle stored at INIT (R152). `CAPS` is not read. -/
def xformBody (P : Platform) (c : BitVec 8) (x : Slot) (h : Engine) (data : Bytes) (s : State) : Result :=
  match h with
  | .hwEcb => xformEcb P c x data s
  | .hwOfb => xformOfb P c x data s
  | .hwCfb128 => xformCfb128 P c x data s
  | .hwCfb8 => xformCfb8 P c x data s
  | .sw _ => xformSw P c x data s

/-- XFORM over a platform (R150): the checks in the order of R283, the zero-length case (R153), the body. -/
def xformOn (P : Platform) (c : BitVec 8) (dir : Direction) (len : Word) (data : Bytes) (s : State) :
    Result :=
  let s := s.enter .check
  match s.slot? c with
  | none => .next (raise .errIllegalCmd s)
  | some x =>
    if x.state ≠ .ready then .next (raise .errNoContext s)
    else
      readField .direction x.direction fun d =>
      readField .engine x.engine fun h =>
        if dir ≠ d then .next (raise .errDirMismatch s)
        else if h.mode = .ecb ∧ len.toNat % 16 ≠ 0 then .next (raise .errMisaligned s)
        else if len = 0 then .next (respondOk false [] s)
        else xformBody P c x h data s

/-- The meaning of XFORM (R150). -/
def execXform (c : BitVec 8) (dir : Direction) (len : Word) (data : Bytes) (s : State) : Result :=
  xformOn Config.platform c dir len data s

end Sys2Proof.Machine
end

