-- ==== Sys2Proof/Machine/Dispatch.lean ====
section
/-! DEFINITION. One arm per command. -/

namespace Sys2Proof.Machine

def exec (i : Instr) (s : State) : Host.Outcome State Fault Refusal :=
  match i with
  | .initEcb c ks dir key => Sys2Proof.Machine.execInitEcb c ks dir key s
  | .initOfb c ks dir key iv => Sys2Proof.Machine.execInitOfb c ks dir key iv s
  | .initCfb128 c ks dir key iv => Sys2Proof.Machine.execInitCfb128 c ks dir key iv s
  | .initCfb8 c ks dir key iv => Sys2Proof.Machine.execInitCfb8 c ks dir key iv s
  | .initCfb1 c ks dir key iv => Sys2Proof.Machine.execInitCfb1 c ks dir key iv s
  | .xform c dir len data => Sys2Proof.Machine.execXform c dir len data s
  | .release c => Sys2Proof.Machine.execRelease c s

end Sys2Proof.Machine
end

