-- ==== Sys2Proof/Machine/Port.lean ====
section
/-! DEFINITION. The command port (20_memory.md R60, R80): taking the next presented command. -/

namespace Sys2Proof.Machine

/-- What the command port yields. -/
inductive Fetched where
  /-- No command is presented: the engine is idle, "and idle loses nothing" (R289). -/
  | idle
  /-- A command and the state in which it has been taken off the port. -/
  | run (i : Instr) (s : State)
  /-- The word was illegal and has been answered (R110, R276); its operands are discarded (R108, R285). -/
  | answered (s : State)
  /-- The presentation breaks the form of R108 (log 9). -/
  | malformed

/-- Put a presentation at the head of the command port. -/
def present (f : Frame) (s : State) : State := { s with commandPort := f :: s.commandPort }

/-- Take the next command off the port and decode it (R80, R116). A legal word that names no slot is
illegal whatever its operands are (R110). -/
def fetch (s : State) : Fetched :=
  match s.commandPort with
  | [] => .idle
  | f :: rest =>
    let s := { s with commandPort := rest }
    match decode f with
    | .ok i => .run i s
    | .error .illegalWord => .answered (raise .errIllegalCmd s)
    | .error .operandMismatch =>
      if (fieldCtx f.word).toNat < s.ctx.length then .malformed else .answered (raise .errIllegalCmd s)

end Sys2Proof.Machine
end

