-- ==== Sys2Proof/Machine/Step.lean ====
section
/-! DEFINITION. One step of the engine: the next presented command, executed to completion (20_memory.md
R80). With no command presented the engine stays as it is. -/

namespace Sys2Proof.Machine

/-- One step. -/
def step (s : State) : Host.Outcome State Fault Refusal :=
  match fetch s with
  | .idle => .next s
  | .run i s' => exec i s'
  | .answered s' => .next s'
  | .malformed => .refused .operandMismatch

/-- `s` with an opcode-table word, followed by operands of zeros, presented as the next command. -/
def State.withFetchWord (s : State) (nbits w : Nat) : State := present (tableFrame nbits w) s

end Sys2Proof.Machine
end

