-- ==== Sys2Proof/Safety.lean ====
section
/-! DEFINITION. The terms claims are stated in: the invariant of the state (10_state.md R20, R31 to R35),
responses, streams of XFORM commands on one slot (48_stream_laws.md R250), and the byte-at-a-time reference
(R253). -/

namespace Sys2Proof.Safety

open Sys2Proof.Machine

/-! ### The invariant -/

/-- The selector a handle holds, and whether it holds one (R31, R113). -/
def selectorOf : Engine → Direction → KeySize → Option (BitVec 8)
  | .hwEcb, dir, ks => some (fsPack (ksCode ks) (dirBit dir) fbwNone)
  | .hwOfb, _, ks => some (fsPack (ksCode ks) false fbwNone)
  | .hwCfb128, dir, ks => some (fsPack (ksCode ks) (dirBit dir) fbwBlock)
  | .hwCfb8, dir, ks => some (fsPack (ksCode ks) (dirBit dir) fbwByte)
  | .sw _, _, _ => none

/-- Whether a handle holds a feedback register and a residual offset (R31). -/
def holdsRegister : Engine → Bool
  | .hwEcb => false
  | .hwOfb => true
  | .hwCfb128 => true
  | .hwCfb8 => true
  | .sw _ => false

/-- Whether a handle holds a software-engine state (R31). -/
def holdsSwState : Engine → Bool
  | .sw _ => true
  | .hwEcb => false
  | .hwOfb => false
  | .hwCfb128 => false
  | .hwCfb8 => false

/-- The row of R31 for handle `h`, with the contents that INIT fixes (R32 I4): the key has the length its
size names (R24), the selector is that of R113, a register and an offset are held or not, the offset of
CFB-8 is 0 (R29). -/
abbrev FieldsOk (x : Slot) (h : Engine) (dir : Direction) (key : Bytes) (ks : KeySize) : Prop :=
  key.length = ks.bytes ∧ x.functionSelector = selectorOf h dir ks ∧
    x.feedbackRegister.isSome = holdsRegister h ∧ x.residualOffset.isSome = holdsRegister h ∧
    x.swState.isSome = holdsSwState h ∧ (h = .hwCfb8 → x.residualOffset = some 0)

/-- A READY slot holds exactly what R31 gives its handle. -/
abbrev ReadyOk (x : Slot) : Prop :=
  ∃ h ∈ x.engine, ∃ dir ∈ x.direction, ∃ key ∈ x.keyMaterial,
    ∃ ks ∈ [KeySize.k128, KeySize.k192, KeySize.k256], FieldsOk x h dir key ks

/-- What R22 and R31 say of a slot: EMPTY and no other field holds a value, or READY with its handle's
fields. -/
abbrev SlotOk (x : Slot) : Prop :=
  (x.state = .empty → x = Slot.cleared) ∧ (x.state = .ready → ReadyOk x)

/-- The invariant of the state at a command boundary: 1 to 256 slots (R6), each as R22 and R31 say, `CAPS`
bits 31:27 zero (R33), the sequencer IDLE (R34) and the staging registers empty (R20, R35). -/
abbrev StateOk (s : State) : Prop :=
  1 ≤ s.ctx.length ∧ s.ctx.length ≤ 256 ∧ (∀ x ∈ s.ctx, SlotOk x) ∧
    s.caps.extractLsb' 27 5 = 0 ∧ s.phase = .idle ∧ s.staging = Staging.none

/-! ### Commands -/

/-- An illegal command word on an engine with `n` slots, condition by condition (R110). -/
def IllegalWord (n : Nat) (w : Word) : Prop :=
  (fieldOpc w ≠ 1 ∧ fieldOpc w ≠ 2 ∧ fieldOpc w ≠ 3) ∨ fieldRsv w ≠ 0 ∨
    (fieldOpc w = 1 ∧ (4 < (fieldMode w).toNat ∨ fieldKs w = 3)) ∨
    (fieldOpc w = 2 ∧ (fieldMode w ≠ 0 ∨ fieldKs w ≠ 0)) ∨
    (fieldOpc w = 3 ∧ (fieldMode w ≠ 0 ∨ fieldKs w ≠ 0 ∨ fieldDir w = true)) ∨
    n ≤ (fieldCtx w).toNat

/-- The mode and key size an INIT asks for (R135); nothing for XFORM and RELEASE. -/
def requestOf : Instr → Option (Mode × KeySize)
  | .initEcb _ ks _ _ => some (.ecb, ks)
  | .initOfb _ ks _ _ _ => some (.ofb, ks)
  | .initCfb128 _ ks _ _ _ => some (.cfb128, ks)
  | .initCfb8 _ ks _ _ _ => some (.cfb8, ks)
  | .initCfb1 _ ks _ _ _ => some (.cfb1, ks)
  | .xform _ _ _ _ => none
  | .release _ => none

/-! ### Responses -/

/-- `CODE` of a status word (R109). -/
def codeOf (w : Word) : BitVec 4 := w.extractLsb' 0 4

/-- The response of the last command executed. -/
def lastResponse (s : State) : Option Response := s.responsePort.getLast?

/-- `s` after one more response and nothing else (R285). -/
def withResponse (s : State) (st : Word) (out : Bytes) : State :=
  { s with responsePort := s.responsePort ++ [⟨st, out⟩] }

/-- Commands executed one after another: the final state and their responses, in order, if every one of them
has a next state (R80). -/
def runCommands : List Instr → State → Option (State × List Response)
  | [], s => some (s, [])
  | i :: is, s =>
    match exec i s with
    | .next t =>
      match lastResponse t, runCommands is t with
      | some r, some (u, rs) => some (u, r :: rs)
      | _, _ => none
    | .fault _ => none
    | .refused _ => none

/-! ### Streams -/

/-- The output of the last command if its status is OK. -/
def okOutput (s : State) : Option Bytes :=
  match lastResponse s with
  | some r => if r.status = statusWord .ok false then some r.output else none
  | none => none

/-- `Run` of R250: the XFORMs with inputs `chunks` in order, on slot `c` with direction `dir`; the final
state and the concatenation of the outputs, if every one of them succeeds. It is the run of R250 for chunks
that fit `LEN` (`ChunksOk`); of a longer one `LEN` would be the length modulo `2^32` (log 17). -/
def runChunks (P : Platform) (c : BitVec 8) (dir : Direction) : List Bytes → State → Option (State × Bytes)
  | [], s => some (s, [])
  | d :: ds, s =>
    match xformOn P c dir (BitVec.ofNat 32 d.length) d s with
    | .next t =>
      match okOutput t, runChunks P c dir ds t with
      | some o, some (u, os) => some (u, o ++ os)
      | _, _ => none
    | .fault _ => none
    | .refused _ => none

/-- The chunks can be presented to a slot of mode `m`: each length fits `LEN` (R108), and for ECB it is a
multiple of 16 (R250). -/
abbrev ChunksOk (m : Mode) (chunks : List Bytes) : Prop :=
  ∀ d ∈ chunks, d.length ≤ lenMax ∧ (m = .ecb → d.length % 16 = 0)

/-- "No primitive invoke fails" (R74). -/
def NeverFails (P : Platform) : Prop := ∀ fs key data cv, P.primFails fs key data cv = false

/-- The named property of `D` (R6, R254), for every key of 16, 24 or 32 bytes; nothing is asked of keys of
other lengths, for which R6 gives neither function (log 6). -/
def InverseD (P : Platform) : Prop :=
  ∀ (ks : KeySize) (key : Bytes) (x : Block), key.length = ks.bytes → P.blockD key (P.blockE key x) = x

/-- Slot `c` of `s` is READY on handle `h` with this direction, key, selector, register and offset. -/
def HoldsStream (s : State) (c : BitVec 8) (h : Engine) (dir : Direction) (key : Bytes) (fs : BitVec 8)
    (cv : Option Block) (n : Option (Fin 16)) : Prop :=
  s.slot? c = some (hwSlot h dir key fs cv n)

/-! ### The byte-at-a-time reference -/

/-- `REF_STEP` of R253, for OFB (`mux` keep) and CFB-128 (`mux` by direction): a new block when `n` is 0,
then one byte. -/
def refStep (e : Block → Block) (mux : FeedbackMux) (b : Byte) (cv : Block) (n : Fin 16) :
    Byte × Block × Fin 16 :=
  let v := if n = 0 then e cv else cv
  let o := b ^^^ v[n]
  (o, v.set n (muxPick mux v[n] b o), n + 1)

/-- `REF` of R253: `REF_STEP` over the bytes of a message. -/
def refRun (e : Block → Block) (mux : FeedbackMux) : Bytes → Block → Fin 16 → Bytes × Block × Fin 16
  | [], cv, n => ([], cv, n)
  | b :: bs, cv, n =>
    let r := refStep e mux b cv n
    let q := refRun e mux bs r.2.1 r.2.2
    (r.1 :: q.1, q.2)

/-- The reference output of a whole message for the four modes with a hardware engine (R253): the fold of
`REF_STEP` for OFB and CFB-128, the byte loop of R72 for CFB-8, the block loop of R69 for ECB. CFB1 has no
reference (R230 S3). -/
def refOutput (P : Platform) (m : Mode) (dir : Direction) (key : Bytes) (iv : Option Block) (msg : Bytes) :
    Option Bytes :=
  match m, iv with
  | .ecb, _ =>
    some (blockKind (if dirBit dir then P.blockD key else P.blockE key) (msg.length / 16) msg)
  | .ofb, some v => some (refRun (P.blockE key) .keep msg v 0).1
  | .cfb128, some v => some (refRun (P.blockE key) (cfbMux dir) msg v 0).1
  | .cfb8, some v => some (cfb8Kind (P.blockE key) (dirBit dir) v msg).1
  | .ofb, none => none
  | .cfb128, none => none
  | .cfb8, none => none
  | .cfb1, _ => none

/-- The outputs of successive `SwXform` calls (R228), concatenated. -/
def swRun (P : Platform) : SwState → List Bytes → Option (SwState × Bytes)
  | st, [] => some (st, [])
  | st, d :: ds =>
    match P.swXform st d with
    | none => none
    | some (o, st') =>
      match swRun P st' ds with
      | none => none
      | some (u, os) => some (u, o ++ os)

/-- Obligation S1 of the software engine (R230); it is called on `len > 0` bytes only (R228). -/
def SoftwareKeepsLength (P : Platform) : Prop :=
  ∀ st data out st', data ≠ [] → P.swXform st data = some (out, st') → out.length = data.length

/-- Obligation S2 of the software engine (R230): for the four modes with a hardware engine, its outputs on
any sequence of nonempty inputs are those the hardware rules give, here in the form R253 gives them. `SwInit`
is called as R228 has it: the IV absent for ECB and present for every other mode. -/
def SoftwareEquivalent (P : Platform) : Prop :=
  ∀ (m : Mode) (ks : KeySize) (dir : Direction) (key : Bytes) (iv : Option Block) (st : SwState),
    m ≠ .cfb1 → (iv.isSome = true ↔ m ≠ .ecb) → key.length = ks.bytes → P.swInit m ks dir key iv = some st →
    ∀ (chunks : List Bytes) (st' : SwState) (out : Bytes), ChunksOk m chunks →
      (∀ d ∈ chunks, d ≠ []) → swRun P st chunks = some (st', out) → refOutput P m dir key iv chunks.flatten = some out

/-! ### Closed forms of the feedback register -/

/-- `drained` of R182: the bytes the drain consumes at offset `n` (R178). -/
def drainedOf (n : Fin 16) (len : Nat) : Nat := min len ((16 - n.val) % 16)

/-- `rem` of R182. -/
def remOf (n : Fin 16) (len : Nat) : Nat := (len - drainedOf n len) % 16

/-- `bulk_len` of R182. -/
def bulkOf (n : Fin 16) (len : Nat) : Nat := len - drainedOf n len - remOf n len

/-- `V_t` of R184: `V_0 = IV`, `V_t = E(key, V_{t-1})`. -/
def ofbBlock (e : Block → Block) (iv : Block) : Nat → Block
  | 0 => iv
  | t + 1 => e (ofbBlock e iv t)

/-- Block `t` of a byte string, counted from 0. -/
def blockAt (b : Bytes) (t : Nat) : Block := blockOfBytes (memRead b (16 * t) 16)

/-- `C_t` of R205: the IV for `t = 0`, else the `t`-th whole ciphertext block of the stream. -/
def cfbBlock (iv : Block) (cipher : Bytes) : Nat → Block
  | 0 => iv
  | t + 1 => blockAt cipher t

/-- The ciphertext stream of a CFB context: its outputs when encrypting, its inputs when decrypting
(R205). -/
def cipherStream (dir : Direction) (input output : Bytes) : Bytes :=
  match dir with
  | .encrypt => output
  | .decrypt => input

end Sys2Proof.Safety
end

