-- ==== Sys2Proof/Certificates/Slice0/Obligations.lean ====
section
/-! DEFINITION. The statements for the provers, from the numbered rules of spec/. Statements about `exec`
hold for the platform of `Config`, about which nothing is known; statements that need a premise on the
primitive or the software engine are made of `xformOn P` for every platform `P`, and
`Obligations.CommandsRunOnThePlatform` says that `exec` is the case `P = Config.platform`. -/

open Sys2Proof Sys2Proof.Machine Sys2Proof.Safety

/-! ### Encoding -/

/-- Decoding the presentation of a well-formed command gives it back, with every operand (R108, R116). -/
def Obligations.DecodeOfEncode : Prop :=
  ∀ i : Instr, WellFormed i → decode (encode i) = .ok i

/-- A presentation that decodes is the encoding of the command it decodes to, and that command is
well-formed (R108, R115, R116): every command has one presentation. -/
def Obligations.EncodeOfDecode : Prop :=
  ∀ (f : Frame) (i : Instr), decode f = .ok i → encode i = f ∧ WellFormed i

/-- R115: the fields stand at bits 28, 24, 23, 21 and 0, and those a command does not use are 0; with the
eight examples of the rule. -/
def Obligations.EncodedWordFormula : Prop :=
  (∀ (c : BitVec 8) (ks : KeySize) (dir : Direction) (key : Bytes) (iv : Block) (len : Word) (data : Bytes),
    let low := (dirBit dir).toNat * 2 ^ 23 + (ksCode ks).toNat * 2 ^ 21 + c.toNat
    (encodeWord (.initEcb c ks dir key)).toNat = 1 * 2 ^ 28 + 0 * 2 ^ 24 + low ∧
    (encodeWord (.initOfb c ks dir key iv)).toNat = 1 * 2 ^ 28 + 1 * 2 ^ 24 + low ∧
    (encodeWord (.initCfb128 c ks dir key iv)).toNat = 1 * 2 ^ 28 + 2 * 2 ^ 24 + low ∧
    (encodeWord (.initCfb8 c ks dir key iv)).toNat = 1 * 2 ^ 28 + 3 * 2 ^ 24 + low ∧
    (encodeWord (.initCfb1 c ks dir key iv)).toNat = 1 * 2 ^ 28 + 4 * 2 ^ 24 + low ∧
    (encodeWord (.xform c dir len data)).toNat = 2 * 2 ^ 28 + (dirBit dir).toNat * 2 ^ 23 + c.toNat ∧
    (encodeWord (.release c)).toNat = 3 * 2 ^ 28 + c.toNat) ∧
  ∀ (key : Bytes) (iv : Block) (len : Word) (data : Bytes),
    encodeWord (.initEcb 0 .k128 .encrypt key) = 0x10000000 ∧
    encodeWord (.initOfb 0 .k128 .encrypt key iv) = 0x11000000 ∧
    encodeWord (.initCfb128 3 .k256 .decrypt key iv) = 0x12C00003 ∧
    encodeWord (.initCfb8 1 .k192 .encrypt key iv) = 0x13200001 ∧
    encodeWord (.initCfb1 2 .k128 .decrypt key iv) = 0x14800002 ∧
    encodeWord (.xform 0 .encrypt len data) = 0x20000000 ∧
    encodeWord (.xform 3 .decrypt len data) = 0x20800003 ∧
    encodeWord (.release 3) = 0x30000003

/-- The opcode map of R117: a word decodes to a row exactly when `(w AND mask) = match`, and for the INIT
rows `kk` is not `11`; the variable fields are bits 23, 22:21 and 7:0. -/
def Obligations.CommandRowsByMatchAndMask : Prop :=
  ∀ w : Word,
    ((∃ d k c, decodeWord w = some (.init .ecb d k c)) ↔
      w &&& 0xFF1FFF00 = 0x10000000 ∧ fieldKs w ≠ 3) ∧
    ((∃ d k c, decodeWord w = some (.init .ofb d k c)) ↔
      w &&& 0xFF1FFF00 = 0x11000000 ∧ fieldKs w ≠ 3) ∧
    ((∃ d k c, decodeWord w = some (.init .cfb128 d k c)) ↔
      w &&& 0xFF1FFF00 = 0x12000000 ∧ fieldKs w ≠ 3) ∧
    ((∃ d k c, decodeWord w = some (.init .cfb8 d k c)) ↔
      w &&& 0xFF1FFF00 = 0x13000000 ∧ fieldKs w ≠ 3) ∧
    ((∃ d k c, decodeWord w = some (.init .cfb1 d k c)) ↔
      w &&& 0xFF1FFF00 = 0x14000000 ∧ fieldKs w ≠ 3) ∧
    ((∃ d c, decodeWord w = some (.xform d c)) ↔ w &&& 0xFF7FFF00 = 0x20000000) ∧
    ((∃ c, decodeWord w = some (.release c)) ↔ w &&& 0xFFFFFF00 = 0x30000000)

/-- The decoder accepts a word whose slot is below `n` exactly when no condition of R110 holds (R111,
R116). -/
def Obligations.LegalWordsDecode : Prop :=
  ∀ (n : Nat) (w : Word), ¬ IllegalWord n w ↔ ((decodeWord w).isSome = true ∧ (fieldCtx w).toNat < n)

/-- Words written out from R117 decode to the commands they stand for, fields included (R116). -/
def Obligations.ListedWordsDecode : Prop :=
  decodeWord 0b00010000100000000000000000000000 = some (.init .ecb .decrypt .k128 0) ∧
  decodeWord 0b00010001101000000000000000000000 = some (.init .ofb .decrypt .k192 0) ∧
  decodeWord 0b00010010110000000000000000000011 = some (.init .cfb128 .decrypt .k256 3) ∧
  decodeWord 0b00010011001000000000000000000001 = some (.init .cfb8 .encrypt .k192 1) ∧
  decodeWord 0b00010100100000000000000000000010 = some (.init .cfb1 .decrypt .k128 2) ∧
  decodeWord 0b00100000100000000000000000000001 = some (.xform .decrypt 1) ∧
  decodeWord 0b00110000000000000000000011111111 = some (.release 255)

/-! ### Steps -/

/-- R110, R276: an illegal command word, `CTX >= NCTX` included, is answered with `ERR_ILLEGAL_CMD`
whatever operands come with it; they are consumed and nothing else changes. -/
def Obligations.IllegalCommandAnswered : Prop :=
  ∀ (s : State) (f : Frame) (rest : List Frame), StateOk s → s.commandPort = f :: rest →
    IllegalWord s.ctx.length f.word →
    step s = .next (withResponse { s with commandPort := rest } 0x00000006 [])

/-- When the presentation at the head of the command port decodes to a command, that command is well-formed,
and the step is `exec` of it on the state with the presentation taken off. -/
def Obligations.StepRunsDecodedCommand : Prop :=
  ∀ (s : State) (f : Frame) (rest : List Frame) (i : Instr), s.commandPort = f :: rest →
    decode f = .ok i → WellFormed i ∧ step s = exec i { s with commandPort := rest }

/-- With no command presented a step changes nothing (R289, "idle loses nothing"; the model's choice of what
a step then is, log 1). -/
def Obligations.StepIdleKeepsState : Prop :=
  ∀ s : State, s.commandPort = [] → step s = .next s

/-- The model's choice (log 9): a legal word with operands that are not those of R108 is refused by its own
name. -/
def Obligations.StepRefusesMalformedPresentation : Prop :=
  ∀ (s : State) (f : Frame) (rest : List Frame), s.commandPort = f :: rest →
    decode f = .error .operandMismatch → (fieldCtx f.word).toNat < s.ctx.length →
    step s = .refused .operandMismatch

/-- A table word that decodes is the very next command run from `withFetchWord` (the model's own interface,
log 1). -/
def Obligations.FetchWordRunsNext : Prop :=
  ∀ (s : State) (nbits w : Nat) (i : Instr), decodeTableWord nbits w = some i →
    step (s.withFetchWord nbits w) = exec i s

/-- `exec` is the platform-generic meaning at the platform of `Config` (R6). -/
def Obligations.CommandsRunOnThePlatform : Prop :=
  ∀ (c : BitVec 8) (ks : KeySize) (dir : Direction) (key : Bytes) (iv : Block) (len : Word) (data : Bytes)
    (s : State),
    exec (.xform c dir len data) s = xformOn Config.platform c dir len data s ∧
    exec (.initEcb c ks dir key) s = .next (initEcbOn Config.platform c ks dir key s) ∧
    exec (.initOfb c ks dir key iv) s = .next (initOfbOn Config.platform c ks dir key iv s) ∧
    exec (.initCfb128 c ks dir key iv) s = .next (initCfb128On Config.platform c ks dir key iv s) ∧
    exec (.initCfb8 c ks dir key iv) s = .next (initCfb8On Config.platform c ks dir key iv s) ∧
    exec (.initCfb1 c ks dir key iv) s = .next (initCfb1On Config.platform c ks dir key iv s)

/-! ### The machine as a whole -/

/-- The state after reset meets the invariant. -/
def Obligations.ResetMeetsInvariant : Prop := StateOk State.reset

/-- R38, R300: after reset every slot is EMPTY and no other field holds a value, `CAPS = zext_32(CAP_IN)`, the
sequencer is IDLE and the staging registers are empty; the number of slots is `NCTX`, which R6 bounds by 1
and 256. -/
def Obligations.ResetLeavesListedValues : Prop :=
  State.reset.ctx.length = Config.nctx ∧ 1 ≤ Config.nctx ∧ Config.nctx ≤ 256 ∧
  (∀ x ∈ State.reset.ctx, x.state = .empty ∧ x.engine = none ∧ x.keyMaterial = none ∧ x.direction = none ∧
    x.functionSelector = none ∧ x.feedbackRegister = none ∧ x.residualOffset = none ∧ x.swState = none) ∧
  State.reset.caps.extractLsb' 0 27 = Config.capIn ∧ State.reset.caps.extractLsb' 27 5 = 0 ∧
  State.reset.phase = .idle ∧
  State.reset.staging.cv = none ∧ State.reset.staging.n = none ∧ State.reset.staging.sw = none ∧
  State.reset.staging.out = []

/-- Every step keeps the invariant (R22, R31, R32, R33, R20): each slot holds exactly the fields of its
handle with the contents INIT fixed, the reserved bits of `CAPS` stay 0, the sequencer and the staging
registers are empty between commands. -/
def Obligations.StepKeepsInvariant : Prop :=
  ∀ s t : State, StateOk s → step s = .next t → StateOk t

/-- No step writes `CAPS` ("a reset is the only event that writes `CAPS`", R300) or changes the number of
slots. -/
def Obligations.StepKeepsCapabilitiesAndSlotCount : Prop :=
  ∀ s t : State, step s = .next t → t.caps = s.caps ∧ t.ctx.length = s.ctx.length

/-- "a model in which a command has no successor state is wrong" (R316): at every command boundary every
command has a next state, in which the sequencer is IDLE, the staging registers are empty and one more
response stands; and no step faults. -/
def Obligations.NoCommandIsStuck : Prop :=
  ∀ s : State, StateOk s →
    (∀ i : Instr, ∃ (t : State) (r : Response), exec i s = .next t ∧
      t.responsePort = s.responsePort ++ [r] ∧ t.phase = .idle ∧ t.staging = Staging.none) ∧
    ∀ r : Fault, step s ≠ .fault r

/-- R285: after a command that ends with a status other than OK the engine is as before the command, bit
for bit; the response is the code alone, `SWPATH` 0, no output byte, and the command and its operands are
consumed. -/
def Obligations.FailedCommandChangesNothing : Prop :=
  ∀ (s t : State) (f : Frame) (rest : List Frame) (r : Response), StateOk s → s.commandPort = f :: rest →
    step s = .next t → t.responsePort = s.responsePort ++ [r] → codeOf r.status ≠ 0 →
    r.output = [] ∧ r.status = (codeOf r.status).setWidth 32 ∧
      t = withResponse { s with commandPort := rest } r.status []

/-- Which command can return which status, and with which cause (R272 to R280). -/
def Obligations.StatusesOfEachCommand : Prop :=
  ∀ (s t : State) (i : Instr) (r : Response), StateOk s → exec i s = .next t →
    t.responsePort = s.responsePort ++ [r] →
    match i with
    | .xform c _ len _ =>
      codeOf r.status ∈ [0, 2, 3, 4, 5, 6, 8] ∧
      (codeOf r.status = 2 → ∃ x h, s.slot? c = some x ∧ x.engine = some h ∧ h.mode = .ecb) ∧
      (codeOf r.status = 3 → len ≠ 0 ∧ ∃ x h, s.slot? c = some x ∧ x.engine = some h ∧ h.path = .hw) ∧
      (codeOf r.status = 8 → len ≠ 0 ∧ ∃ x h, s.slot? c = some x ∧ x.engine = some h ∧ h.path = .sw)
    | .release _ => codeOf r.status ∈ [0, 5, 6]
    | i =>
      codeOf r.status ∈ [0, 1, 6, 7, 8] ∧
      (codeOf r.status = 1 → ∃ m ks, requestOf i = some (m, ks) ∧ select m ks s.caps = none) ∧
      (codeOf r.status = 8 → ∃ m ks, requestOf i = some (m, ks) ∧ select m ks s.caps = some (.sw m))

/-- The form of every response (R109): a status word of R271; `SWPATH` is 1 only in the response of a
successful INIT for which the arbiter chose the software engine; only an XFORM that answers OK returns
output bytes. -/
def Obligations.ResponseForm : Prop :=
  ∀ (s t : State) (i : Instr), exec i s = .next t →
    ∃ (st : Status) (sw : Bool) (out : Bytes), t.responsePort = s.responsePort ++ [⟨statusWord st sw, out⟩] ∧
      (sw = true ↔ st = .ok ∧ ∃ m ks, requestOf i = some (m, ks) ∧ select m ks s.caps = some (.sw m)) ∧
      (out ≠ [] → st = .ok ∧ ∃ c dir len data, i = .xform c dir len data)

/-- The status word (R109, R271): the code in bits 3:0, `SWPATH` in bit 8, every other bit 0. -/
def Obligations.StatusWordValues : Prop :=
  (∀ (st : Status) (sw : Bool), codeOf (statusWord st sw) = statusCode st ∧
    (statusWord st sw).getLsbD 8 = sw ∧ (statusWord st sw).extractLsb' 4 4 = 0 ∧
    (statusWord st sw).extractLsb' 9 23 = 0) ∧
  statusWord .ok false = 0x00000000 ∧ statusWord .ok true = 0x00000100 ∧
  statusWord .errUnsupported false = 0x00000001 ∧ statusWord .errMisaligned false = 0x00000002 ∧
  statusWord .errPrimFail false = 0x00000003 ∧ statusWord .errDirMismatch false = 0x00000004 ∧
  statusWord .errNoContext false = 0x00000005 ∧ statusWord .errIllegalCmd false = 0x00000006 ∧
  statusWord .errCtxInUse false = 0x00000007 ∧ statusWord .errSwFail false = 0x00000008

/-- "No command reads or writes a slot other than the one it names" (R21), its write half, with the rest of
the frame of all seven commands: `CAPS`, the number of slots and the commands not yet accepted stay. -/
def Obligations.OneSlotFrame : Prop :=
  ∀ (s t : State) (i : Instr), exec i s = .next t →
    (∀ d : BitVec 8, d ≠ i.slot → t.slot? d = s.slot? d) ∧ t.caps = s.caps ∧
      t.ctx.length = s.ctx.length ∧ t.commandPort = s.commandPort

/-- R81: two commands that name different slots, executed in either order, give the same slots, the same
`CAPS` and the same two responses. -/
def Obligations.CommandsOnDifferentSlotsCommute : Prop :=
  ∀ (s : State) (i j : Instr), StateOk s → i.slot ≠ j.slot →
    ∃ (s1 s2 s12 s21 : State) (ri rj : Response),
      exec i s = .next s1 ∧ exec j s1 = .next s12 ∧ exec j s = .next s2 ∧ exec i s2 = .next s21 ∧
      s12.ctx = s21.ctx ∧ s12.caps = s21.caps ∧ s12.phase = s21.phase ∧ s12.staging = s21.staging ∧
      s12.responsePort = s.responsePort ++ [ri, rj] ∧ s21.responsePort = s.responsePort ++ [rj, ri]

/-- R260: what a command does to its slot and what it answers is a function of that slot and of `CAPS`:
in two states that agree there, it answers the same and leaves the same slot. -/
def Obligations.SlotIsolation : Prop :=
  ∀ (s s' t : State) (i : Instr), s.slot? i.slot = s'.slot? i.slot → s.caps = s'.caps →
    exec i s = .next t →
    ∃ (t' : State) (r : Response), exec i s' = .next t' ∧ t'.slot? i.slot = t.slot? i.slot ∧
      t.responsePort = s.responsePort ++ [r] ∧ t'.responsePort = s'.responsePort ++ [r]

/-- R260: under any sequence of commands, the final contents of slot `c` and the responses to the commands
that name `c` are those of the subsequence of commands that name `c`, started in any state that agrees on
that slot and on `CAPS`. -/
def Obligations.SlotIsolationOverSequences : Prop :=
  ∀ (s s' : State) (c : BitVec 8) (cmds : List Instr), StateOk s → StateOk s' →
    (∀ i ∈ cmds, WellFormed i) → s.slot? c = s'.slot? c → s.caps = s'.caps →
    ∃ (t t' : State) (rs rs' : List Response), runCommands cmds s = some (t, rs) ∧
      runCommands (cmds.filter fun i => i.slot == c) s' = some (t', rs') ∧ t.slot? c = t'.slot? c ∧
      ((cmds.zip rs).filter fun p => p.1.slot == c).map Prod.snd = rs'

/-! ### Arbiter, selectors, INIT -/

/-- The arbiter's rule on the bits of `CAPS` (R33, R131, R133, R134): hardware when bit `3*mode + ks` is set
and the mode is not CFB1, else software when bit `12 + 3*mode + ks` is set, else no engine; the handle has
the requested mode. The second part says the same with every position written out as R33 lists it, so that
it rests on no coding of the modes or key sizes. -/
def Obligations.ArbiterRule : Prop :=
  (∀ (m : Mode) (k : KeySize) (caps : Word),
    let hw := caps.getLsbD (3 * (modeCode m).toNat + (ksCode k).toNat)
    let sw := caps.getLsbD (12 + 3 * (modeCode m).toNat + (ksCode k).toNat)
    (m ≠ .cfb1 → hw = true → ∃ h, select m k caps = some h ∧ h.path = .hw ∧ h.mode = m) ∧
    ((m = .cfb1 ∨ hw = false) → sw = true → select m k caps = some (.sw m)) ∧
    ((m = .cfb1 ∨ hw = false) → sw = false → select m k caps = none)) ∧
  ∀ (k : KeySize) (j : Nat) (caps : Word), (k, j) ∈ [(KeySize.k128, 0), (.k192, 1), (.k256, 2)] →
    (∀ (h : Engine) (m : Mode) (hw sw : Nat),
      (h, m, hw, sw) ∈ [(Engine.hwEcb, Mode.ecb, 0, 12), (.hwOfb, .ofb, 3, 15), (.hwCfb128, .cfb128, 6, 18),
        (.hwCfb8, .cfb8, 9, 21)] →
      select m k caps = if caps.getLsbD (hw + j) then some h
        else if caps.getLsbD (sw + j) then some (.sw m) else none) ∧
    select .cfb1 k caps = if caps.getLsbD (24 + j) then some (.sw .cfb1) else none

/-- The function selector (R112, R113): the value of each hardware engine's selector, its fields, and the
generator selector. -/
def Obligations.FunctionSelectorValues : Prop :=
  (∀ (k : KeySize) (d : Direction),
    (selectorOf .hwEcb d k).map BitVec.toNat = some ((ksCode k).toNat + 4 * (dirBit d).toNat) ∧
    (selectorOf .hwOfb d k).map BitVec.toNat = some (ksCode k).toNat ∧
    (selectorOf .hwCfb128 d k).map BitVec.toNat = some ((ksCode k).toNat + 4 * (dirBit d).toNat + 128) ∧
    (selectorOf .hwCfb8 d k).map BitVec.toNat = some ((ksCode k).toNat + 4 * (dirBit d).toNat + 8)) ∧
  (∀ (k : BitVec 2) (d : Bool) (w : BitVec 5), fsKs (fsPack k d w) = k ∧ fsDec (fsPack k d w) = d ∧
    fsFbw (fsPack k d w) = w ∧ (fsGen (fsPack k d w)).toNat = k.toNat)

/-- INIT.ECB with `CAPS.HW[ECB][ks]` set, on an EMPTY slot (R136, R137, R138): OK, `SWPATH` 0, and the slot
holds exactly the handle, the key, the direction and the selector `KS + 4*DIR`. -/
def Obligations.InitEcbOnHardware : Prop :=
  ∀ (s : State) (c : BitVec 8) (ks : KeySize) (dir : Direction) (key : Bytes) (x : Slot),
    s.slot? c = some x → x.state = .empty → hwCap s.caps .ecb ks = true →
    exec (.initEcb c ks dir key) s = .next (finish ⟨0x00000000, []⟩ (s.setSlot c
      { state := .ready, engine := some .hwEcb, keyMaterial := some key, direction := some dir,
        functionSelector := some (BitVec.ofNat 8 ((ksCode ks).toNat + 4 * (dirBit dir).toNat)),
        feedbackRegister := none, residualOffset := none, swState := none }))

/-- INIT.OFB with `CAPS.HW[OFB][ks]` set, on an EMPTY slot (R136, R137, R139): selector `KS`, register from
the IV, offset 0. -/
def Obligations.InitOfbOnHardware : Prop :=
  ∀ (s : State) (c : BitVec 8) (ks : KeySize) (dir : Direction) (key : Bytes) (iv : Block) (x : Slot),
    s.slot? c = some x → x.state = .empty → hwCap s.caps .ofb ks = true →
    exec (.initOfb c ks dir key iv) s = .next (finish ⟨0x00000000, []⟩ (s.setSlot c
      { state := .ready, engine := some .hwOfb, keyMaterial := some key, direction := some dir,
        functionSelector := some (BitVec.ofNat 8 (ksCode ks).toNat),
        feedbackRegister := some iv, residualOffset := some 0, swState := none }))

/-- INIT.CFB128 with `CAPS.HW[CFB128][ks]` set, on an EMPTY slot (R136, R137, R140): selector
`KS + 4*DIR + 128`, register from the IV, offset 0. -/
def Obligations.InitCfb128OnHardware : Prop :=
  ∀ (s : State) (c : BitVec 8) (ks : KeySize) (dir : Direction) (key : Bytes) (iv : Block) (x : Slot),
    s.slot? c = some x → x.state = .empty → hwCap s.caps .cfb128 ks = true →
    exec (.initCfb128 c ks dir key iv) s = .next (finish ⟨0x00000000, []⟩ (s.setSlot c
      { state := .ready, engine := some .hwCfb128, keyMaterial := some key, direction := some dir,
        functionSelector := some (BitVec.ofNat 8 ((ksCode ks).toNat + 4 * (dirBit dir).toNat + 128)),
        feedbackRegister := some iv, residualOffset := some 0, swState := none }))

/-- INIT.CFB8 with `CAPS.HW[CFB8][ks]` set, on an EMPTY slot (R136, R137, R141): selector `KS + 4*DIR + 8`,
register from the IV, offset 0. -/
def Obligations.InitCfb8OnHardware : Prop :=
  ∀ (s : State) (c : BitVec 8) (ks : KeySize) (dir : Direction) (key : Bytes) (iv : Block) (x : Slot),
    s.slot? c = some x → x.state = .empty → hwCap s.caps .cfb8 ks = true →
    exec (.initCfb8 c ks dir key iv) s = .next (finish ⟨0x00000000, []⟩ (s.setSlot c
      { state := .ready, engine := some .hwCfb8, keyMaterial := some key, direction := some dir,
        functionSelector := some (BitVec.ofNat 8 ((ksCode ks).toNat + 4 * (dirBit dir).toNat + 8)),
        feedbackRegister := some iv, residualOffset := some 0, swState := none }))

/-- Every INIT for which the arbiter chooses the software engine, CFB1 included (R136, R137, R142, R143):
one call of `SwInit`; on its answer the slot holds the handle, the key, the direction and the state
returned, and nothing else, and the response is OK with `SWPATH` 1; on FAIL it is `ERR_SW_FAIL`. -/
def Obligations.InitOnSoftwarePath : Prop :=
  ∀ (s : State) (m : Mode) (c : BitVec 8) (ks : KeySize) (dir : Direction) (key : Bytes) (iv : Option Block)
    (i : Instr) (x : Slot), initInstr m c ks dir key iv = some i →
    s.slot? c = some x → x.state = .empty → hwCap s.caps m ks = false → swCap s.caps m ks = true →
    exec i s = .next
      (match Config.swInit m ks dir key iv with
        | some st => finish ⟨0x00000100, []⟩ (s.setSlot c
            { state := .ready, engine := some (.sw m), keyMaterial := some key, direction := some dir,
              functionSelector := none, feedbackRegister := none, residualOffset := none,
              swState := some st })
        | none => finish ⟨0x00000008, []⟩ s)

/-- INIT.CFB1 (R142, R134, R136), in the order of its checks: no such slot, slot in use, `CAPS.SW[CFB1][ks]`
clear (whatever every other bit of `CAPS` is), and with that bit set one call of `SwInit`: the slot holds
`SW_CFB1`, the key, the direction and the state returned, `SWPATH` 1, or on FAIL `ERR_SW_FAIL`. -/
def Obligations.InitCfb1Command : Prop :=
  ∀ (s : State) (c : BitVec 8) (ks : KeySize) (dir : Direction) (key : Bytes) (iv : Block), StateOk s →
    (s.ctx.length ≤ c.toNat → exec (.initCfb1 c ks dir key iv) s = .next (withResponse s 0x00000006 [])) ∧
    (∀ x, s.slot? c = some x → x.state = .ready →
      exec (.initCfb1 c ks dir key iv) s = .next (withResponse s 0x00000007 [])) ∧
    (∀ x, s.slot? c = some x → x.state = .empty → s.caps.getLsbD (24 + (ksCode ks).toNat) = false →
      exec (.initCfb1 c ks dir key iv) s = .next (withResponse s 0x00000001 [])) ∧
    (∀ x, s.slot? c = some x → x.state = .empty → s.caps.getLsbD (24 + (ksCode ks).toNat) = true →
      exec (.initCfb1 c ks dir key iv) s = .next
        (match Config.swInit .cfb1 ks dir key (some iv) with
          | some st => withResponse (s.setSlot c
              { state := .ready, engine := some (.sw .cfb1), keyMaterial := some key, direction := some dir,
                functionSelector := none, feedbackRegister := none, residualOffset := none,
                swState := some st }) 0x00000100 []
          | none => withResponse s 0x00000008 []))

/-- The checks of every INIT in the order of R136 and R283: no such slot, slot in use, no engine; each
answers its status and changes nothing. -/
def Obligations.InitRejections : Prop :=
  ∀ (s : State) (m : Mode) (c : BitVec 8) (ks : KeySize) (dir : Direction) (key : Bytes) (iv : Option Block)
    (i : Instr), StateOk s → initInstr m c ks dir key iv = some i →
    (s.ctx.length ≤ c.toNat → exec i s = .next (withResponse s 0x00000006 [])) ∧
    (∀ x, s.slot? c = some x → x.state = .ready → exec i s = .next (withResponse s 0x00000007 [])) ∧
    (∀ x, s.slot? c = some x → x.state = .empty → hwCap s.caps m ks = false → swCap s.caps m ks = false →
      exec i s = .next (withResponse s 0x00000001 []))

/-! ### RELEASE -/

/-- RELEASE (R158): a READY slot becomes EMPTY and no other field holds a value; an EMPTY slot answers
`ERR_NO_CONTEXT`, a number that is no slot `ERR_ILLEGAL_CMD`, and nothing changes. -/
def Obligations.ReleaseCommand : Prop :=
  ∀ (s : State) (c : BitVec 8), StateOk s →
    (s.ctx.length ≤ c.toNat → exec (.release c) s = .next (withResponse s 0x00000006 [])) ∧
    (∀ x, s.slot? c = some x → x.state = .empty →
      exec (.release c) s = .next (withResponse s 0x00000005 [])) ∧
    (∀ x, s.slot? c = some x → x.state = .ready →
      exec (.release c) s = .next (withResponse (s.setSlot c
        { state := .empty, engine := none, keyMaterial := none, direction := none, functionSelector := none,
          feedbackRegister := none, residualOffset := none, swState := none }) 0x00000000 []))

/-! ### XFORM -/

/-- The checks of XFORM in the order of R150 and R283: no such slot, EMPTY slot, direction mismatch (R151, in
every mode and on both paths), misaligned length in mode ECB (R167); each answers its status and changes
nothing. -/
def Obligations.XformRejections : Prop :=
  ∀ (s : State) (c : BitVec 8) (dir : Direction) (len : Word) (data : Bytes), StateOk s →
    (s.ctx.length ≤ c.toNat → exec (.xform c dir len data) s = .next (withResponse s 0x00000006 [])) ∧
    (∀ x, s.slot? c = some x → x.state = .empty →
      exec (.xform c dir len data) s = .next (withResponse s 0x00000005 [])) ∧
    (∀ x, s.slot? c = some x → x.state = .ready → x.direction ≠ some dir →
      exec (.xform c dir len data) s = .next (withResponse s 0x00000004 [])) ∧
    (∀ x h, s.slot? c = some x → x.state = .ready → x.direction = some dir → x.engine = some h →
      h.mode = .ecb → len.toNat % 16 ≠ 0 →
      exec (.xform c dir len data) s = .next (withResponse s 0x00000002 []))

/-- R153: an XFORM with `len = 0` that passes the checks responds OK with no output and writes no state, for
every handle of R23; the checks still apply. -/
def Obligations.XformZeroLength : Prop :=
  ∀ (s : State) (c : BitVec 8) (dir : Direction) (x : Slot), StateOk s → s.slot? c = some x →
    (x.state = .ready → x.direction = some dir →
      exec (.xform c dir 0 []) s = .next (withResponse s 0x00000000 [])) ∧
    (x.state = .empty → exec (.xform c dir 0 []) s = .next (withResponse s 0x00000005 [])) ∧
    (x.state = .ready → x.direction ≠ some dir →
      exec (.xform c dir 0 []) s = .next (withResponse s 0x00000004 []))

/-- XFORM on `HW_ECB` (R166, R69): one invoke over the whole input. If it does not fail, block `j` of the
output is the block function of block `j` of the input, `E` when encrypting and `D` when decrypting, and no
slot changes; if it fails, `ERR_PRIM_FAIL`. -/
def Obligations.XformEcbResult : Prop :=
  ∀ (s : State) (c : BitVec 8) (ks : KeySize) (dir : Direction) (key : Bytes) (len : Word) (data : Bytes)
    (fs : BitVec 8), key.length = ks.bytes → selectorOf .hwEcb dir ks = some fs →
    HoldsStream s c .hwEcb dir key fs none none → WellFormed (.xform c dir len data) → len ≠ 0 →
    len.toNat % 16 = 0 →
    ∃ out : Bytes, out.length = data.length ∧
      (∀ j, j < data.length / 16 → blockAt out j =
        (match dir with
          | .encrypt => Config.blockE key (blockAt data j)
          | .decrypt => Config.blockD key (blockAt data j))) ∧
      exec (.xform c dir len data) s = .next
        (if Config.primFails fs key data none = true then finish ⟨0x00000003, []⟩ s
          else finish ⟨0x00000000, out⟩ s)

/-- XFORM on `HW_OFB` that stays inside the current key stream block (R178, R183 (b), (c)): it completes
without an invoke, the output is the input XOR the next unconsumed bytes `cv[n .. n+len-1]`, the register
stays, the offset advances modulo 16. -/
def Obligations.OfbDrainOnly : Prop :=
  ∀ (s : State) (c : BitVec 8) (dir : Direction) (key : Bytes) (fs : BitVec 8) (cv : Block) (n : Fin 16)
    (len : Word) (data : Bytes), HoldsStream s c .hwOfb dir key fs (some cv) (some n) → n ≠ 0 → len ≠ 0 →
    WellFormed (.xform c dir len data) → n.val + data.length ≤ 16 →
    exec (.xform c dir len data) s = .next (finish
      ⟨0x00000000, xorBytes data (memRead cv.toList n.val data.length)⟩
      (s.setSlot c (hwSlot .hwOfb dir key fs (some cv) (some (Fin.ofNat 16 (n.val + data.length))))))

/-- XFORM on `HW_CFB128` that stays inside the current block (R197, R201): as OFB, and positions
`n .. n+len-1` of the register become the ciphertext bytes, the output when encrypting and the input when
decrypting. -/
def Obligations.Cfb128DrainOnly : Prop :=
  ∀ (s : State) (c : BitVec 8) (dir : Direction) (key : Bytes) (fs : BitVec 8) (cv : Block) (n : Fin 16)
    (len : Word) (data : Bytes), HoldsStream s c .hwCfb128 dir key fs (some cv) (some n) → n ≠ 0 →
    len ≠ 0 → WellFormed (.xform c dir len data) → n.val + data.length ≤ 16 →
    let out := xorBytes data (memRead cv.toList n.val data.length)
    exec (.xform c dir len data) s = .next (finish ⟨0x00000000, out⟩
      (s.setSlot c (hwSlot .hwCfb128 dir key fs
        (some (blockOfBytes (cv.toList.take n.val ++ cipherStream dir data out ++
          cv.toList.drop (n.val + data.length))))
        (some (Fin.ofNat 16 (n.val + data.length))))))

/-- XFORM on `HW_OFB`, whole (R176 to R183): with `drained`, `bulk_len` and `rem` of R182, it raises
`ERR_PRIM_FAIL` when the bulk invoke is made and fails or the tail invoke is made and fails, and otherwise
commits what the byte-at-a-time reference computes from the register and offset at entry. -/
def Obligations.OfbCommandResult : Prop :=
  ∀ (s : State) (c : BitVec 8) (ks : KeySize) (dir : Direction) (key : Bytes) (cv : Block) (n : Fin 16)
    (len : Word) (data : Bytes) (fs : BitVec 8), key.length = ks.bytes →
    selectorOf .hwOfb dir ks = some fs → HoldsStream s c .hwOfb dir key fs (some cv) (some n) → len ≠ 0 →
    WellFormed (.xform c dir len data) →
    let e := Config.blockE key
    let drained := drainedOf n data.length
    let bulk := bulkOf n data.length
    let cvBulk := (refRun e .keep (data.take drained) cv n).2.1
    let cvTail := (refRun e .keep (data.take (drained + bulk)) cv n).2.1
    let r := refRun e .keep data cv n
    exec (.xform c dir len data) s = .next
      (if (bulk ≠ 0 ∧ Config.primFails fs key (memRead data drained bulk) (some cvBulk) = true) ∨
          (remOf n data.length ≠ 0 ∧ Config.primFails (fsGen fs) key cvTail.toList none = true) then
        finish ⟨0x00000003, []⟩ s
      else finish ⟨0x00000000, r.1⟩
        (s.setSlot c (hwSlot .hwOfb dir key fs (some r.2.1) (some r.2.2))))

/-- XFORM on `HW_CFB128`, whole (R196 to R201): as OFB with the ciphertext fed back; the tail invoke uses the
generator selector, never `D`. -/
def Obligations.Cfb128CommandResult : Prop :=
  ∀ (s : State) (c : BitVec 8) (ks : KeySize) (dir : Direction) (key : Bytes) (cv : Block) (n : Fin 16)
    (len : Word) (data : Bytes) (fs : BitVec 8), key.length = ks.bytes →
    selectorOf .hwCfb128 dir ks = some fs → HoldsStream s c .hwCfb128 dir key fs (some cv) (some n) →
    len ≠ 0 → WellFormed (.xform c dir len data) →
    let e := Config.blockE key
    let drained := drainedOf n data.length
    let bulk := bulkOf n data.length
    let cvBulk := (refRun e (cfbMux dir) (data.take drained) cv n).2.1
    let cvTail := (refRun e (cfbMux dir) (data.take (drained + bulk)) cv n).2.1
    let r := refRun e (cfbMux dir) data cv n
    exec (.xform c dir len data) s = .next
      (if (bulk ≠ 0 ∧ Config.primFails fs key (memRead data drained bulk) (some cvBulk) = true) ∨
          (remOf n data.length ≠ 0 ∧ Config.primFails (fsGen fs) key cvTail.toList none = true) then
        finish ⟨0x00000003, []⟩ s
      else finish ⟨0x00000000, r.1⟩
        (s.setSlot c (hwSlot .hwCfb128 dir key fs (some r.2.1) (some r.2.2))))

/-- XFORM on `HW_CFB8`, whole (R216, R217, R72): one invoke over the input. With `W` the register followed by
the ciphertext bytes, output byte `p` is `in[p] XOR E(key, W[p .. p+15])[0]`, the register becomes
`W[len .. len+15]`, the offset stays. What bytes come out and what the register holds is PRESUMED (log 10):
R72 marks the byte definition of CFB-8 as general knowledge and not in its source (G2). -/
def Obligations.XformCfb8Result : Prop :=
  ∀ (s : State) (c : BitVec 8) (ks : KeySize) (dir : Direction) (key : Bytes) (cv : Block)
    (len : Word) (data : Bytes) (fs : BitVec 8), key.length = ks.bytes →
    selectorOf .hwCfb8 dir ks = some fs → HoldsStream s c .hwCfb8 dir key fs (some cv) (some 0) → len ≠ 0 →
    WellFormed (.xform c dir len data) →
    ∃ out : Bytes, out.length = data.length ∧
      (∀ p, p < data.length → out.getD p 0 = data.getD p 0 ^^^
        (Config.blockE key
          (blockOfBytes (memRead (cv.toList ++ cipherStream dir data out) p 16))).toList.getD 0 0) ∧
      exec (.xform c dir len data) s = .next
        (if Config.primFails fs key data (some cv) = true then finish ⟨0x00000003, []⟩ s
        else finish ⟨0x00000000, out⟩ (s.setSlot c (hwSlot .hwCfb8 dir key fs
          (some (blockOfBytes (memRead (cv.toList ++ cipherStream dir data out) data.length 16)))
          (some 0))))

/-- XFORM on the software path (R232, R231): the input goes to `SwXform` unchanged, its output comes back
unchanged, its state is committed; on FAIL `ERR_SW_FAIL`. -/
def Obligations.XformSoftwareResult : Prop :=
  ∀ (s : State) (c : BitVec 8) (m : Mode) (dir : Direction) (key : Bytes) (st : SwState) (len : Word)
    (data : Bytes), s.slot? c = some (swSlot m dir key st) → WellFormed (.xform c dir len data) → len ≠ 0 →
    (m = .ecb → len.toNat % 16 = 0) →
    exec (.xform c dir len data) s = .next
      (match Config.swXform st data with
        | some (out, st') => finish ⟨0x00000000, out⟩ (s.setSlot c (swSlot m dir key st'))
        | none => finish ⟨0x00000008, []⟩ s)

/-- R156: what XFORM never changes. -/
def Obligations.XformNeverChanges : Prop :=
  ∀ (s t : State) (c : BitVec 8) (dir : Direction) (len : Word) (data : Bytes),
    exec (.xform c dir len data) s = .next t →
    (∀ x, s.slot? c = some x → ∃ y, t.slot? c = some y ∧ y.state = x.state ∧ y.engine = x.engine ∧
      y.keyMaterial = x.keyMaterial ∧ y.direction = x.direction ∧
      y.functionSelector = x.functionSelector) ∧
    (∀ d : BitVec 8, d ≠ c → t.slot? d = s.slot? d) ∧ t.caps = s.caps

/-- R62, R154: a successful XFORM returns exactly `len` bytes, on every platform whose software engine keeps
lengths (S1 of R230). -/
def Obligations.XformOutputLength : Prop :=
  ∀ (P : Platform) (s t : State) (c : BitVec 8) (dir : Direction) (len : Word) (data out : Bytes),
    SoftwareKeepsLength P → StateOk s → WellFormed (.xform c dir len data) →
    xformOn P c dir len data s = .next t → okOutput t = some out → out.length = len.toNat

/-! ### The primitive port -/

/-- When the primitive fails, for data whose length the contract of R73 allows (R68, R74): on every
combination of chaining vector and selector that is not a row of R68's table (no vector and `FBW` 0; a vector
and `FBW` 0 with `DEC` 0, `FBW` 16 or `FBW` 1), on `KS` 3, on a key of another length than `KS` names, and
where `PrimFails` holds. -/
def Obligations.PrimitiveFailsExactly : Prop :=
  ∀ (P : Platform) (fs : BitVec 8) (key data : Bytes) (cv : Option Block), 0 < data.length →
    (data.length % 16 = 0 ∨ (cv.isSome = true ∧ fsFbw fs = 1)) →
    (prim P fs key data cv = none ↔
      (¬ ((cv = none ∧ fsFbw fs = 0) ∨
          (cv.isSome = true ∧ ((fsFbw fs = 0 ∧ fsDec fs = false) ∨ fsFbw fs = 16 ∨ fsFbw fs = 1))) ∨
        fsKs fs = 3 ∨ key.length ≠ 16 + 8 * (fsKs fs).toNat ∨ P.primFails fs key data cv = true))

/-! ### Streams -/

/-- R253: a run of XFORMs on an OFB or CFB-128 slot, from any register and offset and however the stream is
cut, outputs what the byte-at-a-time reference outputs, and leaves its register and offset. -/
def Obligations.StreamMatchesReference : Prop :=
  ∀ (P : Platform) (s t : State) (c : BitVec 8) (h : Engine) (mux : FeedbackMux) (ks : KeySize)
    (dir : Direction) (key : Bytes) (fs : BitVec 8) (cv : Block) (n : Fin 16) (chunks : List Bytes)
    (out : Bytes), ((h = .hwOfb ∧ mux = .keep) ∨ (h = .hwCfb128 ∧ mux = cfbMux dir)) →
    selectorOf h dir ks = some fs → HoldsStream s c h dir key fs (some cv) (some n) →
    ChunksOk h.mode chunks → runChunks P c dir chunks s = some (t, out) →
    let r := refRun (P.blockE key) mux chunks.flatten cv n
    out = r.1 ∧ HoldsStream t c h dir key fs (some r.2.1) (some r.2.2)

/-- R251, chunk invariance: on a hardware-path slot two ways of cutting the same message give the same
output and leave the slot the same; empty chunks may appear anywhere. -/
def Obligations.ChunkInvariance : Prop :=
  ∀ (P : Platform) (s t u : State) (c : BitVec 8) (dir : Direction) (x : Slot) (h : Engine)
    (xs ys : List Bytes) (o o' : Bytes), StateOk s → s.slot? c = some x → x.engine = some h → h.path = .hw →
    ChunksOk h.mode xs → ChunksOk h.mode ys → xs.flatten = ys.flatten →
    runChunks P c dir xs s = some (t, o) → runChunks P c dir ys s = some (u, o') →
    o = o' ∧ t.slot? c = u.slot? c

/-- When no primitive invoke fails, every XFORM of a run on a hardware-path slot succeeds: the engine never
makes a reserved or misaligned invoke (R68, R73, R74). -/
def Obligations.StreamsSucceed : Prop :=
  ∀ (P : Platform) (s : State) (c : BitVec 8) (dir : Direction) (x : Slot) (h : Engine)
    (chunks : List Bytes), NeverFails P → StateOk s → s.slot? c = some x → x.engine = some h → h.path = .hw →
    x.direction = some dir → ChunksOk h.mode chunks → (runChunks P c dir chunks s).isSome = true

/-- R184: after `L` bytes on an OFB slot that INIT seeded with `iv`, the offset is `L mod 16` and the
register is `V_{ceil(L/16)}`. -/
def Obligations.OfbRegisterClosedForm : Prop :=
  ∀ (P : Platform) (s t : State) (c : BitVec 8) (ks : KeySize) (dir : Direction) (key : Bytes)
    (fs : BitVec 8) (iv : Block) (chunks : List Bytes) (out : Bytes),
    selectorOf .hwOfb dir ks = some fs → HoldsStream s c .hwOfb dir key fs (some iv) (some 0) →
    ChunksOk .ofb chunks → runChunks P c dir chunks s = some (t, out) →
    HoldsStream t c .hwOfb dir key fs
      (some (ofbBlock (P.blockE key) iv ((chunks.flatten.length + 15) / 16)))
      (some (Fin.ofNat 16 chunks.flatten.length))

/-- R185: output byte `p` of an OFB stream is `m[p] XOR V_{floor(p/16)+1}[p mod 16]`, however the stream was
cut. -/
def Obligations.OfbStreamFunction : Prop :=
  ∀ (P : Platform) (s t : State) (c : BitVec 8) (ks : KeySize) (dir : Direction) (key : Bytes)
    (fs : BitVec 8) (iv : Block) (chunks : List Bytes) (out : Bytes),
    selectorOf .hwOfb dir ks = some fs → HoldsStream s c .hwOfb dir key fs (some iv) (some 0) →
    ChunksOk .ofb chunks → runChunks P c dir chunks s = some (t, out) →
    out.length = chunks.flatten.length ∧
    ∀ p, p < chunks.flatten.length → out.getD p 0 =
      chunks.flatten.getD p 0 ^^^ (ofbBlock (P.blockE key) iv (p / 16 + 1)).toList.getD (p % 16) 0

/-- R205: the register and the offset of a CFB-128 slot after `L` bytes, from the ciphertext stream. -/
def Obligations.Cfb128RegisterClosedForm : Prop :=
  ∀ (P : Platform) (s t : State) (c : BitVec 8) (ks : KeySize) (dir : Direction) (key : Bytes)
    (fs : BitVec 8) (iv : Block) (chunks : List Bytes) (out : Bytes),
    selectorOf .hwCfb128 dir ks = some fs → HoldsStream s c .hwCfb128 dir key fs (some iv) (some 0) →
    ChunksOk .cfb128 chunks → runChunks P c dir chunks s = some (t, out) →
    let cipher := cipherStream dir chunks.flatten out
    let len := cipher.length
    let whole := cfbBlock iv cipher (len / 16)
    len = chunks.flatten.length ∧
    ∃ cv : Block, HoldsStream t c .hwCfb128 dir key fs (some cv) (some (Fin.ofNat 16 len)) ∧
      (len % 16 = 0 → cv = whole) ∧
      (len % 16 ≠ 0 → ∀ j, j < 16 → cv.toList.getD j 0 =
        if j < len % 16 then cipher.getD (16 * (len / 16) + j) 0
        else (P.blockE key whole).toList.getD j 0)

/-- R203: each block of a CFB-128 stream is the input block XOR `E(key, C_{t-1})`, the last one truncated, in
both directions and however the stream was cut. -/
def Obligations.Cfb128StreamFunction : Prop :=
  ∀ (P : Platform) (s t : State) (c : BitVec 8) (ks : KeySize) (dir : Direction) (key : Bytes)
    (fs : BitVec 8) (iv : Block) (chunks : List Bytes) (out : Bytes),
    selectorOf .hwCfb128 dir ks = some fs → HoldsStream s c .hwCfb128 dir key fs (some iv) (some 0) →
    ChunksOk .cfb128 chunks → runChunks P c dir chunks s = some (t, out) →
    out.length = chunks.flatten.length ∧
    ∀ p, p < chunks.flatten.length → out.getD p 0 = chunks.flatten.getD p 0 ^^^
      (P.blockE key (cfbBlock iv (cipherStream dir chunks.flatten out) (p / 16))).toList.getD (p % 16) 0

/-- R218, R219: with `W = IV ++ ciphertext`, after `L` bytes on a CFB-8 slot the register is `W[L .. L+15]`
and the offset 0, and output byte `p` is `in[p] XOR E(key, W[p .. p+15])[0]`. What bytes come out and what
the register holds is PRESUMED (log 10): R72 marks the byte definition of CFB-8 as general knowledge and not
in its source (G2). -/
def Obligations.Cfb8StreamAndRegister : Prop :=
  ∀ (P : Platform) (s t : State) (c : BitVec 8) (ks : KeySize) (dir : Direction) (key : Bytes)
    (fs : BitVec 8) (iv : Block) (chunks : List Bytes) (out : Bytes),
    selectorOf .hwCfb8 dir ks = some fs → HoldsStream s c .hwCfb8 dir key fs (some iv) (some 0) →
    ChunksOk .cfb8 chunks → runChunks P c dir chunks s = some (t, out) →
    let w := iv.toList ++ cipherStream dir chunks.flatten out
    HoldsStream t c .hwCfb8 dir key fs (some (blockOfBytes (memRead w chunks.flatten.length 16)))
      (some 0) ∧
    out.length = chunks.flatten.length ∧
    ∀ p, p < chunks.flatten.length → out.getD p 0 = chunks.flatten.getD p 0 ^^^
      (P.blockE key (blockOfBytes (memRead w p 16))).toList.getD 0 0

/-- R254, round trip of OFB, CFB-128 and CFB-8, with any chunking on either side and for every `E`; `D` is
not used. For CFB-8 it is about the byte definition of R72, which is PRESUMED (log 10). -/
def Obligations.FeedbackModesRoundTrip : Prop :=
  ∀ (P : Platform) (s s' t u : State) (c c' : BitVec 8) (h : Engine) (ks : KeySize) (key : Bytes)
    (fs fs' : BitVec 8) (iv : Block) (xs ys : List Bytes) (o m : Bytes),
    (h = .hwOfb ∨ h = .hwCfb128 ∨ h = .hwCfb8) → selectorOf h .encrypt ks = some fs →
    selectorOf h .decrypt ks = some fs' → HoldsStream s c h .encrypt key fs (some iv) (some 0) →
    HoldsStream s' c' h .decrypt key fs' (some iv) (some 0) → ChunksOk h.mode xs → ChunksOk h.mode ys →
    runChunks P c .encrypt xs s = some (t, o) → runChunks P c' .decrypt ys s' = some (u, m) →
    ys.flatten = o → m = xs.flatten

/-- R169: if `D(key, E(key, X)) = X`, an ECB Decrypt context undoes an ECB Encrypt context with the same
key, for every whole-block message, provided no invoke fails. -/
def Obligations.EcbRoundTrip : Prop :=
  ∀ (P : Platform) (s s' : State) (c c' : BitVec 8) (ks : KeySize) (key msg : Bytes) (fs fs' : BitVec 8),
    InverseD P → NeverFails P → key.length = ks.bytes → selectorOf .hwEcb .encrypt ks = some fs →
    selectorOf .hwEcb .decrypt ks = some fs' → HoldsStream s c .hwEcb .encrypt key fs none none →
    HoldsStream s' c' .hwEcb .decrypt key fs' none none → msg.length % 16 = 0 → msg.length ≤ lenMax →
    ∃ (t u : State) (o : Bytes), runChunks P c .encrypt [msg] s = some (t, o) ∧
      runChunks P c' .decrypt [o] s' = some (u, msg)

/-- R252: under obligation S2 of the software engine (R230), the output of a hardware-path stream, however
it is cut, is the software engine's output for the whole nonempty message in one call (an empty message is
answered without either engine, R153). For CFB-8 both sides are the byte definition of R72, which is PRESUMED
(log 10). -/
def Obligations.SoftwareEquivalence : Prop :=
  ∀ (P : Platform) (s t : State) (c : BitVec 8) (m : Mode) (h : Engine) (ks : KeySize) (dir : Direction)
    (key : Bytes) (fs : BitVec 8) (iv : Option Block) (n : Option (Fin 16)) (st st' : SwState)
    (chunks : List Bytes) (o o' : Bytes),
    SoftwareEquivalent P → hwEngine m = some h → key.length = ks.bytes → selectorOf h dir ks = some fs →
    ((m = .ecb ∧ iv = none ∧ n = none) ∨ (m ≠ .ecb ∧ iv.isSome = true ∧ n = some 0)) →
    HoldsStream s c h dir key fs iv n → ChunksOk m chunks → ChunksOk m [chunks.flatten] →
    chunks.flatten ≠ [] →
    P.swInit m ks dir key iv = some st → swRun P st [chunks.flatten] = some (st', o') →
    runChunks P c dir chunks s = some (t, o) → o = o'
end

