-- ==== Sys2Proof/Laws/State.lean ====
section
/-! SUPPORT. One lemma per field and update of `State` and `Slot`, each true by `rfl`, so that no proof
unfolds a record update. -/

namespace Sys2Proof.Laws

open Sys2Proof.Machine Sys2Proof.Safety

/-! `enter` -/

@[simp] theorem enter_ctx (p : Phase) (s : State) : (s.enter p).ctx = s.ctx := rfl
@[simp] theorem enter_caps (p : Phase) (s : State) : (s.enter p).caps = s.caps := rfl
@[simp] theorem enter_phase (p : Phase) (s : State) : (s.enter p).phase = p := rfl
@[simp] theorem enter_staging (p : Phase) (s : State) : (s.enter p).staging = s.staging := rfl
@[simp] theorem enter_commandPort (p : Phase) (s : State) : (s.enter p).commandPort = s.commandPort := rfl
@[simp] theorem enter_responsePort (p : Phase) (s : State) : (s.enter p).responsePort = s.responsePort := rfl

/-! `stage` -/

@[simp] theorem stage_ctx (g : Staging) (s : State) : (s.stage g).ctx = s.ctx := rfl
@[simp] theorem stage_caps (g : Staging) (s : State) : (s.stage g).caps = s.caps := rfl
@[simp] theorem stage_phase (g : Staging) (s : State) : (s.stage g).phase = s.phase := rfl
@[simp] theorem stage_staging (g : Staging) (s : State) : (s.stage g).staging = g := rfl
@[simp] theorem stage_commandPort (g : Staging) (s : State) : (s.stage g).commandPort = s.commandPort := rfl
@[simp] theorem stage_responsePort (g : Staging) (s : State) : (s.stage g).responsePort = s.responsePort := rfl

/-! `setSlot` -/

@[simp] theorem setSlot_ctx (c : BitVec 8) (x : Slot) (s : State) : (s.setSlot c x).ctx = s.ctx.set c.toNat x := rfl
@[simp] theorem setSlot_caps (c : BitVec 8) (x : Slot) (s : State) : (s.setSlot c x).caps = s.caps := rfl
@[simp] theorem setSlot_phase (c : BitVec 8) (x : Slot) (s : State) : (s.setSlot c x).phase = s.phase := rfl
@[simp] theorem setSlot_staging (c : BitVec 8) (x : Slot) (s : State) : (s.setSlot c x).staging = s.staging := rfl
@[simp] theorem setSlot_commandPort (c : BitVec 8) (x : Slot) (s : State) : (s.setSlot c x).commandPort = s.commandPort := rfl
@[simp] theorem setSlot_responsePort (c : BitVec 8) (x : Slot) (s : State) : (s.setSlot c x).responsePort = s.responsePort := rfl

/-! `finish` -/

@[simp] theorem finish_ctx (r : Response) (s : State) : (finish r s).ctx = s.ctx := rfl
@[simp] theorem finish_caps (r : Response) (s : State) : (finish r s).caps = s.caps := rfl
@[simp] theorem finish_phase (r : Response) (s : State) : (finish r s).phase = Phase.idle := rfl
@[simp] theorem finish_staging (r : Response) (s : State) : (finish r s).staging = Staging.none := rfl
@[simp] theorem finish_commandPort (r : Response) (s : State) : (finish r s).commandPort = s.commandPort := rfl
@[simp] theorem finish_responsePort (r : Response) (s : State) : (finish r s).responsePort = s.responsePort ++ [r] := rfl

/-! `raise` -/

@[simp] theorem raise_ctx (st : Status) (s : State) : (raise st s).ctx = s.ctx := rfl
@[simp] theorem raise_caps (st : Status) (s : State) : (raise st s).caps = s.caps := rfl
@[simp] theorem raise_phase (st : Status) (s : State) : (raise st s).phase = Phase.idle := rfl
@[simp] theorem raise_staging (st : Status) (s : State) : (raise st s).staging = Staging.none := rfl
@[simp] theorem raise_commandPort (st : Status) (s : State) : (raise st s).commandPort = s.commandPort := rfl
@[simp] theorem raise_responsePort (st : Status) (s : State) : (raise st s).responsePort = s.responsePort ++ [⟨statusWord st false, []⟩] := rfl

/-! `respondOk` -/

@[simp] theorem respondOk_ctx (b : Bool) (out : Bytes) (s : State) : (respondOk b out s).ctx = s.ctx := rfl
@[simp] theorem respondOk_caps (b : Bool) (out : Bytes) (s : State) : (respondOk b out s).caps = s.caps := rfl
@[simp] theorem respondOk_phase (b : Bool) (out : Bytes) (s : State) : (respondOk b out s).phase = Phase.idle := rfl
@[simp] theorem respondOk_staging (b : Bool) (out : Bytes) (s : State) : (respondOk b out s).staging = Staging.none := rfl
@[simp] theorem respondOk_commandPort (b : Bool) (out : Bytes) (s : State) : (respondOk b out s).commandPort = s.commandPort := rfl
@[simp] theorem respondOk_responsePort (b : Bool) (out : Bytes) (s : State) : (respondOk b out s).responsePort = s.responsePort ++ [⟨statusWord .ok b, out⟩] := rfl

/-! `commit` -/

@[simp] theorem commit_ctx (c : BitVec 8) (x : Slot) (s : State) : (commit c x s).ctx = s.ctx.set c.toNat (committed s.staging x) := rfl
@[simp] theorem commit_caps (c : BitVec 8) (x : Slot) (s : State) : (commit c x s).caps = s.caps := rfl
@[simp] theorem commit_phase (c : BitVec 8) (x : Slot) (s : State) : (commit c x s).phase = Phase.idle := rfl
@[simp] theorem commit_staging (c : BitVec 8) (x : Slot) (s : State) : (commit c x s).staging = Staging.none := rfl
@[simp] theorem commit_commandPort (c : BitVec 8) (x : Slot) (s : State) : (commit c x s).commandPort = s.commandPort := rfl
@[simp] theorem commit_responsePort (c : BitVec 8) (x : Slot) (s : State) : (commit c x s).responsePort = s.responsePort ++ [⟨statusWord .ok false, s.staging.out⟩] := rfl

/-! `present` -/

@[simp] theorem present_ctx (f : Frame) (s : State) : (present f s).ctx = s.ctx := rfl
@[simp] theorem present_caps (f : Frame) (s : State) : (present f s).caps = s.caps := rfl
@[simp] theorem present_phase (f : Frame) (s : State) : (present f s).phase = s.phase := rfl
@[simp] theorem present_staging (f : Frame) (s : State) : (present f s).staging = s.staging := rfl
@[simp] theorem present_commandPort (f : Frame) (s : State) : (present f s).commandPort = f :: s.commandPort := rfl
@[simp] theorem present_responsePort (f : Frame) (s : State) : (present f s).responsePort = s.responsePort := rfl

/-! `withResponse` -/

@[simp] theorem withResponse_ctx (st : Word) (out : Bytes) (s : State) : (withResponse s st out).ctx = s.ctx := rfl
@[simp] theorem withResponse_caps (st : Word) (out : Bytes) (s : State) : (withResponse s st out).caps = s.caps := rfl
@[simp] theorem withResponse_phase (st : Word) (out : Bytes) (s : State) : (withResponse s st out).phase = s.phase := rfl
@[simp] theorem withResponse_staging (st : Word) (out : Bytes) (s : State) : (withResponse s st out).staging = s.staging := rfl
@[simp] theorem withResponse_commandPort (st : Word) (out : Bytes) (s : State) : (withResponse s st out).commandPort = s.commandPort := rfl
@[simp] theorem withResponse_responsePort (st : Word) (out : Bytes) (s : State) : (withResponse s st out).responsePort = s.responsePort ++ [⟨st, out⟩] := rfl

/-! `committed` -/

@[simp] theorem committed_state (g : Staging) (x : Slot) : (committed g x).state = x.state := rfl
@[simp] theorem committed_engine (g : Staging) (x : Slot) : (committed g x).engine = x.engine := rfl
@[simp] theorem committed_keyMaterial (g : Staging) (x : Slot) : (committed g x).keyMaterial = x.keyMaterial := rfl
@[simp] theorem committed_direction (g : Staging) (x : Slot) : (committed g x).direction = x.direction := rfl
@[simp] theorem committed_functionSelector (g : Staging) (x : Slot) : (committed g x).functionSelector = x.functionSelector := rfl
@[simp] theorem committed_feedbackRegister (g : Staging) (x : Slot) : (committed g x).feedbackRegister = g.cv.or x.feedbackRegister := rfl
@[simp] theorem committed_residualOffset (g : Staging) (x : Slot) : (committed g x).residualOffset = g.n.or x.residualOffset := rfl
@[simp] theorem committed_swState (g : Staging) (x : Slot) : (committed g x).swState = g.sw.or x.swState := rfl

/-! Slots written whole -/

@[simp] theorem cleared_state : Slot.cleared.state = SlotState.empty := rfl
@[simp] theorem cleared_engine : Slot.cleared.engine = none := rfl
@[simp] theorem cleared_keyMaterial : Slot.cleared.keyMaterial = none := rfl
@[simp] theorem cleared_direction : Slot.cleared.direction = none := rfl
@[simp] theorem cleared_functionSelector : Slot.cleared.functionSelector = none := rfl
@[simp] theorem cleared_feedbackRegister : Slot.cleared.feedbackRegister = none := rfl
@[simp] theorem cleared_residualOffset : Slot.cleared.residualOffset = none := rfl
@[simp] theorem cleared_swState : Slot.cleared.swState = none := rfl

@[simp] theorem hwSlot_state (h : Engine) (dir : Direction) (key : Bytes) (fs : BitVec 8) (cv : Option Block) (n : Option (Fin 16)) :
    (hwSlot h dir key fs cv n).state = SlotState.ready := rfl
@[simp] theorem hwSlot_engine (h : Engine) (dir : Direction) (key : Bytes) (fs : BitVec 8) (cv : Option Block) (n : Option (Fin 16)) :
    (hwSlot h dir key fs cv n).engine = some h := rfl
@[simp] theorem hwSlot_keyMaterial (h : Engine) (dir : Direction) (key : Bytes) (fs : BitVec 8) (cv : Option Block) (n : Option (Fin 16)) :
    (hwSlot h dir key fs cv n).keyMaterial = some key := rfl
@[simp] theorem hwSlot_direction (h : Engine) (dir : Direction) (key : Bytes) (fs : BitVec 8) (cv : Option Block) (n : Option (Fin 16)) :
    (hwSlot h dir key fs cv n).direction = some dir := rfl
@[simp] theorem hwSlot_functionSelector (h : Engine) (dir : Direction) (key : Bytes) (fs : BitVec 8) (cv : Option Block) (n : Option (Fin 16)) :
    (hwSlot h dir key fs cv n).functionSelector = some fs := rfl
@[simp] theorem hwSlot_feedbackRegister (h : Engine) (dir : Direction) (key : Bytes) (fs : BitVec 8) (cv : Option Block) (n : Option (Fin 16)) :
    (hwSlot h dir key fs cv n).feedbackRegister = cv := rfl
@[simp] theorem hwSlot_residualOffset (h : Engine) (dir : Direction) (key : Bytes) (fs : BitVec 8) (cv : Option Block) (n : Option (Fin 16)) :
    (hwSlot h dir key fs cv n).residualOffset = n := rfl
@[simp] theorem hwSlot_swState (h : Engine) (dir : Direction) (key : Bytes) (fs : BitVec 8) (cv : Option Block) (n : Option (Fin 16)) :
    (hwSlot h dir key fs cv n).swState = none := rfl

@[simp] theorem swSlot_state (m : Mode) (dir : Direction) (key : Bytes) (st : SwState) :
    (swSlot m dir key st).state = SlotState.ready := rfl
@[simp] theorem swSlot_engine (m : Mode) (dir : Direction) (key : Bytes) (st : SwState) :
    (swSlot m dir key st).engine = some (.sw m) := rfl
@[simp] theorem swSlot_keyMaterial (m : Mode) (dir : Direction) (key : Bytes) (st : SwState) :
    (swSlot m dir key st).keyMaterial = some key := rfl
@[simp] theorem swSlot_direction (m : Mode) (dir : Direction) (key : Bytes) (st : SwState) :
    (swSlot m dir key st).direction = some dir := rfl
@[simp] theorem swSlot_functionSelector (m : Mode) (dir : Direction) (key : Bytes) (st : SwState) :
    (swSlot m dir key st).functionSelector = none := rfl
@[simp] theorem swSlot_feedbackRegister (m : Mode) (dir : Direction) (key : Bytes) (st : SwState) :
    (swSlot m dir key st).feedbackRegister = none := rfl
@[simp] theorem swSlot_residualOffset (m : Mode) (dir : Direction) (key : Bytes) (st : SwState) :
    (swSlot m dir key st).residualOffset = none := rfl
@[simp] theorem swSlot_swState (m : Mode) (dir : Direction) (key : Bytes) (st : SwState) :
    (swSlot m dir key st).swState = some st := rfl

/-! Staging -/

@[simp] theorem stagingNone_cv : Staging.none.cv = none := rfl
@[simp] theorem stagingNone_n : Staging.none.n = none := rfl
@[simp] theorem stagingNone_sw : Staging.none.sw = none := rfl
@[simp] theorem stagingNone_out : Staging.none.out = [] := rfl
@[simp] theorem stagingOf_cv (w : Carousel) : (stagingOf w).cv = some w.cv := rfl
@[simp] theorem stagingOf_n (w : Carousel) : (stagingOf w).n = some w.n := rfl
@[simp] theorem stagingOf_sw (w : Carousel) : (stagingOf w).sw = none := rfl
@[simp] theorem stagingOf_out (w : Carousel) : (stagingOf w).out = w.out := rfl

/-! The slot a command names -/

@[simp] theorem enter_slot (p : Phase) (s : State) (c : BitVec 8) : (s.enter p).slot? c = s.slot? c := rfl
@[simp] theorem stage_slot (g : Staging) (s : State) (c : BitVec 8) : (s.stage g).slot? c = s.slot? c := rfl
@[simp] theorem raise_slot (st : Status) (s : State) (c : BitVec 8) : (raise st s).slot? c = s.slot? c := rfl
@[simp] theorem respondOk_slot (b : Bool) (out : Bytes) (s : State) (c : BitVec 8) :
    (respondOk b out s).slot? c = s.slot? c := rfl
@[simp] theorem present_slot (f : Frame) (s : State) (c : BitVec 8) : (present f s).slot? c = s.slot? c := rfl
@[simp] theorem withResponse_slot (s : State) (st : Word) (out : Bytes) (c : BitVec 8) :
    (withResponse s st out).slot? c = s.slot? c := rfl

/-- A slot is there exactly when its number is below `NCTX` (R106). -/
theorem slot_isSome_iff (s : State) (c : BitVec 8) : (s.slot? c).isSome = true ↔ c.toNat < s.ctx.length := by
  simp [State.slot?]

theorem slot_eq_none_iff (s : State) (c : BitVec 8) : s.slot? c = none ↔ s.ctx.length ≤ c.toNat := by
  simp [State.slot?]

/-- A slot that is there is in the file. -/
theorem slot_mem {s : State} {c : BitVec 8} {x : Slot} (h : s.slot? c = some x) : x ∈ s.ctx :=
  List.mem_of_getElem? h

/-- Reading back the slot just written. -/
theorem setSlot_slot_self {s : State} {c : BitVec 8} {x y : Slot} (h : s.slot? c = some y) :
    (s.setSlot c x).slot? c = some x := by
  have hc : c.toNat < s.ctx.length := by
    have := (slot_isSome_iff s c).mp (by simp [h])
    exact this
  simp [State.slot?, hc]

/-- Writing one slot leaves every other slot as it was (R21). -/
theorem setSlot_slot_other {s : State} {c d : BitVec 8} {x : Slot} (h : d ≠ c) :
    (s.setSlot c x).slot? d = s.slot? d := by
  have hn : c.toNat ≠ d.toNat := fun e => h (BitVec.eq_of_toNat_eq e.symm)
  simp [State.slot?, List.getElem?_set_ne hn]

/-- Writing a slot keeps the number of slots (R21). -/
theorem setSlot_length (s : State) (c : BitVec 8) (x : Slot) :
    (s.setSlot c x).ctx.length = s.ctx.length := by
  simp

/-- `commit` writes the slot it names. -/
theorem commit_slot_self {s : State} {c : BitVec 8} {x y : Slot} (h : s.slot? c = some y) :
    (commit c x s).slot? c = some (committed s.staging x) :=
  setSlot_slot_self (s := s) (x := committed s.staging x) h

/-- `commit` leaves every other slot as it was (R155). -/
theorem commit_slot_other {s : State} {c d : BitVec 8} {x : Slot} (h : d ≠ c) :
    (commit c x s).slot? d = s.slot? d :=
  setSlot_slot_other (s := s) (x := committed s.staging x) h

end Sys2Proof.Laws
end

