-- ==== Sys2Proof/Laws/Bytes.lean ====
section
/-! SUPPORT. Byte strings and blocks: length and content of the passages between them. -/

namespace Sys2Proof.Laws

open Sys2Proof.Machine

/-- A block has 16 bytes (R7). -/
@[simp] theorem block_length (v : Block) : v.toList.length = 16 := by simp

/-- A block made of 16 bytes holds exactly them (R63). -/
theorem toList_blockOfBytes {b : Bytes} (h : b.length = 16) : (blockOfBytes b).toList = b := by
  simp [blockOfBytes, h, List.take_of_length_le (Nat.le_of_eq h)]

@[simp] theorem blockOfBytes_toList (v : Block) : blockOfBytes v.toList = v := by
  apply Vector.toList_inj.mp
  exact toList_blockOfBytes (block_length v)

/-- `blockOfBytes?` answers exactly on the 16 bytes of a block. -/
theorem blockOfBytes?_eq_some {b : Bytes} {v : Block} : blockOfBytes? b = some v ↔ b = v.toList := by
  unfold blockOfBytes?
  constructor
  · intro h
    split at h
    · cases h; exact (toList_blockOfBytes ‹_›).symm
    · cases h
  · rintro rfl; simp

/-- Exclusive or keeps the shorter length. -/
@[simp] theorem xorBytes_length (a b : Bytes) : (xorBytes a b).length = min a.length b.length := by
  simp [xorBytes]

/-- A longer second string counts for no more than its first bytes (log 15). -/
theorem xorBytes_take (a b : Bytes) : xorBytes a (b.take a.length) = xorBytes a b := by
  induction a generalizing b with
  | nil => simp [xorBytes]
  | cons x xs ih =>
    cases b with
    | nil => rfl
    | cons y ys => simpa [xorBytes] using ih ys

/-- Exclusive or of two equally long strings, the same key stream twice, gives the string back. -/
theorem xorBytes_cancel {a k : Bytes} (h : a.length ≤ k.length) : xorBytes (xorBytes a k) k = a := by
  induction a generalizing k with
  | nil => simp [xorBytes]
  | cons x xs ih =>
    cases k with
    | nil => simp at h
    | cons y ys =>
      simp only [xorBytes, List.zipWith_cons_cons, List.cons.injEq] at ih ⊢
      exact ⟨by simp, ih (by simpa using h)⟩

@[simp] theorem memRead_zero_length (d : Bytes) : memRead d 0 d.length = d := by simp [memRead]

end Sys2Proof.Laws
end

