-- ==== Sys2Proof/Laws/Prim.lean ====
section
/-! SUPPORT. The primitive port: what a successful invoke says, and the sizes of what it returns. -/

namespace Sys2Proof.Laws

open Sys2Proof.Machine

/-- Everything a successful invoke can be (R68, R73, R74). -/
theorem prim_eq_some {P : Platform} {fs : BitVec 8} {key data : Bytes} {cv : Option Block}
    {r : PrimResult} (h : prim P fs key data cv = some r) :
    ∃ kind, primKind fs cv = some kind ∧ fsKeyBytes fs = some key.length ∧
      primLengthOk kind data = true ∧ P.primFails fs key data cv = false ∧
      r = primCompute P kind fs key data cv := by
  unfold prim at h
  split at h
  · cases h
  · rename_i kind hk
    split at h
    · rename_i hc
      exact ⟨kind, hk, hc.1, hc.2.1, hc.2.2, (Option.some.inj h).symm⟩
    · cases h

/-- When an invoke succeeds (R74). -/
theorem prim_of_ok {P : Platform} {fs : BitVec 8} {key data : Bytes} {cv : Option Block} {kind : PrimKind}
    (hk : primKind fs cv = some kind) (hl : fsKeyBytes fs = some key.length)
    (hd : primLengthOk kind data = true) (hf : P.primFails fs key data cv = false) :
    prim P fs key data cv = some (primCompute P kind fs key data cv) := by
  simp [prim, hk, hl, hd, hf]

/-- BLOCK returns as many bytes as whole blocks went in (R69). -/
theorem blockKind_length (f : Block → Block) (m : Nat) (d : Bytes) : (blockKind f m d).length = 16 * m := by
  induction m generalizing d with
  | zero => rfl
  | succ m ih => simp [blockKind, ih]; omega

/-- BLOCK over one block (R69). -/
theorem blockKind_one (f : Block → Block) (v : Block) : blockKind f 1 v.toList = (f v).toList := by
  simp [blockKind, List.take_of_length_le (Nat.le_of_eq (block_length v))]

/-- OFB returns as many bytes as whole blocks went in (R70). -/
theorem ofbKind_length (e : Block → Block) (m : Nat) (v : Block) (d : Bytes) (h : d.length = 16 * m) :
    (ofbKind e m v d).1.length = 16 * m := by
  induction m generalizing v d with
  | zero => rfl
  | succ m ih =>
    simp only [ofbKind, List.length_append, xorBytes_length, List.length_take, block_length]
    rw [ih _ _ (by simp; omega)]; omega

/-- CFB128 returns as many bytes as whole blocks went in (R71). -/
theorem cfb128Kind_length (e : Block → Block) (dec : Bool) (m : Nat) (v : Block) (d : Bytes)
    (h : d.length = 16 * m) : (cfb128Kind e dec m v d).1.length = 16 * m := by
  induction m generalizing v d with
  | zero => rfl
  | succ m ih =>
    simp only [cfb128Kind, List.length_append, xorBytes_length, List.length_take, block_length]
    rw [ih _ _ (by simp; omega)]; omega

/-- CFB8 returns as many bytes as went in (R72). -/
theorem cfb8Kind_length (e : Block → Block) (dec : Bool) (v : Block) (d : Bytes) :
    (cfb8Kind e dec v d).1.length = d.length := by
  induction d generalizing v with
  | nil => rfl
  | cons b bs ih => simp [cfb8Kind, ih]

/-! Kinds of the selectors of R113 -/

@[simp] theorem fsKs_fsPack (k : BitVec 2) (d : Bool) (w : BitVec 5) : fsKs (fsPack k d w) = k := by
  revert k d w; decide

@[simp] theorem fsDec_fsPack (k : BitVec 2) (d : Bool) (w : BitVec 5) : fsDec (fsPack k d w) = d := by
  revert k d w; decide

@[simp] theorem fsFbw_fsPack (k : BitVec 2) (d : Bool) (w : BitVec 5) : fsFbw (fsPack k d w) = w := by
  revert k d w; decide

theorem fsGen_fsPack (k : BitVec 2) (d : Bool) (w : BitVec 5) :
    fsGen (fsPack k d w) = fsPack k false fbwNone := by
  revert k d w; decide

@[simp] theorem ksOfCode_ksCode (k : KeySize) : ksOfCode (ksCode k) = some k := by
  cases k <;> rfl

@[simp] theorem fsKeyBytes_fsPack (k : KeySize) (d : Bool) (w : BitVec 5) :
    fsKeyBytes (fsPack (ksCode k) d w) = some k.bytes := by
  simp [fsKeyBytes]

/-- The rows of R68's table that have a kind; every other combination is reserved. -/
theorem primKind_isSome (fs : BitVec 8) (cv : Option Block) :
    (primKind fs cv).isSome = true ↔
      (cv = none ∧ fsFbw fs = 0) ∨
        (cv.isSome = true ∧ ((fsFbw fs = 0 ∧ fsDec fs = false) ∨ fsFbw fs = 16 ∨ fsFbw fs = 1)) := by
  generalize hw : fsFbw fs = w
  generalize hd : fsDec fs = d
  cases cv <;> simp only [primKind, hw, hd] <;> clear hw hd <;> revert w d <;> simp <;> decide

/-- The selector of ECB and of the tail phases with no chaining vector is kind BLOCK (R68). -/
@[simp] theorem primKind_block (k : BitVec 2) (d : Bool) :
    primKind (fsPack k d fbwNone) none = some .block := by
  simp [primKind]

/-- The OFB selector with a chaining vector is kind OFB (R68). -/
@[simp] theorem primKind_ofb (k : BitVec 2) (v : Block) :
    primKind (fsPack k false fbwNone) (some v) = some .ofb := by
  simp [primKind]

/-- The CFB-128 selector with a chaining vector is kind CFB128 (R68). -/
@[simp] theorem primKind_cfb128 (k : BitVec 2) (d : Bool) (v : Block) :
    primKind (fsPack k d fbwBlock) (some v) = some .cfb128 := by
  simp [primKind, fbwBlock, fbwNone]

/-- The CFB-8 selector with a chaining vector is kind CFB8 (R68). -/
@[simp] theorem primKind_cfb8 (k : BitVec 2) (d : Bool) (v : Block) :
    primKind (fsPack k d fbwByte) (some v) = some .cfb8 := by
  simp [primKind, fbwByte, fbwBlock, fbwNone]

end Sys2Proof.Laws
end

