-- ==== Sys2Proof/Laws/Carousel.lean ====
section
/-! SUPPORT. The byte step, the segments of a block it runs through, and the three phases of OFB and CFB-128
(43_ofb.md R176, 44_cfb128.md R196), each said once against the byte-at-a-time reference (48_stream_laws.md
R253, R256). -/

namespace Sys2Proof.Laws

open Sys2Proof.Machine Sys2Proof.Safety

/-! ### The reference -/

@[simp] theorem refRun_nil (e : Block → Block) (mux : FeedbackMux) (cv : Block) (n : Fin 16) :
    refRun e mux [] cv n = ([], cv, n) := rfl

/-- The reference over a concatenation is the reference over the parts in turn. -/
theorem refRun_append (e : Block → Block) (mux : FeedbackMux) (a b : Bytes) (cv : Block) (n : Fin 16) :
    refRun e mux (a ++ b) cv n =
      ((refRun e mux a cv n).1 ++ (refRun e mux b (refRun e mux a cv n).2.1 (refRun e mux a cv n).2.2).1,
        (refRun e mux b (refRun e mux a cv n).2.1 (refRun e mux a cv n).2.2).2) := by
  induction a generalizing cv n with
  | nil => rfl
  | cons x xs ih => simp [refRun, ih]

/-- The reference outputs one byte per byte. -/
@[simp] theorem refRun_length (e : Block → Block) (mux : FeedbackMux) (d : Bytes) (cv : Block) (n : Fin 16) :
    (refRun e mux d cv n).1.length = d.length := by
  induction d generalizing cv n with
  | nil => rfl
  | cons x xs ih => simp [refRun, ih]

/-- The reference's offset counts bytes modulo 16 (R183 (i)). -/
theorem refRun_offset (e : Block → Block) (mux : FeedbackMux) (d : Bytes) (cv : Block) (n : Fin 16) :
    (refRun e mux d cv n).2.2.val = (n.val + d.length) % 16 := by
  induction d generalizing cv n with
  | nil => simp [Nat.mod_eq_of_lt n.isLt]
  | cons x xs ih =>
    simp only [refRun, refStep, ih, List.length_cons, Fin.val_add]
    have : ((1 : Fin 16) : Nat) = 1 := rfl
    omega

/-! ### One byte -/

/-- A byte step inside a block is a reference step (R253). -/
theorem byteStep_eq_refStep (e : Block → Block) (mux : FeedbackMux) (b : Byte) (w : Carousel)
    (h : w.n ≠ 0) :
    byteStep mux b w =
      ⟨(refStep e mux b w.cv w.n).2.1, (refStep e mux b w.cv w.n).2.2,
        w.out ++ [(refStep e mux b w.cv w.n).1]⟩ := by
  simp [byteStep, refStep, h, BitVec.xor_comm]

/-- The first byte step of a fresh block is a reference step from the block it was made of (R256). -/
theorem byteStep_fresh (e : Block → Block) (mux : FeedbackMux) (b : Byte) (cv : Block) (out : Bytes) :
    byteStep mux b ⟨e cv, 0, out⟩ =
      ⟨(refStep e mux b cv 0).2.1, (refStep e mux b cv 0).2.2, out ++ [(refStep e mux b cv 0).1]⟩ := by
  simp [byteStep, refStep, BitVec.xor_comm]

/-! ### The drain -/

/-- Everything the drain does (R178, R197): it consumes a prefix, as the reference would, and stops when the
input ends or the offset is 0. -/
theorem drainPhase_spec (e : Block → Block) (mux : FeedbackMux) (d : Bytes) (w : Carousel) :
    ∃ pre, d = pre ++ (drainPhase mux d w).2 ∧
      (drainPhase mux d w).1 =
        ⟨(refRun e mux pre w.cv w.n).2.1, (refRun e mux pre w.cv w.n).2.2,
          w.out ++ (refRun e mux pre w.cv w.n).1⟩ ∧
      ((drainPhase mux d w).2 = [] ∨ (drainPhase mux d w).1.n = 0) := by
  induction d generalizing w with
  | nil => exact ⟨[], by simp [drainPhase]⟩
  | cons b bs ih =>
    by_cases h : w.n = 0
    · exact ⟨[], by obtain ⟨cv, n, out⟩ := w; simp_all [drainPhase]⟩
    · obtain ⟨pre, h1, h2, h3⟩ := ih (byteStep mux b w)
      refine ⟨b :: pre, ?_, ?_, ?_⟩
      · simp only [drainPhase, h, if_false, List.cons_append]; rw [← h1]
      · simp only [drainPhase, h, if_false]; rw [h2, byteStep_eq_refStep e mux b w h]; simp [refRun]
      · simpa only [drainPhase, h, if_false] using h3

/-- The drain, exactly (R178, R197): it consumes `drained` bytes (R182) as the reference would. -/
theorem drainPhase_exact (e : Block → Block) (mux : FeedbackMux) (d : Bytes) (w : Carousel) :
    drainPhase mux d w =
      (⟨(refRun e mux (d.take (drainedOf w.n d.length)) w.cv w.n).2.1,
        (refRun e mux (d.take (drainedOf w.n d.length)) w.cv w.n).2.2,
        w.out ++ (refRun e mux (d.take (drainedOf w.n d.length)) w.cv w.n).1⟩,
        d.drop (drainedOf w.n d.length)) := by
  induction d generalizing w with
  | nil => simp [drainPhase, drainedOf]
  | cons b bs ih =>
    by_cases h : w.n = 0
    · obtain ⟨cv, n, out⟩ := w
      simp only at h
      subst h
      simp [drainPhase, drainedOf]
    · have hv : w.n.val ≠ 0 := fun h' => h (Fin.ext h')
      have hlt := w.n.isLt
      have hv1 : (w.n + 1).val = (w.n.val + 1) % 16 := by rw [Fin.val_add]; rfl
      have hk : drainedOf w.n (b :: bs).length = drainedOf (w.n + 1) bs.length + 1 := by
        unfold drainedOf
        rw [hv1]
        simp only [List.length_cons]
        omega
      have hn : (refStep e mux b w.cv w.n).2.2 = w.n + 1 := rfl
      rw [hk]
      simp only [drainPhase, h, if_false, List.take_succ_cons, List.drop_succ_cons]
      rw [ih, byteStep_eq_refStep e mux b w h]
      simp [refRun, hn]

/-! ### A run inside one block -/

/-- The byte loop inside a block, from an offset that is not 0, is the reference. -/
theorem tailBytes_eq_refRun (e : Block → Block) (mux : FeedbackMux) (d : Bytes) (w : Carousel)
    (hn : w.n ≠ 0) (hd : w.n.val + d.length ≤ 16) :
    tailBytes mux d w =
      ⟨(refRun e mux d w.cv w.n).2.1, (refRun e mux d w.cv w.n).2.2, w.out ++ (refRun e mux d w.cv w.n).1⟩ := by
  induction d generalizing w with
  | nil => simp [tailBytes]
  | cons b bs ih =>
    have hstep : tailBytes mux (b :: bs) w = tailBytes mux bs (byteStep mux b w) := rfl
    have hnext : (byteStep mux b w).n = w.n + 1 := rfl
    rw [hstep]
    rcases bs with _ | ⟨b', bs'⟩
    · rw [byteStep_eq_refStep e mux b w hn]; simp [tailBytes, refRun]
    · have hlt : w.n.val + 1 < 16 := by simp at hd; omega
      have hv : (w.n + 1).val = w.n.val + 1 := by
        rw [Fin.val_add]; exact Nat.mod_eq_of_lt hlt
      rw [ih (byteStep mux b w) (by rw [hnext]; intro h; rw [h] at hv; simp at hv)
        (by rw [hnext, hv]; simp at hd ⊢; omega), byteStep_eq_refStep e mux b w hn]
      simp [refRun]

/-- The byte loop over a fresh block is the reference from the block it was made of (R256 (3)). -/
theorem tailBytes_fresh (e : Block → Block) (mux : FeedbackMux) (d : Bytes) (cv : Block) (out : Bytes)
    (hd : d.length ≤ 16) (hne : d ≠ []) :
    tailBytes mux d ⟨e cv, 0, out⟩ =
      ⟨(refRun e mux d cv 0).2.1, (refRun e mux d cv 0).2.2, out ++ (refRun e mux d cv 0).1⟩ := by
  rcases d with _ | ⟨b, bs⟩
  · exact absurd rfl hne
  · have hstep : tailBytes mux (b :: bs) ⟨e cv, 0, out⟩ = tailBytes mux bs (byteStep mux b ⟨e cv, 0, out⟩) := rfl
    rw [hstep, byteStep_fresh e]
    rcases bs with _ | ⟨b', bs'⟩
    · simp [tailBytes, refRun]
    · rw [tailBytes_eq_refRun e _ _ _ (by simp [refStep]) (by simp [refStep] at hd ⊢; omega)]
      simp [refRun]

/-- What a run inside one block leaves in the register and in the output (R178, R197): the bytes before the
offset stay, those it passed hold what the mux selects, those after it are still key stream. -/
theorem tailBytes_closed (mux : FeedbackMux) (d : Bytes) (w : Carousel) (hd : w.n.val + d.length ≤ 16) :
    (tailBytes mux d w).out = w.out ++ xorBytes (w.cv.toList.drop w.n) d ∧
    (tailBytes mux d w).cv.toList =
      w.cv.toList.take w.n ++ List.zipWith (fun r b => muxPick mux r b (r ^^^ b)) (w.cv.toList.drop w.n) d ++
        w.cv.toList.drop (w.n + d.length) := by
  induction d generalizing w with
  | nil => simp [tailBytes, xorBytes]
  | cons b bs ih =>
    have hstep : tailBytes mux (b :: bs) w = tailBytes mux bs (byteStep mux b w) := rfl
    have hn : w.n.val < 16 := w.n.isLt
    have hdrop : w.cv.toList.drop w.n = w.cv[w.n] :: w.cv.toList.drop (w.n + 1) := by
      rw [List.drop_eq_getElem_cons (by simp)]
      simp
    rw [hstep]
    have hset : (byteStep mux b w).cv.toList =
        w.cv.toList.set w.n (muxPick mux w.cv[w.n] b (w.cv[w.n] ^^^ b)) := by
      simp [byteStep, Vector.toList_set]
    rcases bs with _ | ⟨b', bs'⟩
    · constructor
      · rw [hdrop]; simp [tailBytes, byteStep, xorBytes]
      · show (byteStep mux b w).cv.toList = _
        rw [hset, hdrop, List.set_eq_take_append_cons_drop]
        simp
    · have hlt : w.n.val + 1 < 16 := by simp at hd; omega
      have hv : (byteStep mux b w).n.val = w.n.val + 1 := by
        show (w.n + 1).val = _
        rw [Fin.val_add]; exact Nat.mod_eq_of_lt hlt
      have key := ih (byteStep mux b w) (by rw [hv]; simp at hd ⊢; omega)
      rw [hv, hset] at key
      obtain ⟨k1, k2⟩ := key
      constructor
      · rw [k1, hdrop, List.drop_set_of_lt (by omega)]
        simp [byteStep, xorBytes]
      · rw [k2, hdrop, List.drop_set_of_lt (by omega), List.drop_set_of_lt (by omega),
          List.take_set, List.set_eq_take_append_cons_drop]
        simp [List.take_take, Nat.add_assoc, Nat.add_comm 1]

/-! ### Whole blocks -/

/-- The reference over one whole block, entered at offset 0 (R256 (2)). -/
theorem refRun_block (e : Block → Block) (mux : FeedbackMux) (d : Bytes) (v : Block) (hd : d.length = 16) :
    refRun e mux d v 0 =
      (xorBytes d (e v).toList,
        blockOfBytes (List.zipWith (fun r b => muxPick mux r b (r ^^^ b)) (e v).toList d), 0) := by
  have hne : d ≠ [] := by rintro rfl; simp at hd
  have hf := tailBytes_fresh e mux d v [] (by omega) hne
  obtain ⟨h1, h2⟩ := tailBytes_closed mux d ⟨e v, 0, []⟩ (by simp [hd])
  have hoff := refRun_offset e mux d v 0
  rw [hf] at h1 h2
  simp only [Fin.val_zero, List.drop_zero, List.nil_append, List.take_zero, Nat.zero_add] at h1 h2
  have hdrop : (e v).toList.drop d.length = [] := by simp [hd]
  rw [hdrop, List.append_nil] at h2
  refine Prod.ext ?_ (Prod.ext ?_ ?_)
  · simp only [h1, xorBytes]
    rw [List.zipWith_comm]
    congr 1
    funext a b
    exact BitVec.xor_comm _ _
  · simp only [← h2]; simp
  · apply Fin.ext
    simp [hoff, hd]

theorem zipWith_keep (a b : Bytes) (h : a.length = b.length) :
    List.zipWith (fun r b => muxPick .keep r b (r ^^^ b)) a b = a := by
  induction a generalizing b with
  | nil => rfl
  | cons x xs ih =>
    cases b with
    | nil => simp at h
    | cons y ys => simp [muxPick] at ih ⊢; exact ih ys (by simpa using h)

theorem zipWith_output (a b : Bytes) :
    List.zipWith (fun r b => muxPick .output r b (r ^^^ b)) a b = xorBytes b a := by
  simp only [muxPick, xorBytes]
  rw [List.zipWith_comm]
  congr 1
  funext a b
  exact BitVec.xor_comm _ _

theorem zipWith_input (a b : Bytes) (h : a.length = b.length) :
    List.zipWith (fun r b => muxPick .input r b (r ^^^ b)) a b = b := by
  induction a generalizing b with
  | nil => rw [List.length_eq_zero_iff.mp h.symm]; rfl
  | cons x xs ih =>
    cases b with
    | nil => simp at h
    | cons y ys => simp [muxPick] at ih ⊢; exact ih ys (by simpa using h)

/-- One OFB invoke over `m` blocks is the reference over their bytes (R256 (2)). -/
theorem ofbKind_eq_refRun (e : Block → Block) (m : Nat) (v : Block) (d : Bytes) (h : d.length = 16 * m) :
    refRun e .keep d v 0 = ((ofbKind e m v d).1, (ofbKind e m v d).2, 0) := by
  induction m generalizing v d with
  | zero => simp at h; subst h; rfl
  | succ m ih =>
    have hb : (d.take 16).length = 16 := by simp; omega
    have hk := zipWith_keep (e v).toList (d.take 16) (by rw [hb]; simp)
    have hr : refRun e .keep d v 0 = refRun e .keep (d.take 16 ++ d.drop 16) v 0 := by
      rw [List.take_append_drop]
    rw [hr, refRun_append, refRun_block e .keep _ v hb, hk]
    simp [ih (e v) (d.drop 16) (by simp; omega), ofbKind]

/-- One CFB128 invoke over `m` blocks is the reference over their bytes (R256 (2)). -/
theorem cfb128Kind_eq_refRun (e : Block → Block) (dir : Direction) (m : Nat) (v : Block) (d : Bytes)
    (h : d.length = 16 * m) :
    refRun e (cfbMux dir) d v 0 =
      ((cfb128Kind e (dirBit dir) m v d).1, (cfb128Kind e (dirBit dir) m v d).2, 0) := by
  induction m generalizing v d with
  | zero => simp at h; subst h; rfl
  | succ m ih =>
    have hb : (d.take 16).length = 16 := by simp; omega
    have hk : List.zipWith (fun r b => muxPick (cfbMux dir) r b (r ^^^ b)) (e v).toList (d.take 16) =
        if dirBit dir then d.take 16 else xorBytes (d.take 16) (e v).toList := by
      cases dir
      · exact zipWith_output _ _
      · exact zipWith_input _ _ (by rw [hb]; simp)
    have hr : refRun e (cfbMux dir) d v 0 = refRun e (cfbMux dir) (d.take 16 ++ d.drop 16) v 0 := by
      rw [List.take_append_drop]
    rw [hr, refRun_append, refRun_block e _ _ v hb, hk]
    simp [ih _ (d.drop 16) (by simp; omega), cfb128Kind]

/-! ### The phases -/

/-- A selector and a mux that belong together: OFB keeps the register, CFB-128 feeds the ciphertext back in
the direction its selector carries (R113, R195). -/
def Paired (fs : BitVec 8) (mux : FeedbackMux) : Prop :=
  (mux = .keep ∧ ∀ v, primKind fs (some v) = some .ofb) ∨
    ∃ dir, mux = cfbMux dir ∧ fsDec fs = dirBit dir ∧ ∀ v, primKind fs (some v) = some .cfb128

theorem paired_ofb (k : BitVec 2) : Paired (fsPack k false fbwNone) .keep :=
  .inl ⟨rfl, fun v => primKind_ofb k v⟩

theorem paired_cfb128 (k : BitVec 2) (dir : Direction) :
    Paired (fsPack k (dirBit dir) fbwBlock) (cfbMux dir) :=
  .inr ⟨dir, rfl, by simp, fun v => primKind_cfb128 k _ v⟩

theorem bulkLen_le (rest : Bytes) : bulkLen rest ≤ rest.length := Nat.sub_le _ _

theorem bulkLen_mod (rest : Bytes) : bulkLen rest % 16 = 0 := by
  unfold bulkLen; omega

/-- Everything a bulk phase that does not fail does (R179, R198): the reference over the bulk region. -/
theorem bulkPhase_spec {P : Platform} {fs : BitVec 8} {key rest : Bytes} {w w' : Carousel}
    {mux : FeedbackMux} (hp : Paired fs mux) (hn : rest = [] ∨ w.n = 0)
    (h : bulkPhase P fs key rest w = some w') :
    w' = ⟨(refRun (P.blockE key) mux (rest.take (bulkLen rest)) w.cv w.n).2.1,
          (refRun (P.blockE key) mux (rest.take (bulkLen rest)) w.cv w.n).2.2,
          w.out ++ (refRun (P.blockE key) mux (rest.take (bulkLen rest)) w.cv w.n).1⟩ := by
  unfold bulkPhase at h
  split at h
  · rename_i h0
    cases h; simp [h0]
  · rename_i h0
    have hn0 : w.n = 0 := by
      rcases hn with rfl | hn
      · exact absurd rfl h0
      · exact hn
    have hlen : (rest.take (bulkLen rest)).length = 16 * (bulkLen rest / 16) := by
      have := bulkLen_mod rest
      have := bulkLen_le rest
      simp; omega
    have hdiv : (rest.take (bulkLen rest)).length / 16 = bulkLen rest / 16 := by rw [hlen]; omega
    split at h
    · cases h
    · rename_i r hr
      cases h
      obtain ⟨kind, hk, -, -, -, rfl⟩ := prim_eq_some hr
      rw [hn0]
      rcases hp with ⟨rfl, ho⟩ | ⟨dir, rfl, hdec, hc⟩
      · rw [ho] at hk; cases hk
        simp [memRead, primCompute, hdiv, -List.length_take, ofbKind_eq_refRun _ _ _ _ hlen]
      · rw [hc] at hk; cases hk
        simp [memRead, primCompute, hdiv, hdec, -List.length_take, cfb128Kind_eq_refRun _ dir _ _ _ hlen]

@[simp] theorem fsDec_fsGen (fs : BitVec 8) : fsDec (fsGen fs) = false := by revert fs; decide

theorem primKind_fsGen (fs : BitVec 8) : primKind (fsGen fs) none = some .block := by
  revert fs; decide

@[simp] theorem fsKeyBytes_fsGen (fs : BitVec 8) : fsKeyBytes (fsGen fs) = fsKeyBytes fs := by
  revert fs; decide

/-- Everything a tail phase that does not fail does (R180, R199): the reference over the bytes left. -/
theorem tailPhase_spec {P : Platform} {fs : BitVec 8} {key left : Bytes} {w w' : Carousel}
    {mux : FeedbackMux} (hl : left.length < 16) (hn : left = [] ∨ w.n = 0)
    (h : tailPhase P mux fs key left w = some w') :
    w' = ⟨(refRun (P.blockE key) mux left w.cv w.n).2.1, (refRun (P.blockE key) mux left w.cv w.n).2.2,
          w.out ++ (refRun (P.blockE key) mux left w.cv w.n).1⟩ := by
  unfold tailPhase at h
  split at h
  · rename_i h0
    cases h
    have : left = [] := List.length_eq_zero_iff.mp h0
    subst this; simp
  · rename_i h0
    have hne : left ≠ [] := by rintro rfl; exact h0 rfl
    have hn0 : w.n = 0 := hn.resolve_left hne
    split at h
    · cases h
    · rename_i r hr
      cases h
      obtain ⟨kind, hk, -, -, -, rfl⟩ := prim_eq_some hr
      rw [primKind_fsGen] at hk; cases hk
      have hout : blockOfBytes (primCompute P .block (fsGen fs) key w.cv.toList none).out =
          P.blockE key w.cv := by
        have h1 : w.cv.toList.length / 16 = 1 := by simp
        simp only [primCompute, fsDec_fsGen, h1]
        simp [blockKind_one]
      rw [hout, tailBytes_fresh (P.blockE key) mux left w.cv w.out (by omega) hne, hn0]
      have hoff : Fin.ofNat 16 left.length = (refRun (P.blockE key) mux left w.cv 0).2.2 := by
        apply Fin.ext
        rw [refRun_offset]
        simp
      simp only [hoff]

/-- The bulk phase succeeds when no invoke fails (R73, R74). -/
theorem bulkPhase_isSome {P : Platform} {fs : BitVec 8} {key rest : Bytes} {w : Carousel}
    {mux : FeedbackMux} (hp : Paired fs mux) (hk : fsKeyBytes fs = some key.length) (hf : NeverFails P) :
    (bulkPhase P fs key rest w).isSome = true := by
  unfold bulkPhase
  split
  · rfl
  · rename_i h0
    have hm := bulkLen_mod rest
    have hle := bulkLen_le rest
    have hlen : (memRead rest 0 (bulkLen rest)).length = bulkLen rest := by simp [memRead]; omega
    rcases hp with ⟨rfl, ho⟩ | ⟨dir, rfl, -, hc⟩
    · rw [prim_of_ok (ho w.cv) hk (by simp [primLengthOk, hlen, hm]; omega) (hf _ _ _ _)]; rfl
    · rw [prim_of_ok (hc w.cv) hk (by simp [primLengthOk, hlen, hm]; omega) (hf _ _ _ _)]; rfl

/-- The tail phase succeeds when no invoke fails (R73, R74). -/
theorem tailPhase_isSome {P : Platform} {fs : BitVec 8} {key left : Bytes} {w : Carousel}
    {mux : FeedbackMux} (hk : fsKeyBytes fs = some key.length) (hf : NeverFails P) :
    (tailPhase P mux fs key left w).isSome = true := by
  unfold tailPhase
  split
  · rfl
  · rw [prim_of_ok (primKind_fsGen fs) (by simpa using hk) (by simp [primLengthOk]) (hf _ _ _ _)]; rfl

/-! ### The body -/

/-- `raise` forgets the phase and the staging registers (R285). -/
@[simp] theorem raise_enter (st : Status) (p : Phase) (s : State) : raise st (s.enter p) = raise st s := rfl
@[simp] theorem raise_stage (st : Status) (g : Staging) (s : State) : raise st (s.stage g) = raise st s := rfl

/-- `commit` forgets the phase. -/
@[simp] theorem commit_stage_enter (c : BitVec 8) (x : Slot) (g : Staging) (p : Phase) (s : State) :
    commit c x ((s.enter p).stage g) = commit c x (s.stage g) := rfl
@[simp] theorem commit_stage_stage (c : BitVec 8) (x : Slot) (g g' : Staging) (s : State) :
    commit c x ((s.stage g').stage g) = commit c x (s.stage g) := rfl

/-- Everything the body of OFB and CFB-128 can do (R256): it fails and raises `ERR_PRIM_FAIL`, or it
commits what the byte-at-a-time reference computes. -/
theorem carouselBody_cases {P : Platform} {mux : FeedbackMux} {fs : BitVec 8} (hp : Paired fs mux)
    (c : BitVec 8) (x : Slot) (key : Bytes) (cv : Block) (n : Fin 16) (data : Bytes) (s : State) :
    carouselBody P mux c x fs key cv n data s = raise .errPrimFail s ∨
    carouselBody P mux c x fs key cv n data s =
      commit c x (s.stage ⟨some (refRun (P.blockE key) mux data cv n).2.1,
        some (refRun (P.blockE key) mux data cv n).2.2, none, (refRun (P.blockE key) mux data cv n).1⟩) := by
  obtain ⟨pre, h1, h2, h3⟩ := drainPhase_spec (P.blockE key) mux data ⟨cv, n, []⟩
  unfold carouselBody
  generalize hd : drainPhase mux data ⟨cv, n, []⟩ = d at h1 h2 h3 ⊢
  obtain ⟨w1, rest⟩ := d
  simp only at h1 h2 h3 ⊢
  cases hb : bulkPhase P fs key rest w1 with
  | none => left; simp
  | some w2 =>
    have hs2 := bulkPhase_spec hp h3 hb
    simp only
    have hl : (rest.drop (bulkLen rest)).length < 16 := by
      simp [bulkLen]; omega
    have hn2 : rest.drop (bulkLen rest) = [] ∨ w2.n = 0 := by
      rcases h3 with rfl | h3
      · exact .inl (by simp)
      · right
        apply Fin.ext
        have hm := bulkLen_mod rest
        have hle := bulkLen_le rest
        rw [hs2]; simp only [refRun_offset, h3]
        simp; omega
    cases ht : tailPhase P mux fs key (rest.drop (bulkLen rest)) w2 with
    | none => left; simp
    | some w3 =>
      right
      have hs3 := tailPhase_spec hl hn2 ht
      have hrest : rest = rest.take (bulkLen rest) ++ rest.drop (bulkLen rest) :=
        (List.take_append_drop _ _).symm
      have hall : refRun (P.blockE key) mux data cv n =
          (w3.out, w3.cv, w3.n) := by
        rw [h1]
        conv_lhs => rw [hrest]
        rw [refRun_append, refRun_append, hs3, hs2, h2]
        simp
      simp only [hall]
      simp [stagingOf]

/-- With no failing invoke the body of OFB and CFB-128 commits (R74, R256). -/
theorem carouselBody_ok {P : Platform} {mux : FeedbackMux} {fs : BitVec 8} (hp : Paired fs mux)
    {key : Bytes} (hk : fsKeyBytes fs = some key.length) (hf : NeverFails P)
    (c : BitVec 8) (x : Slot) (cv : Block) (n : Fin 16) (data : Bytes) (s : State) :
    carouselBody P mux c x fs key cv n data s =
      commit c x (s.stage ⟨some (refRun (P.blockE key) mux data cv n).2.1,
        some (refRun (P.blockE key) mux data cv n).2.2, none, (refRun (P.blockE key) mux data cv n).1⟩) := by
  rcases carouselBody_cases (P := P) hp c x key cv n data s with h | h
  · exfalso
    unfold carouselBody at h
    obtain ⟨w2, hb⟩ := Option.isSome_iff_exists.mp
      (bulkPhase_isSome (P := P) (rest := (drainPhase mux data ⟨cv, n, []⟩).2)
        (w := (drainPhase mux data ⟨cv, n, []⟩).1) hp hk hf)
    simp only [hb] at h
    obtain ⟨w3, ht⟩ := Option.isSome_iff_exists.mp
      (tailPhase_isSome (P := P) (mux := mux)
        (left := (drainPhase mux data ⟨cv, n, []⟩).2.drop (bulkLen (drainPhase mux data ⟨cv, n, []⟩).2))
        (w := w2) hk hf)
    simp only [ht] at h
    have := congrArg State.responsePort h
    simp at this
    exact absurd this.1 (by decide)
  · exact h

end Sys2Proof.Laws
end

