-- ==== Sys2Proof/Laws/Decode.lean ====
section
/-! SUPPORT. The fields of a packed word, and everything the word decoder can answer (30_encoding.md R101,
R115 to R117). -/

namespace Sys2Proof.Laws

open Sys2Proof.Machine

@[simp] theorem dirOfBit_dirBit (d : Direction) : dirOfBit (dirBit d) = d := by cases d <;> rfl
@[simp] theorem dirBit_dirOfBit (b : Bool) : dirBit (dirOfBit b) = b := by cases b <;> rfl
@[simp] theorem modeOfCode_modeCode (m : Mode) : modeOfCode (modeCode m) = some m := by cases m <;> rfl
@[simp] theorem blockOfBytes?_toList (v : Block) : blockOfBytes? v.toList = some v :=
  blockOfBytes?_eq_some.mpr rfl

/-- A `MODE` value that codes a mode is that mode's code (R103). -/
theorem eq_modeCode {b : BitVec 4} {m : Mode} (h : modeOfCode b = some m) : b = modeCode m := by
  revert h; revert b m; decide +revert

/-- A `KS` value that codes a key size is that size's code (R105). -/
theorem eq_ksCode {b : BitVec 2} {k : KeySize} (h : ksOfCode b = some k) : b = ksCode k := by
  revert h; revert b k; decide +revert

/-- Every field of a packed word reads back, and `RSV` is 0 (R101, R115). -/
theorem packWord_fields (opc mode : BitVec 4) (d : Bool) (k : BitVec 2) (c : BitVec 8) :
    fieldOpc (packWord opc mode d k c) = opc ∧ fieldMode (packWord opc mode d k c) = mode ∧
    fieldDir (packWord opc mode d k c) = d ∧ fieldKs (packWord opc mode d k c) = k ∧
    fieldRsv (packWord opc mode d k c) = 0 ∧ fieldCtx (packWord opc mode d k c) = c := by
  refine ⟨?_, ?_, ?_, ?_, ?_, ?_⟩
  · apply BitVec.eq_of_getLsbD_eq
    intro i hi
    simp [fieldOpc, packWord]
    interval_cases i <;> simp
  · apply BitVec.eq_of_getLsbD_eq
    intro i hi
    simp [fieldMode, packWord]
    interval_cases i <;> simp
  · simp [fieldDir, packWord]
  · apply BitVec.eq_of_getLsbD_eq
    intro i hi
    simp [fieldKs, packWord]
    interval_cases i <;> simp
  · apply BitVec.eq_of_getLsbD_eq
    intro i hi
    simp [fieldRsv, packWord]
    interval_cases i <;> simp
  · apply BitVec.eq_of_getLsbD_eq
    intro i hi
    simp [fieldCtx, packWord]
    interval_cases i <;> simp

/-- A word with `RSV` 0 is the packing of its fields (R101). -/
theorem packWord_of_fields (w : Word) (hr : fieldRsv w = 0) :
    packWord (fieldOpc w) (fieldMode w) (fieldDir w) (fieldKs w) (fieldCtx w) = w := by
  have hbit : ∀ j, j < 13 → w.getLsbD (8 + j) = false := by
    intro j hj
    have := congrArg (fun b : BitVec 13 => b.getLsbD j) hr
    simpa [fieldRsv, hj] using this
  apply BitVec.eq_of_getLsbD_eq
  intro i hi
  simp only [packWord, fieldOpc, fieldMode, fieldDir, fieldKs, fieldCtx]
  by_cases h : 8 ≤ i ∧ i < 21
  · have h' := hbit (i - 8) (by omega)
    rw [Nat.add_sub_cancel' h.1] at h'
    rw [h']
    obtain ⟨h1, h2⟩ := h
    interval_cases i <;> simp
  · have h' : i < 8 ∨ 21 ≤ i := by omega
    rcases h' with h' | h'
    · interval_cases i <;> simp
    · interval_cases i <;> simp

/-- The decoder on a packed word (R116). -/
theorem decodeWord_packWord (opc mode : BitVec 4) (d : Bool) (k : BitVec 2) (c : BitVec 8) :
    decodeWord (packWord opc mode d k c) =
      if opc = 1 then
        match modeOfCode mode, ksOfCode k with
        | some m, some k => some (.init m (dirOfBit d) k c)
        | _, _ => none
      else if opc = 2 then if mode = 0 ∧ k = 0 then some (.xform (dirOfBit d) c) else none
      else if opc = 3 then if mode = 0 ∧ k = 0 ∧ d = false then some (.release c) else none
      else none := by
  obtain ⟨h1, h2, h3, h4, h5, h6⟩ := packWord_fields opc mode d k c
  unfold decodeWord
  rw [h1, h2, h3, h4, h5, h6, if_neg (by simp)] <;> rfl

/-- Everything the word decoder can accept (R110, R116): the three shapes, each the packing of what it
answers. -/
theorem decodeWord_cases {w : Word} {h : Head} (hd : decodeWord w = some h) :
    (∃ m d k c, h = .init m d k c ∧ w = packWord 1 (modeCode m) (dirBit d) (ksCode k) c) ∨
    (∃ d c, h = .xform d c ∧ w = packWord 2 0 (dirBit d) 0 c) ∨
    (∃ c, h = .release c ∧ w = packWord 3 0 false 0 c) := by
  unfold decodeWord at hd
  split at hd
  · cases hd
  rename_i hr
  have hp := packWord_of_fields w (by simpa using hr)
  split at hd
  · rename_i h1
    split at hd
    · rename_i m k hm hk
      cases hd
      refine .inl ⟨m, dirOfBit (fieldDir w), k, fieldCtx w, rfl, ?_⟩
      rw [← eq_modeCode hm, ← eq_ksCode hk, dirBit_dirOfBit, ← h1, hp]
    · cases hd
  split at hd
  · rename_i h2
    split at hd
    · rename_i h3
      cases hd
      refine .inr (.inl ⟨_, _, rfl, ?_⟩)
      rw [dirBit_dirOfBit, ← h2]
      conv_lhs => rw [← hp, h3.1, h3.2]
    · cases hd
  split at hd
  · rename_i h2
    split at hd
    · rename_i h3
      cases hd
      refine .inr (.inr ⟨_, rfl, ?_⟩)
      rw [← h2]
      conv_lhs => rw [← hp, h3.1, h3.2.1, h3.2.2]
    · cases hd
  · cases hd

/-- What `initInstr` answers (R108, R117): the INIT of the mode, with the IV exactly where the mode takes
one. -/
theorem initInstr_eq_some {m : Mode} {c : BitVec 8} {k : KeySize} {d : Direction} {key : Bytes}
    {iv : Option Block} {i : Instr} (h : initInstr m c k d key iv = some i) :
    encodeWord i = packWord 1 (modeCode m) (dirBit d) (ksCode k) c ∧
    encodeOperands i = .bytes key :: (match iv with | none => [] | some v => [.bytes v.toList]) ∧
    (WellFormed i ↔ key.length = k.bytes) := by
  cases m <;> cases iv <;> simp [initInstr] at h <;> subst h <;> exact ⟨rfl, rfl, Iff.rfl⟩

end Sys2Proof.Laws
end

