-- ==== Sys2Proof/Laws/Ops.lean ====
section
/-! SUPPORT. What each shared operation can do, said once: reading a field, the arbiter, the front end of
INIT, the XFORM bodies and front end, RELEASE, and `exec` as a whole. -/

namespace Sys2Proof.Laws

open Sys2Proof.Machine Sys2Proof.Safety

/-! ### Reading a field -/

@[simp] theorem readField_some {α : Type} (f : SlotField) (a : α) (k : α → Result) :
    readField f (some a) k = k a := rfl

@[simp] theorem readField_none {α : Type} (f : SlotField) (k : α → Result) :
    readField f none k = .fault (.noValue f) := rfl

/-- A read that goes on found a value. -/
theorem readField_next {α : Type} {f : SlotField} {v : Option α} {k : α → Result} {t : State}
    (h : readField f v k = .next t) : ∃ a, v = some a ∧ k a = .next t := by
  cases v with
  | none => simp at h
  | some a => exact ⟨a, rfl, h⟩

/-! ### The end of a command -/

/-- `finish` forgets the phase and the staging registers (R34, R35). -/
@[simp] theorem finish_enter (r : Response) (p : Phase) (s : State) : finish r (s.enter p) = finish r s := rfl
@[simp] theorem finish_stage (r : Response) (g : Staging) (s : State) : finish r (s.stage g) = finish r s := rfl
@[simp] theorem respondOk_enter (b : Bool) (o : Bytes) (p : Phase) (s : State) :
    respondOk b o (s.enter p) = respondOk b o s := rfl

/-- `raise` is the end of a command with an error response (R285). -/
theorem raise_eq_finish (st : Status) (s : State) : raise st s = finish ⟨statusWord st false, []⟩ s := rfl

theorem respondOk_eq_finish (b : Bool) (o : Bytes) (s : State) :
    respondOk b o s = finish ⟨statusWord .ok b, o⟩ s := rfl

/-- `commit` is one write of the slot and the end of the command (R155). -/
theorem commit_eq_finish (c : BitVec 8) (x : Slot) (g : Staging) (s : State) :
    commit c x (s.stage g) = finish ⟨statusWord .ok false, g.out⟩ (s.setSlot c (committed g x)) := rfl

/-- At a command boundary the end of a command adds the response and nothing else (R20, R285). -/
theorem finish_eq_withResponse {s : State} (hp : s.phase = .idle) (hs : s.staging = Staging.none)
    (r : Response) : finish r s = withResponse s r.status r.output := by
  obtain ⟨ctx, caps, phase, staging, cp, rp⟩ := s
  simp only at hp hs
  subst hp hs
  rfl

/-! ### The arbiter -/

/-- The handle has the requested mode (R133). -/
theorem select_mode {m : Mode} {k : KeySize} {caps : Word} {h : Engine} (hs : select m k caps = some h) :
    h.mode = m := by
  unfold select at hs
  split at hs
  · cases m <;> simp [hwEngine] at hs <;> subst hs <;> rfl
  · split at hs
    · cases hs; rfl
    · cases hs

/-- Everything the arbiter can answer (R131). -/
theorem select_cases {m : Mode} {k : KeySize} {caps : Word} {h : Engine} (hs : select m k caps = some h) :
    (hwCap caps m k = true ∧ hwEngine m = some h) ∨
      (hwCap caps m k = false ∧ swCap caps m k = true ∧ h = .sw m) := by
  unfold select at hs
  split at hs
  · exact .inl ⟨‹_›, hs⟩
  · rename_i hn
    split at hs
    · cases hs; exact .inr ⟨by simpa using hn, ‹_›, rfl⟩
    · cases hs

/-- The path of a hardware handle (R23). -/
theorem hwEngine_path {m : Mode} {h : Engine} (hm : hwEngine m = some h) : h.path = .hw := by
  cases m <;> simp [hwEngine] at hm <;> subst hm <;> rfl

/-! ### INIT -/

/-- Everything the front end of INIT can do (R136). -/
theorem initFront_cases (m : Mode) (c : BitVec 8) (k : KeySize) (s : State) (f : Engine → State) :
    (s.slot? c = none ∧ initFront m c k s f = raise .errIllegalCmd s) ∨
    (∃ x, s.slot? c = some x ∧ x.state = .ready ∧ initFront m c k s f = raise .errCtxInUse s) ∨
    (∃ x, s.slot? c = some x ∧ x.state = .empty ∧ select m k s.caps = none ∧
      initFront m c k s f = raise .errUnsupported s) ∨
    (∃ x h, s.slot? c = some x ∧ x.state = .empty ∧ select m k s.caps = some h ∧
      initFront m c k s f = f h) := by
  unfold initFront
  cases hx : s.slot? c with
  | none => exact .inl ⟨rfl, rfl⟩
  | some x =>
    right
    by_cases hr : x.state = .ready
    · exact .inl ⟨x, rfl, hr, by simp [hr]⟩
    · have he : x.state = .empty := by
        cases h : x.state
        · rfl
        · exact absurd h hr
      right
      cases hs : select m k s.caps with
      | none => exact .inl ⟨x, rfl, he, rfl, by simp [he]⟩
      | some h => exact .inr ⟨x, h, rfl, he, rfl, by simp [he]⟩

/-- On an EMPTY slot with an engine INIT goes on to populate (R136). -/
theorem initFront_go {m : Mode} {c : BitVec 8} {k : KeySize} {s : State} {f : Engine → State} {x : Slot}
    {h : Engine} (hx : s.slot? c = some x) (he : x.state = .empty) (hs : select m k s.caps = some h) :
    initFront m c k s f = f h := by
  simp [initFront, hx, he, hs]

/-- Everything the software path of INIT can do (R143). -/
theorem populateSw_cases (P : Platform) (m : Mode) (c : BitVec 8) (k : KeySize) (dir : Direction)
    (key : Bytes) (iv : Option Block) (s : State) :
    (P.swInit m k dir key iv = none ∧ populateSw P m c k dir key iv s = raise .errSwFail s) ∨
    ∃ st, P.swInit m k dir key iv = some st ∧
      populateSw P m c k dir key iv s = respondOk true [] (s.setSlot c (swSlot m dir key st)) := by
  unfold populateSw
  cases h : P.swInit m k dir key iv with
  | none => exact .inl ⟨rfl, rfl⟩
  | some st => exact .inr ⟨st, rfl, rfl⟩

/-! ### XFORM -/

/-- What a body may leave in the staging registers (R35): a register and an offset only for the engines that
own them (R29, R31), a software state only on the software path. -/
def StagingFits (h : Engine) (g : Staging) : Prop :=
  (g.cv.isSome = true → holdsRegister h = true) ∧ (g.n.isSome = true → h = .hwOfb ∨ h = .hwCfb128) ∧
    (g.sw.isSome = true → holdsSwState h = true)

/-- Everything a body can do when it answers a next state (R155, R273, R279): raise the failure of its path,
or commit. -/
theorem xformBody_cases {P : Platform} {c : BitVec 8} {x : Slot} {h : Engine} {data : Bytes} {s t : State}
    (hb : xformBody P c x h data s = .next t) :
    (t = raise .errPrimFail s ∧ h.path = .hw) ∨ (t = raise .errSwFail s ∧ h.path = .sw) ∨
      ∃ g, t = commit c x (s.stage g) ∧ StagingFits h g := by
  have hcar : ∀ mux fs key cv n, (h = .hwOfb ∨ h = .hwCfb128) → h.path = .hw →
      Host.Outcome.next (carouselBody P mux c x fs key cv n data s) = (.next t : Result) →
      (t = raise .errPrimFail s ∧ h.path = .hw) ∨ (t = raise .errSwFail s ∧ h.path = .sw) ∨
        ∃ g, t = commit c x (s.stage g) ∧ StagingFits h g := by
    intro mux fs key cv n hh hpath ht
    cases ht
    unfold carouselBody
    simp only
    split
    · exact .inl ⟨by simp, hpath⟩
    · split
      · exact .inl ⟨by simp, hpath⟩
      · refine .inr (.inr ⟨_, by simp; rfl, ?_⟩)
        rcases hh with rfl | rfl <;> simp [StagingFits, holdsRegister]
  cases h with
  | hwEcb =>
    obtain ⟨fs, -, h1⟩ := readField_next hb
    obtain ⟨key, -, h2⟩ := readField_next h1
    simp only at h2
    split at h2 <;> cases h2
    · exact .inl ⟨rfl, rfl⟩
    · exact .inr (.inr ⟨_, rfl, by simp [StagingFits]⟩)
  | hwOfb =>
    obtain ⟨fs, -, h1⟩ := readField_next hb
    obtain ⟨key, -, h2⟩ := readField_next h1
    obtain ⟨cv, -, h3⟩ := readField_next h2
    obtain ⟨n, -, h4⟩ := readField_next h3
    exact hcar _ _ _ _ _ (.inl rfl) rfl h4
  | hwCfb128 =>
    obtain ⟨fs, -, h1⟩ := readField_next hb
    obtain ⟨key, -, h2⟩ := readField_next h1
    obtain ⟨cv, -, h3⟩ := readField_next h2
    obtain ⟨n, -, h4⟩ := readField_next h3
    obtain ⟨dir, -, h5⟩ := readField_next h4
    exact hcar _ _ _ _ _ (.inr rfl) rfl h5
  | hwCfb8 =>
    obtain ⟨fs, -, h1⟩ := readField_next hb
    obtain ⟨key, -, h2⟩ := readField_next h1
    obtain ⟨cv, -, h3⟩ := readField_next h2
    simp only at h3
    split at h3 <;> cases h3
    · exact .inl ⟨rfl, rfl⟩
    · exact .inr (.inr ⟨_, rfl, by simp [StagingFits, holdsRegister]⟩)
  | sw m =>
    obtain ⟨st, -, h1⟩ := readField_next hb
    simp only at h1
    split at h1 <;> cases h1
    · exact .inr (.inl ⟨rfl, rfl⟩)
    · exact .inr (.inr ⟨_, rfl, by simp [StagingFits, holdsSwState]⟩)

/-- XFORM on a READY slot whose handle and direction hold values (R150). -/
theorem xformOn_ready {P : Platform} {c : BitVec 8} {dir : Direction} {len : Word} {data : Bytes}
    {s : State} {x : Slot} {d : Direction} {h : Engine} (hx : s.slot? c = some x)
    (hr : x.state = .ready) (hd : x.direction = some d) (he : x.engine = some h) :
    xformOn P c dir len data s =
      if dir ≠ d then .next (raise .errDirMismatch s)
      else if h.mode = .ecb ∧ len.toNat % 16 ≠ 0 then .next (raise .errMisaligned s)
      else if len = 0 then .next (respondOk false [] s)
      else xformBody P c x h data (s.enter .check) := by
  simp [xformOn, hx, hr, hd, he]

/-- Everything XFORM can do when it answers a next state (R150, R283). -/
theorem xformOn_cases {P : Platform} {c : BitVec 8} {dir : Direction} {len : Word} {data : Bytes}
    {s t : State} (hx : xformOn P c dir len data s = .next t) :
    (s.slot? c = none ∧ t = raise .errIllegalCmd s) ∨
    (∃ x, s.slot? c = some x ∧ x.state = .empty ∧ t = raise .errNoContext s) ∨
    ∃ x d h, s.slot? c = some x ∧ x.state = .ready ∧ x.direction = some d ∧ x.engine = some h ∧
      ((dir ≠ d ∧ t = raise .errDirMismatch s) ∨
       (dir = d ∧ h.mode = .ecb ∧ len.toNat % 16 ≠ 0 ∧ t = raise .errMisaligned s) ∨
       (dir = d ∧ len = 0 ∧ t = respondOk false [] s) ∨
       (dir = d ∧ len ≠ 0 ∧ (h.mode = .ecb → len.toNat % 16 = 0) ∧
          xformBody P c x h data (s.enter .check) = .next t)) := by
  cases hs : s.slot? c with
  | none =>
    left
    simp [xformOn, hs] at hx
    exact ⟨rfl, hx.symm⟩
  | some x =>
    right
    cases hst : x.state with
    | empty =>
      left
      simp [xformOn, hs, hst] at hx
      exact ⟨x, rfl, hst, hx.symm⟩
    | ready =>
      right
      have hx' := hx
      simp only [xformOn, enter_slot, hs, hst, ne_eq, not_true_eq_false, if_false] at hx'
      obtain ⟨d, hd, h1⟩ := readField_next hx'
      obtain ⟨h, he, -⟩ := readField_next h1
      refine ⟨x, d, h, rfl, hst, hd, he, ?_⟩
      rw [xformOn_ready hs hst hd he] at hx
      split at hx
      · cases hx; exact .inl ⟨‹_›, rfl⟩
      · rename_i hdir
        have hdir : dir = d := by simpa using hdir
        right
        split at hx
        · cases hx; rename_i hm; exact .inl ⟨hdir, hm.1, hm.2, rfl⟩
        · rename_i hm
          right
          split at hx
          · cases hx; exact .inl ⟨hdir, ‹_›, rfl⟩
          · refine .inr ⟨hdir, ‹_›, fun he => ?_, hx⟩
            by_contra hne
            exact hm ⟨he, hne⟩

/-! ### `exec` as a whole -/

/-- Everything a command can do to the state (R21, R37, R155): it ends with one response, and either writes
nothing or writes the one slot it names. -/
theorem exec_shape {i : Instr} {s t : State} (h : exec i s = .next t) :
    ∃ r, t = finish r s ∨
      ∃ x y, s.slot? i.slot = some x ∧ t = finish r (s.setSlot i.slot y) := by
  have hsw : ∀ m c k dir key iv x, s.slot? c = some x → ∃ r,
      populateSw Config.platform m c k dir key iv s = finish r s ∨
      ∃ x y, s.slot? c = some x ∧
        populateSw Config.platform m c k dir key iv s = finish r (s.setSlot c y) := by
    intro m c k dir key iv x hx
    rcases populateSw_cases Config.platform m c k dir key iv s with ⟨-, h⟩ | ⟨st, -, h⟩
    · exact ⟨_, .inl h⟩
    · exact ⟨_, .inr ⟨x, _, hx, h⟩⟩
  have hinit : ∀ m c k (f : Engine → State), (∀ e x, s.slot? c = some x → ∃ r, f e = finish r s ∨
      ∃ x y, s.slot? c = some x ∧ f e = finish r (s.setSlot c y)) →
      ∃ r, initFront m c k s f = finish r s ∨
        ∃ x y, s.slot? c = some x ∧ initFront m c k s f = finish r (s.setSlot c y) := by
    intro m c k f hf
    rcases initFront_cases m c k s f with ⟨-, h⟩ | ⟨x, -, -, h⟩ | ⟨x, -, -, -, h⟩ | ⟨x, e, hx, -, -, h⟩
    · exact ⟨_, .inl h⟩
    · exact ⟨_, .inl h⟩
    · exact ⟨_, .inl h⟩
    · rw [h]; exact hf e x hx
  have hboth : ∀ m c k dir key iv (e : Engine) y x, s.slot? c = some x → ∃ r,
      (match e.path with
        | .hw => populateHw c y s
        | .sw => populateSw Config.platform m c k dir key iv s) = finish r s ∨
      ∃ x z, s.slot? c = some x ∧
        (match e.path with
          | .hw => populateHw c y s
          | .sw => populateSw Config.platform m c k dir key iv s) = finish r (s.setSlot c z) := by
    intro m c k dir key iv e y x hx
    cases e.path
    · exact ⟨_, .inr ⟨x, y, hx, rfl⟩⟩
    · exact hsw m c k dir key iv x hx
  cases i with
  | initEcb c ks dir key => cases h; exact hinit _ _ _ _ fun e x hx => hboth _ _ _ _ _ _ e _ x hx
  | initOfb c ks dir key iv => cases h; exact hinit _ _ _ _ fun e x hx => hboth _ _ _ _ _ _ e _ x hx
  | initCfb128 c ks dir key iv => cases h; exact hinit _ _ _ _ fun e x hx => hboth _ _ _ _ _ _ e _ x hx
  | initCfb8 c ks dir key iv => cases h; exact hinit _ _ _ _ fun e x hx => hboth _ _ _ _ _ _ e _ x hx
  | initCfb1 c ks dir key iv => cases h; exact hinit _ _ _ _ fun e x hx => hsw _ _ _ _ _ _ x hx
  | xform c dir len data =>
    rcases xformOn_cases h with ⟨-, rfl⟩ | ⟨x, -, -, rfl⟩ | ⟨x, d, e, hx, -, -, -, h⟩
    · exact ⟨_, .inl rfl⟩
    · exact ⟨_, .inl rfl⟩
    · rcases h with ⟨-, rfl⟩ | ⟨-, -, -, rfl⟩ | ⟨-, -, rfl⟩ | ⟨-, -, -, hb⟩
      · exact ⟨_, .inl rfl⟩
      · exact ⟨_, .inl rfl⟩
      · exact ⟨_, .inl rfl⟩
      · rcases xformBody_cases hb with ⟨rfl, -⟩ | ⟨rfl, -⟩ | ⟨g, rfl, -⟩
        · exact ⟨_, .inl rfl⟩
        · exact ⟨_, .inl rfl⟩
        · exact ⟨_, .inr ⟨x, _, hx, rfl⟩⟩
  | release c =>
    cases h
    unfold releaseSlot
    cases hx : s.slot? c with
    | none => exact ⟨_, .inl rfl⟩
    | some x =>
      simp only
      split
      · exact ⟨_, .inl rfl⟩
      · exact ⟨_, .inr ⟨x, _, hx, rfl⟩⟩

end Sys2Proof.Laws
end

