-- ==== Sys2Proof/Laws/Commands.lean ====
section
/-! SUPPORT. Everything each command, and each step, can do when it answers a next state, case by case in the
order of the spec's checks (60_exceptions.md R283), and on what it depends (10_state.md R21). -/

namespace Sys2Proof.Laws

open Sys2Proof.Machine Sys2Proof.Safety

/-! ### INIT -/

/-- The five things an INIT can do (R136), from `s` to `t`. -/
def InitOutcome (m : Mode) (c : BitVec 8) (ks : KeySize) (dir : Direction) (key : Bytes) (iv : Option Block)
    (s t : State) : Prop :=
  (s.slot? c = none ∧ t = raise .errIllegalCmd s) ∨
  (∃ x, s.slot? c = some x ∧ x.state = .ready ∧ t = raise .errCtxInUse s) ∨
  (∃ x, s.slot? c = some x ∧ x.state = .empty ∧ select m ks s.caps = none ∧ t = raise .errUnsupported s) ∨
  (∃ x h y, s.slot? c = some x ∧ x.state = .empty ∧ select m ks s.caps = some h ∧ h.path = .hw ∧
    t = finish ⟨statusWord .ok false, []⟩ (s.setSlot c y)) ∨
  (∃ x, s.slot? c = some x ∧ x.state = .empty ∧ select m ks s.caps = some (.sw m) ∧
    ((Config.swInit m ks dir key iv = none ∧ t = raise .errSwFail s) ∨
      ∃ st, Config.swInit m ks dir key iv = some st ∧
        t = finish ⟨statusWord .ok true, []⟩ (s.setSlot c (swSlot m dir key st))))

/-- The front end of INIT with a populate step that follows the handle's path (R136). -/
theorem initFront_outcome {m : Mode} {c : BitVec 8} {ks : KeySize} {dir : Direction} {key : Bytes}
    {iv : Option Block} {s : State} {f : Engine → State}
    (hhw : ∀ e, select m ks s.caps = some e → e.path = .hw →
      ∃ y, f e = finish ⟨statusWord .ok false, []⟩ (s.setSlot c y))
    (hsw : ∀ e, e.path = .sw → f e = populateSw Config.platform m c ks dir key iv s) :
    InitOutcome m c ks dir key iv s (initFront m c ks s f) := by
  rcases initFront_cases m c ks s f with ⟨h1, h⟩ | ⟨x, h1, h2, h⟩ | ⟨x, h1, h2, h3, h⟩ | ⟨x, e, hx, he, hs, h⟩
  · exact .inl ⟨h1, h⟩
  · exact .inr (.inl ⟨x, h1, h2, h⟩)
  · exact .inr (.inr (.inl ⟨x, h1, h2, h3, h⟩))
  · cases hp : e.path with
    | hw =>
      obtain ⟨y, hy⟩ := hhw e hs hp
      exact .inr (.inr (.inr (.inl ⟨x, e, y, hx, he, hs, hp, by rw [h, hy]⟩)))
    | sw =>
      rcases select_cases hs with ⟨-, hm⟩ | ⟨-, -, rfl⟩
      · rw [hwEngine_path hm] at hp; cases hp
      · refine .inr (.inr (.inr (.inr ⟨x, hx, he, hs, ?_⟩)))
        rcases populateSw_cases Config.platform m c ks dir key iv s with ⟨h1, h2⟩ | ⟨st, h1, h2⟩
        · exact .inl ⟨h1, by rw [h, hsw _ rfl, h2]⟩
        · exact .inr ⟨st, h1, by rw [h, hsw _ rfl, h2]; rfl⟩

/-- Everything an INIT can do (R136). -/
theorem init_cases {m : Mode} {c : BitVec 8} {ks : KeySize} {dir : Direction} {key : Bytes}
    {iv : Option Block} {i : Instr} {s t : State} (hm : initInstr m c ks dir key iv = some i)
    (h : exec i s = .next t) : InitOutcome m c ks dir key iv s t := by
  cases m <;> cases iv <;> simp [initInstr] at hm <;> subst hm <;> cases h
  case cfb1.some =>
    refine initFront_outcome (fun e hs hp => ?_) (fun e _ => rfl)
    rcases select_cases hs with ⟨-, h⟩ | ⟨-, -, rfl⟩
    · cases h
    · cases hp
  all_goals
    refine initFront_outcome (fun e _ hp => ?_) (fun e hp => by simp only [hp])
    simp only [hp]
    exact ⟨_, rfl⟩

/-- An instruction that requests a mode and a key size is the INIT of that mode. -/
theorem requestOf_eq_some {i : Instr} {m : Mode} {ks : KeySize} (h : requestOf i = some (m, ks)) :
    ∃ dir key iv, initInstr m i.slot ks dir key iv = some i := by
  cases i <;> cases h
  · exact ⟨_, _, none, rfl⟩
  all_goals exact ⟨_, _, some _, rfl⟩

/-! ### XFORM and RELEASE -/

/-- Everything XFORM can do when it answers a next state (R150, R155). -/
theorem xform_cases {c : BitVec 8} {dir : Direction} {len : Word} {data : Bytes} {s t : State}
    (h : exec (.xform c dir len data) s = .next t) :
    (s.slot? c = none ∧ t = raise .errIllegalCmd s) ∨
    (∃ x, s.slot? c = some x ∧ x.state = .empty ∧ t = raise .errNoContext s) ∨
    ∃ x d h, s.slot? c = some x ∧ x.state = .ready ∧ x.direction = some d ∧ x.engine = some h ∧
      ((dir ≠ d ∧ t = raise .errDirMismatch s) ∨
       (dir = d ∧ h.mode = .ecb ∧ len.toNat % 16 ≠ 0 ∧ t = raise .errMisaligned s) ∨
       (dir = d ∧ len = 0 ∧ t = finish ⟨statusWord .ok false, []⟩ s) ∨
       (dir = d ∧ len ≠ 0 ∧ h.path = .hw ∧ t = raise .errPrimFail s) ∨
       (dir = d ∧ len ≠ 0 ∧ h.path = .sw ∧ t = raise .errSwFail s) ∨
       (dir = d ∧ len ≠ 0 ∧ ∃ g, StagingFits h g ∧
          t = finish ⟨statusWord .ok false, g.out⟩ (s.setSlot c (committed g x)))) := by
  rcases xformOn_cases h with h | h | ⟨x, d, e, hx, hr, hd, he, h⟩
  · exact .inl h
  · exact .inr (.inl h)
  · refine .inr (.inr ⟨x, d, e, hx, hr, hd, he, ?_⟩)
    rcases h with h | h | ⟨h1, h2, rfl⟩ | ⟨h1, h2, h3, hb⟩
    · exact .inl h
    · exact .inr (.inl h)
    · exact .inr (.inr (.inl ⟨h1, h2, rfl⟩))
    · right; right; right
      rcases xformBody_cases hb with ⟨rfl, hp⟩ | ⟨rfl, hp⟩ | ⟨g, rfl, hg⟩
      · exact .inl ⟨h1, h2, hp, rfl⟩
      · exact .inr (.inl ⟨h1, h2, hp, rfl⟩)
      · exact .inr (.inr ⟨h1, h2, g, hg, rfl⟩)

/-- An XFORM that passes every check runs the body of its handle (R150, R152). -/
theorem xformOn_body {P : Platform} {s : State} {c : BitVec 8} {dir : Direction} {len : Word} {data : Bytes}
    {h : Engine} {key : Bytes} {fs : BitVec 8} {cv : Option Block} {n : Option (Fin 16)}
    (hs : HoldsStream s c h dir key fs cv n) (hl : len ≠ 0) (hm : h.mode = .ecb → len.toNat % 16 = 0) :
    xformOn P c dir len data s = xformBody P c (hwSlot h dir key fs cv n) h data (s.enter .check) := by
  rw [xformOn_ready hs rfl rfl rfl, if_neg (by simp), if_neg (fun h => h.2 (hm h.1)), if_neg hl]

/-- Everything RELEASE can do (R158). -/
theorem release_cases {c : BitVec 8} {s t : State} (h : exec (.release c) s = .next t) :
    (s.slot? c = none ∧ t = raise .errIllegalCmd s) ∨
    (∃ x, s.slot? c = some x ∧ x.state = .empty ∧ t = raise .errNoContext s) ∨
    (∃ x, s.slot? c = some x ∧ x.state = .ready ∧
      t = finish ⟨statusWord .ok false, []⟩ (s.setSlot c Slot.cleared)) := by
  cases h
  unfold releaseSlot
  cases hx : s.slot? c with
  | none => exact .inl ⟨rfl, rfl⟩
  | some x =>
    right
    cases hr : x.state with
    | empty => exact .inl ⟨x, rfl, hr, by simp [hr]⟩
    | ready => exact .inr ⟨x, rfl, hr, by simp [hr]; rfl⟩

/-! ### Steps -/

/-- Everything a step that answers a next state can be (R80, R276): idle, a command, or the answer to an
illegal word. -/
theorem step_cases {s t : State} (h : step s = .next t) :
    (s.commandPort = [] ∧ t = s) ∨
    ∃ f rest, s.commandPort = f :: rest ∧
      ((∃ i, decode f = .ok i ∧ exec i { s with commandPort := rest } = .next t) ∨
        t = raise .errIllegalCmd { s with commandPort := rest }) := by
  unfold step fetch at h
  cases hp : s.commandPort with
  | nil => simp [hp] at h; exact .inl ⟨rfl, h.symm⟩
  | cons f rest =>
    right
    refine ⟨f, rest, rfl, ?_⟩
    simp only [hp] at h
    cases hd : decode f with
    | ok i => simp [hd] at h; exact .inl ⟨i, rfl, h⟩
    | error e =>
      right
      cases e with
      | illegalWord => simp [hd] at h; exact h.symm
      | operandMismatch =>
        simp only [hd] at h
        by_cases hc : (fieldCtx f.word).toNat < s.ctx.length <;> simp_all

/-! ### What a command depends on -/

/-- Two outcomes, from `s` and from `s'`, that answer the same and write the same to slot `c`. -/
def SameEffect (c : BitVec 8) (s s' : State) (a b : Result) : Prop :=
  (∃ r, a = .next (finish r s) ∧ b = .next (finish r s')) ∨
  (∃ r y, a = .next (finish r (s.setSlot c y)) ∧ b = .next (finish r (s'.setSlot c y))) ∨
  (∃ f, a = .fault f ∧ b = .fault f)

theorem sameEffect_populateSw (P : Platform) (m : Mode) (c : BitVec 8) (k : KeySize) (dir : Direction)
    (key : Bytes) (iv : Option Block) (s s' : State) :
    SameEffect c s s' (.next (populateSw P m c k dir key iv s)) (.next (populateSw P m c k dir key iv s')) := by
  unfold populateSw
  split
  · exact .inl ⟨_, rfl, rfl⟩
  · exact .inr (.inl ⟨_, _, rfl, rfl⟩)

theorem sameEffect_initFront {m : Mode} {c : BitVec 8} {k : KeySize} {s s' : State} {f f' : Engine → State}
    (hc : s.slot? c = s'.slot? c) (hcaps : s.caps = s'.caps)
    (hf : ∀ e, SameEffect c s s' (.next (f e)) (.next (f' e))) :
    SameEffect c s s' (.next (initFront m c k s f)) (.next (initFront m c k s' f')) := by
  unfold initFront
  rw [hc, hcaps]
  split
  · exact .inl ⟨_, rfl, rfl⟩
  · split
    · exact .inl ⟨_, rfl, rfl⟩
    · split
      · exact .inl ⟨_, rfl, rfl⟩
      · exact hf _

theorem sameEffect_readField {α : Type} {c : BitVec 8} {s s' : State} (f : SlotField) (v : Option α)
    {k k' : α → Result} (h : ∀ a, SameEffect c s s' (k a) (k' a)) :
    SameEffect c s s' (readField f v k) (readField f v k') := by
  cases v with
  | none => exact .inr (.inr ⟨_, rfl, rfl⟩)
  | some a => exact h a

theorem sameEffect_carouselBody (P : Platform) (mux : FeedbackMux) (c : BitVec 8) (x : Slot) (fs : BitVec 8)
    (key : Bytes) (cv : Block) (n : Fin 16) (data : Bytes) (s s' : State) :
    SameEffect c s s' (.next (carouselBody P mux c x fs key cv n data (s.enter .check)))
      (.next (carouselBody P mux c x fs key cv n data (s'.enter .check))) := by
  unfold carouselBody
  simp only
  split
  · exact .inl ⟨_, rfl, rfl⟩
  · split
    · exact .inl ⟨_, rfl, rfl⟩
    · exact .inr (.inl ⟨_, _, rfl, rfl⟩)

theorem sameEffect_xformBody (P : Platform) (c : BitVec 8) (x : Slot) (h : Engine) (data : Bytes)
    (s s' : State) :
    SameEffect c s s' (xformBody P c x h data (s.enter .check)) (xformBody P c x h data (s'.enter .check)) := by
  cases h
  · refine sameEffect_readField _ _ fun _ => sameEffect_readField _ _ fun _ => ?_
    split
    · exact .inl ⟨_, rfl, rfl⟩
    · exact .inr (.inl ⟨_, _, rfl, rfl⟩)
  · exact sameEffect_readField _ _ fun _ => sameEffect_readField _ _ fun _ => sameEffect_readField _ _ fun _ =>
      sameEffect_readField _ _ fun _ => sameEffect_carouselBody _ _ _ _ _ _ _ _ _ _ _
  · exact sameEffect_readField _ _ fun _ => sameEffect_readField _ _ fun _ => sameEffect_readField _ _ fun _ =>
      sameEffect_readField _ _ fun _ => sameEffect_readField _ _ fun _ =>
        sameEffect_carouselBody _ _ _ _ _ _ _ _ _ _ _
  · refine sameEffect_readField _ _ fun _ => sameEffect_readField _ _ fun _ => sameEffect_readField _ _ fun _ => ?_
    simp only
    split
    · exact .inl ⟨_, rfl, rfl⟩
    · exact .inr (.inl ⟨_, _, rfl, rfl⟩)
  · refine sameEffect_readField _ _ fun _ => ?_
    simp only
    split
    · exact .inl ⟨_, rfl, rfl⟩
    · exact .inr (.inl ⟨_, _, rfl, rfl⟩)

end Sys2Proof.Laws
end

