-- ==== Sys2Proof/Laws/PerInstr.lean ====
section
/-! SUPPORT. Laws of every command as syntax, one lemma per constructor of `Instr`. -/

namespace Sys2Proof.Laws.RowMatch

open Sys2Proof.Machine

/-- The mask column of the opcode map (R117). -/
def mask : Instr → Word
  | .initEcb _ _ _ _ => 0xFF1FFF00
  | .initOfb _ _ _ _ _ => 0xFF1FFF00
  | .initCfb128 _ _ _ _ _ => 0xFF1FFF00
  | .initCfb8 _ _ _ _ _ => 0xFF1FFF00
  | .initCfb1 _ _ _ _ _ => 0xFF1FFF00
  | .xform _ _ _ _ => 0xFF7FFF00
  | .release _ => 0xFFFFFF00

/-- The match column of the opcode map (R117). -/
def pattern : Instr → Word
  | .initEcb _ _ _ _ => 0x10000000
  | .initOfb _ _ _ _ _ => 0x11000000
  | .initCfb128 _ _ _ _ _ => 0x12000000
  | .initCfb8 _ _ _ _ _ => 0x13000000
  | .initCfb1 _ _ _ _ _ => 0x14000000
  | .xform _ _ _ _ => 0x20000000
  | .release _ => 0x30000000

/-- The command word of a command matches its row, and names its slot in bits 7:0 (R106, R117). -/
def Statement (i : Instr) : Prop :=
  encodeWord i &&& mask i = pattern i ∧ fieldCtx (encodeWord i) = i.slot

/-- An INIT word under the mask of the INIT rows. -/
theorem init_masked (m : BitVec 4) (d : Bool) (k : BitVec 2) (c : BitVec 8) :
    packWord 1 m d k c &&& 0xFF1FFF00 = packWord 1 m false 0 0 := by
  apply BitVec.eq_of_getLsbD_eq
  intro i hi
  simp only [packWord]
  interval_cases i <;> simp

theorem initEcb (c : BitVec 8) (ks : KeySize) (dir : Direction) (key : Bytes) :
    Statement (.initEcb c ks dir key) :=
  ⟨(init_masked _ _ _ _).trans rfl, (packWord_fields _ _ _ _ _).2.2.2.2.2⟩

theorem initOfb (c : BitVec 8) (ks : KeySize) (dir : Direction) (key : Bytes) (iv : Block) :
    Statement (.initOfb c ks dir key iv) :=
  ⟨(init_masked _ _ _ _).trans rfl, (packWord_fields _ _ _ _ _).2.2.2.2.2⟩

theorem initCfb128 (c : BitVec 8) (ks : KeySize) (dir : Direction) (key : Bytes) (iv : Block) :
    Statement (.initCfb128 c ks dir key iv) :=
  ⟨(init_masked _ _ _ _).trans rfl, (packWord_fields _ _ _ _ _).2.2.2.2.2⟩

theorem initCfb8 (c : BitVec 8) (ks : KeySize) (dir : Direction) (key : Bytes) (iv : Block) :
    Statement (.initCfb8 c ks dir key iv) :=
  ⟨(init_masked _ _ _ _).trans rfl, (packWord_fields _ _ _ _ _).2.2.2.2.2⟩

theorem initCfb1 (c : BitVec 8) (ks : KeySize) (dir : Direction) (key : Bytes) (iv : Block) :
    Statement (.initCfb1 c ks dir key iv) :=
  ⟨(init_masked _ _ _ _).trans rfl, (packWord_fields _ _ _ _ _).2.2.2.2.2⟩

theorem xform (c : BitVec 8) (dir : Direction) (len : Word) (data : Bytes) :
    Statement (.xform c dir len data) := by
  refine ⟨?_, (packWord_fields _ _ _ _ _).2.2.2.2.2⟩
  apply BitVec.eq_of_getLsbD_eq
  intro i hi
  simp only [encodeWord, mask, pattern, packWord]
  interval_cases i <;> simp

theorem release (c : BitVec 8) : Statement (.release c) := by
  refine ⟨?_, (packWord_fields _ _ _ _ _).2.2.2.2.2⟩
  apply BitVec.eq_of_getLsbD_eq
  intro i hi
  simp only [encodeWord, mask, pattern, packWord]
  interval_cases i <;> simp

end Sys2Proof.Laws.RowMatch
end

