-- ==== Sys2Proof/Tests/Slice0.lean ====
section
/-! SUPPORT. Tests: the checks of WellFormed, words decoded bit by bit, vectors of spec/95_test_vectors.md
one command at a time, and for every statement with hypotheses a state and operands that meet them. -/

namespace Sys2Proof.Tests

open Sys2Proof.Machine Sys2Proof.Safety

-- One theorem at a time: this file holds many short ones, and each would take a thread of its own.
set_option Elab.async false

/-! ### Fixtures (95_test_vectors.md section 1.1) -/

/-- Bytes `0, 1, ..`, `n` of them: `K16`, `K24`, `K32`. -/
def keyBytes (n : Nat) : Bytes := (List.range n).map (BitVec.ofNat 8)

def k16 : Bytes := keyBytes 16
def z16 : Block := Vector.replicate 16 0
def ivA : Block := blockOfBytes ((List.range 16).map fun i => BitVec.ofNat 8 (0x10 + i))
def x1 : Bytes := (List.range 16).map fun i => BitVec.ofNat 8 (0x11 * i)
def kB : Bytes := [0x3c, 0x2d, 0x1e, 0x0f, 0xf0, 0xe1, 0xd2, 0xc3, 0xb4, 0xa5, 0x96, 0x87, 0x78, 0x69, 0x5a, 0x4b]

/-- `TOY_E`. -/
def toyE (k : Bytes) (x : Block) : Block :=
  blockOfBytes ((List.range 16).map fun i =>
    (x.toList.getD ((i + 1) % 16) 0 ^^^ k.getD i 0) + k.getD (k.length - 16 + i) 0 + BitVec.ofNat 8 (i + 1))

/-- `TOY_D`. -/
def toyD (k : Bytes) (y : Block) : Block :=
  blockOfBytes ((List.range 16).map fun j =>
    let i := (j + 15) % 16
    (y.toList.getD i 0 - BitVec.ofNat 8 (i + 1) - k.getD (k.length - 16 + i) 0) ^^^ k.getD i 0)

/-- The toy block functions; the software engine is none of the vectors' and echoes its input. -/
def toy : Platform where
  blockE := toyE
  blockD := toyD
  primFails := fun _ _ _ _ => false
  swInit := fun _ _ _ key _ => some ⟨key⟩
  swXform := fun st data => some (data, ⟨st.image ++ data⟩)

/-- Four EMPTY slots and every capability. -/
def fresh : State := State.afterReset 4 0x7FFFFFF

/-- The same with contents in slot 0. -/
def holding (x : Slot) : State := fresh.setSlot 0 x

def ecbSlot : Slot := hwSlot .hwEcb .encrypt k16 0x00 none none
def ofbSlot (n : Fin 16) : Slot := hwSlot .hwOfb .encrypt k16 0x00 (some ivA) (some n)
def cfbSlot (dir : Direction) (cv : Block) (n : Fin 16) : Slot :=
  hwSlot .hwCfb128 dir k16 (fsPack 0 (dirBit dir) fbwBlock) (some cv) (some n)
def cfb8Slot : Slot := hwSlot .hwCfb8 .encrypt kB 0x08 (some ivA) (some 0)

/-- What a command answered, with the register and the offset it left in slot 0. -/
def answer (r : Result) : Option (Response × Option Bytes × Option (Fin 16)) :=
  match r with
  | .next t => do
    let p ← lastResponse t
    let x ← t.slot? 0
    pure (p, x.feedbackRegister.map Vector.toList, x.residualOffset)
  | .fault _ => none
  | .refused _ => none

/-- The next state of an outcome. -/
def next? (r : Result) : Option State :=
  match r with
  | .next t => some t
  | .fault _ => none
  | .refused _ => none

/-- The fault of an outcome. -/
def fault? (r : Result) : Option Fault :=
  match r with
  | .next _ => none
  | .fault f => some f
  | .refused _ => none

/-! ### WellFormed: an ill-formed term for each check -/

theorem test_short_key_refused : wellFormed (.initEcb 0 .k128 .encrypt (keyBytes 15)) = false := by decide
theorem test_wrong_size_key_refused : wellFormed (.initOfb 0 .k192 .encrypt (keyBytes 16) ivA) = false := by decide
theorem test_long_key_refused : wellFormed (.initCfb128 0 .k256 .encrypt (keyBytes 33) ivA) = false := by decide
theorem test_empty_key_refused : wellFormed (.initCfb8 0 .k128 .encrypt [] ivA) = false := by decide
theorem test_cfb1_key_refused : wellFormed (.initCfb1 0 .k256 .decrypt (keyBytes 24) ivA) = false := by decide
theorem test_data_length_refused : wellFormed (.xform 0 .encrypt 3 [0xAA, 0xBB]) = false := by decide
theorem test_wellFormed_agrees :
    wellFormed (.initOfb 255 .k192 .decrypt (keyBytes 24) ivA) = true ∧ wellFormed (.release 7) = true ∧
      wellFormed (.xform 0 .encrypt 3 [0xAA, 0xBB, 0xCC]) = true := by decide

/-! ### Words written out from R101, R115 and V-ENC-1: OPC MODE DIR KS RSV CTX -/

theorem test_decode_init_ecb : decode ⟨0b0001_0000_1_10_0000000000000_00000001, [.bytes (keyBytes 32)]⟩ =
    .ok (.initEcb 1 .k256 .decrypt (keyBytes 32)) := by decide
theorem test_decode_init_ofb :
    decode ⟨0b0001_0001_1_01_0000000000000_00000000, [.bytes (keyBytes 24), .bytes ivA.toList]⟩ =
    .ok (.initOfb 0 .k192 .decrypt (keyBytes 24) ivA) := by decide
theorem test_decode_init_cfb128 :
    decode ⟨0b0001_0010_1_10_0000000000000_00000011, [.bytes (keyBytes 32), .bytes ivA.toList]⟩ =
    .ok (.initCfb128 3 .k256 .decrypt (keyBytes 32) ivA) := by decide
theorem test_decode_init_cfb8 :
    decode ⟨0b0001_0011_0_01_0000000000000_00000001, [.bytes (keyBytes 24), .bytes ivA.toList]⟩ =
    .ok (.initCfb8 1 .k192 .encrypt (keyBytes 24) ivA) := by decide
theorem test_decode_init_cfb1 :
    decode ⟨0b0001_0100_1_00_0000000000000_00000010, [.bytes k16, .bytes ivA.toList]⟩ =
    .ok (.initCfb1 2 .k128 .decrypt k16 ivA) := by decide
theorem test_decode_xform : decode ⟨0b0010_0000_1_00_0000000000000_00000011, [.word 2, .bytes [1, 2]]⟩ =
    .ok (.xform 3 .decrypt 2 [1, 2]) := by decide
theorem test_decode_release : decode ⟨0b0011_0000_0_00_0000000000000_00000011, []⟩ = .ok (.release 3) := by
  decide

/-- V-ENC-1, the encodings. -/
theorem test_encode_listing :
    encodeWord (.initEcb 0 .k128 .decrypt k16) = 0x10800000 ∧
    encodeWord (.initEcb 1 .k256 .decrypt k16) = 0x10C00001 ∧
    encodeWord (.initOfb 0 .k256 .decrypt k16 ivA) = 0x11C00000 ∧
    encodeWord (.initCfb8 0 .k128 .decrypt k16 ivA) = 0x13800000 ∧
    encodeWord (.initCfb1 2 .k128 .decrypt k16 ivA) = 0x14800002 ∧
    encodeWord (.xform 1 .decrypt 0 []) = 0x20800001 ∧ encodeWord (.release 3) = 0x30000003 := by decide

/-- V-ENC-3, with `NCTX = 2`. -/
theorem test_illegal_words :
    IllegalWord 2 0x00000000 ∧ IllegalWord 2 0x40000000 ∧ IllegalWord 2 0xF0000000 ∧ IllegalWord 2 0x20000100 ∧
    IllegalWord 2 0x10100000 ∧ IllegalWord 2 0x15000000 ∧ IllegalWord 2 0x1F000000 ∧ IllegalWord 2 0x10600000 ∧
    IllegalWord 2 0x21000000 ∧ IllegalWord 2 0x20200000 ∧ IllegalWord 2 0x30800000 ∧ IllegalWord 2 0x31000000 ∧
    IllegalWord 2 0x20000002 ∧ IllegalWord 2 0x10000002 := by
  refine ⟨?_, ?_, ?_, ?_, ?_, ?_, ?_, ?_, ?_, ?_, ?_, ?_, ?_, ?_⟩ <;> unfold IllegalWord <;> decide

/-- Two EMPTY slots and every capability. -/
def two : State := State.afterReset 2 0x7FFFFFF

/-- V-ENC-3 at the port: `OPC` 15, `RSV` bit 8, `MODE` 15, `CTX = NCTX`; each is answered `0x00000006` and
nothing else changes. -/
theorem test_illegal_words_answered :
    next? (step (present ⟨0xF0000000, [.word 0]⟩ two)) = some (withResponse two 0x00000006 []) ∧
    next? (step (present ⟨0x20000100, [.word 0, .bytes []]⟩ two)) = some (withResponse two 0x00000006 []) ∧
    next? (step (present ⟨0x1F000000, []⟩ two)) = some (withResponse two 0x00000006 []) ∧
    next? (step (present ⟨0x20000002, [.word 0, .bytes []]⟩ two)) = some (withResponse two 0x00000006 []) := by
  decide

/-- R108: a key that is too short, an IV of 15 bytes, an IV for ECB, a DATA that is not LEN bytes. -/
theorem test_malformed_presentations :
    decode ⟨0x10000000, [.bytes (keyBytes 15)]⟩ = .error .operandMismatch ∧
    decode ⟨0x11000000, [.bytes k16, .bytes (keyBytes 15)]⟩ = .error .operandMismatch ∧
    decode ⟨0x10000000, [.bytes k16, .bytes ivA.toList]⟩ = .error .operandMismatch ∧
    decode ⟨0x11000000, [.bytes k16]⟩ = .error .operandMismatch ∧
    decode ⟨0x20000000, [.word 2, .bytes [1]]⟩ = .error .operandMismatch ∧
    decode ⟨0x30000000, [.word 0]⟩ = .error .operandMismatch := by decide

/-- Opcode-table words with operands of zeros. -/
theorem test_table_words :
    decodeTableWord 32 0x11200000 = some (.initOfb 0 .k192 .encrypt (List.replicate 24 0) z16) ∧
    decodeTableWord 32 0x20800002 = some (.xform 2 .decrypt 0 []) ∧
    decodeTableWord 32 0x30000005 = some (.release 5) ∧ decodeTableWord 32 0x40000000 = none := by decide +kernel

/-! ### Reset (V-RST-1) and the table's words as first commands -/

theorem test_reset_vector :
    (State.afterReset 4 0x0049009).caps = 0x00049009 ∧ (State.afterReset 4 0x7FFFFFF).caps = 0x07FFFFFF ∧
    (State.afterReset 4 0x0049009).ctx.map Slot.state = [.empty, .empty, .empty, .empty] := by decide

theorem test_first_xform_after_reset :
    step (State.reset.withFetchWord 32 0x20000000) = .next (withResponse State.reset 0x00000005 []) := rfl

theorem test_first_release_after_reset :
    step (State.reset.withFetchWord 32 0x30000000) = .next (withResponse State.reset 0x00000005 []) := rfl

/-! ### INIT (V-INIT-1, V-SEL-1, V-SEL-3) -/

theorem test_init_ecb : next? (exec (.initEcb 0 .k128 .decrypt k16) fresh) = some (withResponse
    (fresh.setSlot 0 ⟨.ready, some .hwEcb, some k16, some .decrypt, some 0x04, none, none, none⟩) 0 []) := by
  decide

theorem test_init_ofb : next? (exec (.initOfb 0 .k192 .decrypt (keyBytes 24) ivA) fresh) = some (withResponse
    (fresh.setSlot 0 ⟨.ready, some .hwOfb, some (keyBytes 24), some .decrypt, some 0x01, some ivA, some 0,
      none⟩) 0 []) := by
  decide

theorem test_init_cfb128 : next? (exec (.initCfb128 3 .k256 .decrypt (keyBytes 32) ivA) fresh) = some (withResponse
    (fresh.setSlot 3 ⟨.ready, some .hwCfb128, some (keyBytes 32), some .decrypt, some 0x86, some ivA, some 0,
      none⟩) 0 []) := by
  decide

theorem test_init_cfb8 : next? (exec (.initCfb8 1 .k192 .encrypt (keyBytes 24) ivA) fresh) = some (withResponse
    (fresh.setSlot 1 ⟨.ready, some .hwCfb8, some (keyBytes 24), some .encrypt, some 0x09, some ivA, some 0,
      none⟩) 0 []) := by
  decide

theorem test_init_cfb1 : initCfb1On toy 0 .k128 .encrypt k16 ivA (State.afterReset 4 0x1000FFF) =
    withResponse ((State.afterReset 4 0x1000FFF).setSlot 0
      ⟨.ready, some (.sw .cfb1), some k16, some .encrypt, none, none, none, some ⟨k16⟩⟩) 0x00000100 [] := by
  decide

theorem test_init_cfb1_unsupported : next? (exec (.initCfb1 1 .k192 .encrypt (keyBytes 24) ivA)
    (State.afterReset 4 0x1000FFF)) = some (withResponse (State.afterReset 4 0x1000FFF) 0x00000001 []) := by
  decide

theorem test_init_ecb_unsupported : next? (exec (.initEcb 3 .k256 .encrypt (keyBytes 32))
    (State.afterReset 4 0x0049009)) = some (withResponse (State.afterReset 4 0x0049009) 0x00000001 []) := by
  decide

theorem test_init_cfb8_slot_in_use : next? (exec (.initCfb8 0 .k128 .encrypt k16 ivA) (holding ecbSlot)) = some (withResponse (holding ecbSlot) 0x00000007 []) := by decide

/-! ### RELEASE (V-ERR-1, V-ERR-3) -/

theorem test_release : next? (exec (.release 0) (holding ecbSlot)) = some (withResponse fresh 0x00000000 []) := by
  decide

theorem test_release_empty : next? (exec (.release 1) (holding ecbSlot)) = some (withResponse (holding ecbSlot) 0x00000005 []) := by decide

/-! ### XFORM, each of its bodies and its checks -/

/-- V-ECB-4: decryption uses `D`. -/
theorem test_xform_ecb_decrypt :
    answer (xformOn toy 0 .decrypt 16 x1 (holding (hwSlot .hwEcb .decrypt k16 0x04 none none))) =
    some (⟨0, [0xef, 0xff, 0x0f, 0x1f, 0x2f, 0x3f, 0x4f, 0x5f, 0x6f, 0x7f, 0x8f, 0x9f, 0xaf, 0xbf, 0xcf, 0xdf]⟩,
      none, none) := by decide +kernel

/-- V-OFB-3 command 4: drain 11, bulk 16, tail 3. -/
theorem test_xform_ofb_three_phases :
    answer (xformOn toy 0 .encrypt 30 ((List.range 30).map fun i => BitVec.ofNat 8 (0xA0 + 5 * (i + 5)))
      (holding (hwSlot .hwOfb .encrypt k16 0x00 (some (toyE k16 ivA)) (some 5)))) =
    some (⟨0, [0xa7, 0xa0, 0xed, 0xea, 0xeb, 0xf4, 0xf9, 0xf6, 0xcf, 0xc8, 0xd5, 0xe7, 0xef, 0xdb, 0xdf, 0x27,
        0x2f, 0x3b, 0x27, 0x27, 0x5f, 0x1b, 0x1f, 0x17, 0x0f, 0x7b, 0x07, 0x5b, 0x66, 0x6d]⟩,
      some [0x1b, 0x23, 0x27, 0x27, 0x2b, 0x3b, 0x3f, 0x47, 0x5b, 0x43, 0x47, 0x47, 0x4b, 0x5b, 0x4f, 0x37],
      some 3) := by decide +kernel

/-- V-CFB128-3 command 2: all three phases of an Encrypt context. -/
theorem test_xform_cfb128_three_phases :
    answer (xformOn toy 0 .encrypt 28 ((List.range 28).map fun i => BitVec.ofNat 8 (7 * (i + 5) + 3))
      (holding (cfbSlot .encrypt (blockOfBytes [0x11, 0x1c, 0x07, 0x06, 0x05, 0x1e, 0x1e, 0x2e, 0x22, 0x26, 0x26,
        0x2e, 0x2a, 0x2e, 0x2e, 0x3e]) 5))) =
    some (⟨0, [0x38, 0x33, 0x1a, 0x19, 0x64, 0x6f, 0x7e, 0x7d, 0x70, 0x4b, 0x52, 0x6e, 0x73, 0x88, 0x85, 0xca,
        0xd7, 0xb4, 0x89, 0xd6, 0xcb, 0x30, 0x4d, 0x52, 0xaf, 0xac, 0xe1, 0x97]⟩,
      some [0x97, 0x8c, 0x8c, 0xd0, 0xdc, 0xbc, 0x9c, 0xe0, 0xd4, 0x4c, 0x5c, 0x70, 0xbc, 0xbc, 0x0c, 0x80],
      some 1) := by decide +kernel

/-- V-CFB128-5, Decrypt: the register takes the input bytes. -/
theorem test_xform_cfb128_decrypt_mux :
    answer (xformOn toy 0 .decrypt 3 [0xaa, 0xbb, 0xcc] (holding (cfbSlot .decrypt z16 0))) =
    some (⟨0, [0xab, 0xbf, 0xcb]⟩,
      some [0xaa, 0xbb, 0xcc, 0x0a, 0x0d, 0x10, 0x13, 0x16, 0x19, 0x1c, 0x1f, 0x22, 0x25, 0x28, 0x2b, 0x2e],
      some 3) := by decide +kernel

/-- V-CFB8-1. -/
theorem test_xform_cfb8 :
    answer (xformOn toy 0 .encrypt 19 ((List.range 19).map fun i => BitVec.ofNat 8 (0xA0 + 5 * i))
      (holding cfb8Slot)) =
    some (⟨0, [0xca, 0xce, 0xc6, 0xca, 0xd2, 0xde, 0xd6, 0xa2, 0xaa, 0xae, 0xb6, 0x8a, 0x82, 0xbe, 0x86, 0xd8,
        0xdf, 0xc2, 0xc9]⟩,
      some [0xca, 0xd2, 0xde, 0xd6, 0xa2, 0xaa, 0xae, 0xb6, 0x8a, 0x82, 0xbe, 0x86, 0xd8, 0xdf, 0xc2, 0xc9],
      some 0) := by decide +kernel

/-- V-SW-4: the software engine's output comes back unchanged and its state is committed. -/
theorem test_xform_software : next? (xformOn toy 0 .decrypt 2 [0xaa, 0xbb] (holding (swSlot .cfb1 .decrypt k16 ⟨k16⟩))) =
    some (withResponse (holding (swSlot .cfb1 .decrypt k16 ⟨k16 ++ [0xaa, 0xbb]⟩)) 0 [0xaa, 0xbb]) := by
  decide +kernel

/-- V-CFB128-7 command 5: the bulk invoke fails after a drain, and nothing of the drain is kept. -/
theorem test_xform_bulk_failure :
    next? (xformOn { toy with primFails := fun _ _ _ cv => cv.isSome } 0 .encrypt 25 (keyBytes 25)
      (holding (cfbSlot .encrypt ivA 8))) =
    some (withResponse (holding (cfbSlot .encrypt ivA 8)) 0x00000003 []) := by decide +kernel

/-- V-ERR-2: direction before alignment, alignment before the primitive. -/
theorem test_xform_check_order :
    next? (exec (.xform 0 .decrypt 15 (keyBytes 15)) (holding ecbSlot)) = some (withResponse (holding ecbSlot) 0x00000004 []) ∧
    next? (exec (.xform 0 .encrypt 15 (keyBytes 15)) (holding ecbSlot)) = some (withResponse (holding ecbSlot) 0x00000002 []) ∧
    next? (exec (.xform 1 .decrypt 15 (keyBytes 15)) (holding ecbSlot)) = some (withResponse (holding ecbSlot) 0x00000005 []) := by decide

/-- U4: a read of a field that holds no value faults, in a state no run reaches. -/
theorem test_no_value_faults :
    fault? (exec (.xform 0 .encrypt 1 [0]) (holding { ofbSlot 0 with feedbackRegister := none })) =
      some (.noValue .feedbackRegister) := by decide

/-! ### Witnesses: for each statement with hypotheses, inputs that meet all of them -/

/-- A frame that carries a RELEASE of slot 1. -/
def releaseFrame : Frame := ⟨0x30000001, []⟩

/-- A platform whose primitive flips bits, its own inverse, and never fails. -/
def flip : Platform := { toy with blockE := fun _ x => x.map (· ^^^ 0xA5), blockD := fun _ x => x.map (· ^^^ 0xA5) }

/-- A platform whose key stream is zero, with a software OFB engine that returns its input. -/
def zeroStream : Platform :=
  { toy with
    blockE := fun _ _ => z16
    swInit := fun m _ _ key iv => if m = .ofb ∧ iv.isSome = true then some ⟨key⟩ else none
    swXform := fun st d => some (d, st) }

theorem ok_fresh : StateOk fresh := by decide +kernel
theorem ok_ecb : StateOk (holding ecbSlot) := by decide +kernel
theorem ok_ofb : StateOk (holding (ofbSlot 5)) := by decide +kernel
theorem ok_cfb8 : StateOk (holding cfb8Slot) := by decide +kernel
theorem ok_two_slots : StateOk ((holding ecbSlot).setSlot 1 (ofbSlot 3)) := by decide +kernel
theorem ok_software : StateOk (holding (swSlot .cfb1 .decrypt k16 ⟨[]⟩)) := by decide +kernel
theorem ok_present {s : State} (h : StateOk s) (f : Frame) : StateOk (present f s) := h

theorem witness_DecodeOfEncode : WellFormed (.initOfb 255 .k256 .decrypt (keyBytes 32) ivA) := by decide +kernel

theorem witness_EncodeOfDecode :
    decode ⟨0x20800003, [.word 2, .bytes [1, 2]]⟩ = .ok (.xform 3 .decrypt 2 [1, 2]) := by decide +kernel

theorem witness_IllegalCommandAnswered :
    StateOk (present ⟨0x20000004, []⟩ fresh) ∧ (present ⟨0x20000004, []⟩ fresh).commandPort = [⟨0x20000004, []⟩] ∧
      IllegalWord (present ⟨0x20000004, []⟩ fresh).ctx.length 0x20000004 := by
  refine ⟨ok_present ok_fresh _, rfl, ?_⟩
  unfold IllegalWord
  decide

theorem witness_StepRunsDecodedCommand :
    (present releaseFrame fresh).commandPort = releaseFrame :: [] ∧ decode releaseFrame = .ok (.release 1) := by
  decide

theorem witness_StepIdleKeepsState : fresh.commandPort = [] := by decide +kernel

theorem witness_StepRefusesMalformedPresentation :
    (present ⟨0x30000003, [.word 0]⟩ fresh).commandPort = [⟨0x30000003, [.word 0]⟩] ∧
      decode ⟨0x30000003, [.word 0]⟩ = .error .operandMismatch ∧
      (fieldCtx 0x30000003).toNat < (present ⟨0x30000003, [.word 0]⟩ fresh).ctx.length := by decide +kernel

theorem witness_FetchWordRunsNext : decodeTableWord 32 0x30000003 = some (.release 3) := by decide +kernel

theorem witness_StepKeepsInvariant :
    StateOk (present releaseFrame (holding ecbSlot)) ∧
      ∃ t, step (present releaseFrame (holding ecbSlot)) = .next t :=
  ⟨ok_present ok_ecb _, _, rfl⟩

theorem witness_StepKeepsCapabilitiesAndSlotCount :
    ∃ t, step (present releaseFrame (holding ecbSlot)) = .next t := ⟨_, rfl⟩

theorem witness_NoCommandIsStuck : StateOk (holding (ofbSlot 5)) := ok_ofb

theorem witness_FailedCommandChangesNothing :
    StateOk (present releaseFrame (holding ecbSlot)) ∧
      step (present releaseFrame (holding ecbSlot)) = .next (withResponse (holding ecbSlot) 0x00000005 []) ∧
      (withResponse (holding ecbSlot) 0x00000005 []).responsePort =
        (present releaseFrame (holding ecbSlot)).responsePort ++ [⟨0x00000005, []⟩] ∧
      codeOf 0x00000005 ≠ 0 :=
  ⟨ok_present ok_ecb _, rfl, rfl, by decide +kernel⟩

/-- XFORM with status 2, INIT with status 1, RELEASE with status 0. -/
theorem witness_StatusesOfEachCommand :
    StateOk (holding ecbSlot) ∧
      exec (.xform 0 .encrypt 15 (keyBytes 15)) (holding ecbSlot) =
        .next (withResponse (holding ecbSlot) 0x00000002 []) ∧
      StateOk (State.afterReset 4 0) ∧
      exec (.initCfb8 3 .k192 .encrypt (keyBytes 24) ivA) (State.afterReset 4 0) =
        .next (withResponse (State.afterReset 4 0) 0x00000001 []) ∧
      exec (.release 0) (holding ecbSlot) = .next (withResponse fresh 0x00000000 []) :=
  ⟨ok_ecb, rfl, by decide +kernel, rfl, rfl⟩

theorem witness_ResponseForm : ∃ t, exec (.initOfb 0 .k192 .decrypt (keyBytes 24) ivA) fresh = .next t := ⟨_, rfl⟩

theorem witness_OneSlotFrame :
    (3 : BitVec 8) ≠ (Instr.release 0).slot ∧ ∃ t, exec (.release 0) (holding ecbSlot) = .next t :=
  ⟨by decide +kernel, _, rfl⟩

theorem witness_CommandsOnDifferentSlotsCommute :
    StateOk (holding ecbSlot) ∧ (Instr.release 0).slot ≠ (Instr.initEcb 3 .k128 .encrypt k16).slot :=
  ⟨ok_ecb, by decide⟩

theorem witness_SlotIsolation :
    (holding ecbSlot).slot? 0 = ((holding ecbSlot).setSlot 1 (ofbSlot 3)).slot? 0 ∧
      (holding ecbSlot).caps = ((holding ecbSlot).setSlot 1 (ofbSlot 3)).caps ∧
      ∃ t, exec (.release 0) (holding ecbSlot) = .next t := ⟨rfl, rfl, _, rfl⟩

theorem witness_SlotIsolationOverSequences :
    StateOk (holding ecbSlot) ∧ StateOk ((holding ecbSlot).setSlot 1 (ofbSlot 3)) ∧
      (∀ i ∈ [Instr.release 0, .release 1, .initEcb 0 .k128 .decrypt k16], WellFormed i) ∧
      (holding ecbSlot).slot? 0 = ((holding ecbSlot).setSlot 1 (ofbSlot 3)).slot? 0 ∧
      (holding ecbSlot).caps = ((holding ecbSlot).setSlot 1 (ofbSlot 3)).caps :=
  ⟨ok_ecb, ok_two_slots, by
    intro i hi
    simp only [List.mem_cons, List.not_mem_nil, or_false] at hi
    rcases hi with rfl | rfl | rfl <;> decide, rfl, rfl⟩

/-- Each clause of the rule: hardware, software (with no hardware bit at all for CFB1), none. -/
theorem witness_ArbiterRule :
    (0x00000001 : Word).getLsbD (3 * (modeCode .ecb).toNat + (ksCode .k128).toNat) = true ∧
      (0x04000FFF : Word).getLsbD (12 + 3 * (modeCode .cfb1).toNat + (ksCode .k256).toNat) = true ∧
      (0x00001000 : Word).getLsbD (3 * (modeCode .ecb).toNat + (ksCode .k128).toNat) = false ∧
      (0x00001000 : Word).getLsbD (12 + 3 * (modeCode .ecb).toNat + (ksCode .k128).toNat) = true ∧
      (0x00000FFF : Word).getLsbD (12 + 3 * (modeCode .cfb1).toNat + (ksCode .k128).toNat) = false ∧
      (KeySize.k256, 2) ∈ [(KeySize.k128, 0), (.k192, 1), (.k256, 2)] ∧
      (Engine.hwCfb8, Mode.cfb8, 9, 21) ∈ [(Engine.hwEcb, Mode.ecb, 0, 12), (.hwOfb, .ofb, 3, 15),
        (.hwCfb128, .cfb128, 6, 18), (.hwCfb8, .cfb8, 9, 21)] := by decide +kernel

/-- The example of R147: `CAPS = 0x00049009`. -/
theorem test_arbitration_example :
    select .ecb .k128 0x00049009 = some .hwEcb ∧ select .ofb .k128 0x00049009 = some .hwOfb ∧
      select .cfb128 .k128 0x00049009 = some (.sw .cfb128) ∧ select .cfb8 .k128 0x00049009 = none ∧
      select .ecb .k256 0x00049009 = none ∧ select .cfb1 .k128 0x00049009 = none := by decide +kernel

/-- For the four statements on the hardware path. -/
theorem witness_InitOnHardware :
    fresh.slot? 3 = some Slot.cleared ∧ Slot.cleared.state = .empty ∧ hwCap fresh.caps .ecb .k128 = true ∧
      hwCap fresh.caps .ofb .k192 = true ∧ hwCap fresh.caps .cfb128 .k256 = true ∧
      hwCap fresh.caps .cfb8 .k256 = true := by decide +kernel

theorem witness_InitOnSoftwarePath :
    initInstr .cfb1 0 .k128 .encrypt k16 (some ivA) = some (.initCfb1 0 .k128 .encrypt k16 ivA) ∧
      initInstr .ecb 3 .k128 .encrypt k16 none = some (.initEcb 3 .k128 .encrypt k16) ∧
      (State.afterReset 4 0x1001000).slot? 3 = some Slot.cleared ∧ Slot.cleared.state = .empty ∧
      hwCap (State.afterReset 4 0x1001000).caps .cfb1 .k128 = false ∧
      swCap (State.afterReset 4 0x1001000).caps .cfb1 .k128 = true ∧
      hwCap (State.afterReset 4 0x1001000).caps .ecb .k128 = false ∧
      swCap (State.afterReset 4 0x1001000).caps .ecb .k128 = true := by decide +kernel

/-- Each clause: slot 4 of 4, a READY slot, the bit clear, the bit set. -/
theorem witness_InitCfb1Command :
    StateOk (holding ecbSlot) ∧ (holding ecbSlot).ctx.length ≤ (4 : BitVec 8).toNat ∧
      (holding ecbSlot).slot? 0 = some ecbSlot ∧ ecbSlot.state = .ready ∧
      (holding ecbSlot).slot? 3 = some Slot.cleared ∧ Slot.cleared.state = .empty ∧
      (holding ecbSlot).caps.getLsbD (24 + (ksCode .k256).toNat) = true ∧
      StateOk (State.afterReset 4 0x0FFFFFF) ∧ (State.afterReset 4 0x0FFFFFF).slot? 3 = some Slot.cleared ∧
      (State.afterReset 4 0x0FFFFFF).caps.getLsbD (24 + (ksCode .k128).toNat) = false :=
  ⟨ok_ecb, by decide, rfl, rfl, rfl, rfl, by decide, by decide +kernel, rfl, by decide⟩

/-- Each clause: slot 4 of 4, a READY slot, no engine. -/
theorem witness_InitRejections :
    StateOk (holding ecbSlot) ∧
      initInstr .ofb 4 .k128 .encrypt k16 (some ivA) = some (.initOfb 4 .k128 .encrypt k16 ivA) ∧
      (holding ecbSlot).ctx.length ≤ (4 : BitVec 8).toNat ∧
      (holding ecbSlot).slot? 0 = some ecbSlot ∧ ecbSlot.state = .ready ∧
      StateOk (State.afterReset 4 0x00020) ∧ (State.afterReset 4 0x00020).slot? 3 = some Slot.cleared ∧
      hwCap (State.afterReset 4 0x00020).caps .ofb .k192 = false ∧
      swCap (State.afterReset 4 0x00020).caps .ofb .k192 = false :=
  ⟨ok_ecb, rfl, by decide, rfl, rfl, by decide +kernel, rfl, by decide, by decide⟩

/-- Each clause of RELEASE, and the first two of XFORM: slot 4 of 4, an EMPTY slot, a READY slot. -/
theorem witness_ReleaseCommand :
    StateOk (holding ecbSlot) ∧ (holding ecbSlot).ctx.length ≤ (4 : BitVec 8).toNat ∧
      (holding ecbSlot).slot? 3 = some Slot.cleared ∧ Slot.cleared.state = .empty ∧
      (holding ecbSlot).slot? 0 = some ecbSlot ∧ ecbSlot.state = .ready :=
  ⟨ok_ecb, by decide, rfl, rfl, rfl, rfl⟩

/-- The last two clauses: the other direction, and lengths 1 and 15 past a whole block. -/
theorem witness_XformRejections :
    StateOk (holding ecbSlot) ∧ (holding ecbSlot).slot? 0 = some ecbSlot ∧ ecbSlot.state = .ready ∧
      ecbSlot.direction ≠ some .decrypt ∧ ecbSlot.direction = some .encrypt ∧ ecbSlot.engine = some .hwEcb ∧
      Engine.hwEcb.mode = .ecb ∧ (17 : Word).toNat % 16 ≠ 0 ∧ (31 : Word).toNat % 16 ≠ 0 :=
  ⟨ok_ecb, rfl, rfl, by decide, rfl, rfl, rfl, by decide, by decide⟩

/-- Each clause: passing the checks, EMPTY, the other direction. -/
theorem witness_XformZeroLength :
    StateOk (holding (ofbSlot 5)) ∧ (holding (ofbSlot 5)).slot? 0 = some (ofbSlot 5) ∧
      (ofbSlot 5).state = .ready ∧ (ofbSlot 5).direction = some .encrypt ∧
      (ofbSlot 5).direction ≠ some .decrypt ∧ (holding (ofbSlot 5)).slot? 3 = some Slot.cleared ∧
      Slot.cleared.state = .empty :=
  ⟨ok_ofb, rfl, rfl, rfl, by decide, rfl, rfl⟩

theorem witness_XformEcbResult :
    k16.length = KeySize.k128.bytes ∧ selectorOf .hwEcb .encrypt .k128 = some 0x00 ∧
      HoldsStream (holding ecbSlot) 0 .hwEcb .encrypt k16 0x00 none none ∧
      WellFormed (.xform 0 .encrypt 16 x1) ∧ (16 : Word) ≠ 0 ∧ (16 : Word).toNat % 16 = 0 :=
  ⟨by decide +kernel, by decide +kernel, rfl, by decide +kernel, by decide +kernel, by decide +kernel⟩

/-- To the end of the block exactly, and one byte at its last position. -/
theorem witness_OfbDrainOnly :
    HoldsStream (holding (ofbSlot 5)) 0 .hwOfb .encrypt k16 0x00 (some ivA) (some 5) ∧ (5 : Fin 16) ≠ 0 ∧
      (11 : Word) ≠ 0 ∧ WellFormed (.xform 0 .encrypt 11 (keyBytes 11)) ∧
      (5 : Fin 16).val + (keyBytes 11).length ≤ 16 ∧
      HoldsStream (holding (ofbSlot 15)) 0 .hwOfb .encrypt k16 0x00 (some ivA) (some 15) ∧
      (15 : Fin 16).val + (keyBytes 1).length ≤ 16 :=
  ⟨rfl, by decide +kernel, by decide +kernel, by decide +kernel, by decide +kernel, rfl, by decide +kernel⟩

theorem witness_Cfb128DrainOnly :
    HoldsStream (holding (cfbSlot .decrypt ivA 5)) 0 .hwCfb128 .decrypt k16 0x84 (some ivA) (some 5) ∧
      (5 : Fin 16) ≠ 0 ∧ (11 : Word) ≠ 0 ∧ WellFormed (.xform 0 .decrypt 11 (keyBytes 11)) ∧
      (5 : Fin 16).val + (keyBytes 11).length ≤ 16 :=
  ⟨rfl, by decide +kernel, by decide +kernel, by decide +kernel, by decide +kernel⟩

/-- 5 residual, one whole block, 3 more: all three phases. -/
theorem witness_OfbCommandResult :
    k16.length = KeySize.k128.bytes ∧ selectorOf .hwOfb .encrypt .k128 = some 0x00 ∧
      HoldsStream (holding (ofbSlot 5)) 0 .hwOfb .encrypt k16 0x00 (some ivA) (some 5) ∧ (30 : Word) ≠ 0 ∧
      WellFormed (.xform 0 .encrypt 30 (keyBytes 30)) ∧ bulkOf 5 30 = 16 ∧ remOf 5 30 = 3 :=
  ⟨by decide +kernel, by decide +kernel, rfl, by decide +kernel, by decide +kernel, by decide +kernel, by decide +kernel⟩

theorem witness_Cfb128CommandResult :
    k16.length = KeySize.k128.bytes ∧ selectorOf .hwCfb128 .decrypt .k128 = some 0x84 ∧
      HoldsStream (holding (cfbSlot .decrypt ivA 5)) 0 .hwCfb128 .decrypt k16 0x84 (some ivA) (some 5) ∧
      (30 : Word) ≠ 0 ∧ WellFormed (.xform 0 .decrypt 30 (keyBytes 30)) :=
  ⟨by decide +kernel, by decide +kernel, rfl, by decide +kernel, by decide +kernel⟩

theorem witness_XformCfb8Result :
    kB.length = KeySize.k128.bytes ∧ selectorOf .hwCfb8 .encrypt .k128 = some 0x08 ∧
      HoldsStream (holding cfb8Slot) 0 .hwCfb8 .encrypt kB 0x08 (some ivA) (some 0) ∧ (19 : Word) ≠ 0 ∧
      WellFormed (.xform 0 .encrypt 19 (keyBytes 19)) :=
  ⟨by decide +kernel, by decide +kernel, rfl, by decide +kernel, by decide +kernel⟩

theorem witness_XformSoftwareResult :
    (holding (swSlot .ecb .encrypt k16 ⟨[]⟩)).slot? 0 = some (swSlot .ecb .encrypt k16 ⟨[]⟩) ∧
      WellFormed (.xform 0 .encrypt 16 x1) ∧ (16 : Word) ≠ 0 ∧ (16 : Word).toNat % 16 = 0 :=
  ⟨rfl, by decide +kernel, by decide +kernel, by decide +kernel⟩

theorem witness_XformNeverChanges :
    (holding (ofbSlot 5)).slot? 0 = some (ofbSlot 5) ∧ (3 : BitVec 8) ≠ 0 ∧
      ∃ t, exec (.xform 0 .encrypt 2 [1, 2]) (holding (ofbSlot 5)) = .next t := ⟨rfl, by decide +kernel, _, rfl⟩

theorem toy_keepsLength : SoftwareKeepsLength toy := by
  intro st data out st' _ h
  simp [toy] at h
  rw [h.1]

theorem witness_XformOutputLength :
    SoftwareKeepsLength toy ∧ StateOk (holding (ofbSlot 5)) ∧ WellFormed (.xform 0 .encrypt 2 [1, 2]) ∧
      ∃ t out, xformOn toy 0 .encrypt 2 [1, 2] (holding (ofbSlot 5)) = .next t ∧ okOutput t = some out :=
  ⟨toy_keepsLength, ok_ofb, by decide +kernel, _, _, rfl, rfl⟩

/-- A block, and one byte of CFB8; with rows of R68 that are reserved (no vector and `FBW` 1, a vector with `FBW` 0
and `DEC` 1, a vector with `FBW` 2) beside the three it has for `FBW` 0. -/
theorem witness_PrimitiveFailsExactly :
    0 < x1.length ∧ x1.length % 16 = 0 ∧ 0 < ([0xAA] : Bytes).length ∧ (some ivA).isSome = true ∧
      fsFbw 0x0C = 1 ∧ primKind 0x08 none = none ∧ primKind 0x04 (some ivA) = none ∧
      primKind 0x10 (some ivA) = none ∧ primKind 0x04 none = some .block ∧ primKind 0x00 none = some .block ∧
      primKind 0x00 (some ivA) = some .ofb := by decide

/-- A run is some state and some output, since it is not `none`. -/
theorem run_exists {P : Platform} {c : BitVec 8} {dir : Direction} {chunks : List Bytes} {s : State}
    (h : (runChunks P c dir chunks s).isSome = true) : ∃ t o, runChunks P c dir chunks s = some (t, o) := by
  obtain ⟨⟨t, o⟩, h⟩ := Option.isSome_iff_exists.mp h
  exact ⟨t, o, h⟩

/-- 33 bytes cut as 5, 0, 16, 12 (R257). -/
def cut33 : List Bytes := [keyBytes 5, [], keyBytes 16, keyBytes 12]

theorem witness_StreamMatchesReference :
    selectorOf .hwOfb .encrypt .k128 = some 0x00 ∧
      HoldsStream (holding (ofbSlot 5)) 0 .hwOfb .encrypt k16 0x00 (some ivA) (some 5) ∧
      ChunksOk Engine.hwOfb.mode cut33 ∧
      ∃ t out, runChunks flip 0 .encrypt cut33 (holding (ofbSlot 5)) = some (t, out) :=
  ⟨by decide +kernel, rfl, by decide +kernel, run_exists (by decide +kernel)⟩

theorem witness_ChunkInvariance :
    StateOk (holding cfb8Slot) ∧ (holding cfb8Slot).slot? 0 = some cfb8Slot ∧ cfb8Slot.engine = some .hwCfb8 ∧
      Engine.hwCfb8.path = .hw ∧ ChunksOk Engine.hwCfb8.mode cut33 ∧
      ChunksOk Engine.hwCfb8.mode [cut33.flatten] ∧ cut33.flatten = [cut33.flatten].flatten ∧
      (∃ t o, runChunks flip 0 .encrypt cut33 (holding cfb8Slot) = some (t, o)) ∧
      ∃ u o, runChunks flip 0 .encrypt [cut33.flatten] (holding cfb8Slot) = some (u, o) :=
  ⟨ok_cfb8, rfl, rfl, rfl, by decide +kernel, by decide +kernel, by decide +kernel,
    run_exists (by decide +kernel), run_exists (by decide +kernel)⟩

theorem witness_StreamsSucceed :
    NeverFails toy ∧ StateOk (holding (ofbSlot 5)) ∧ (holding (ofbSlot 5)).slot? 0 = some (ofbSlot 5) ∧
      (ofbSlot 5).engine = some .hwOfb ∧ Engine.hwOfb.path = .hw ∧ (ofbSlot 5).direction = some .encrypt ∧
      ChunksOk Engine.hwOfb.mode cut33 :=
  ⟨fun _ _ _ _ => rfl, ok_ofb, rfl, rfl, rfl, rfl, by decide +kernel⟩

/-- For the closed form and for the stream function of OFB. -/
theorem witness_OfbClosedForms :
    selectorOf .hwOfb .encrypt .k128 = some 0x00 ∧
      HoldsStream (holding (ofbSlot 0)) 0 .hwOfb .encrypt k16 0x00 (some ivA) (some 0) ∧
      ChunksOk .ofb cut33 ∧ ∃ t out, runChunks flip 0 .encrypt cut33 (holding (ofbSlot 0)) = some (t, out) :=
  ⟨by decide +kernel, rfl, by decide +kernel, run_exists (by decide +kernel)⟩

/-- For the closed form and for the stream function of CFB-128: 33 bytes, and exactly 16. -/
theorem witness_Cfb128ClosedForms :
    selectorOf .hwCfb128 .decrypt .k128 = some 0x84 ∧
      HoldsStream (holding (cfbSlot .decrypt ivA 0)) 0 .hwCfb128 .decrypt k16 0x84 (some ivA) (some 0) ∧
      ChunksOk .cfb128 cut33 ∧
      (∃ t out, runChunks flip 0 .decrypt cut33 (holding (cfbSlot .decrypt ivA 0)) = some (t, out)) ∧
      ChunksOk .cfb128 [x1] ∧
      ∃ t out, runChunks flip 0 .decrypt [x1] (holding (cfbSlot .decrypt ivA 0)) = some (t, out) :=
  ⟨by decide +kernel, rfl, by decide +kernel, run_exists (by decide +kernel), by decide +kernel, run_exists (by decide +kernel)⟩

theorem witness_Cfb8StreamAndRegister :
    selectorOf .hwCfb8 .encrypt .k128 = some 0x08 ∧
      HoldsStream (holding cfb8Slot) 0 .hwCfb8 .encrypt kB 0x08 (some ivA) (some 0) ∧ ChunksOk .cfb8 cut33 ∧
      ∃ t out, runChunks flip 0 .encrypt cut33 (holding cfb8Slot) = some (t, out) :=
  ⟨by decide +kernel, rfl, by decide +kernel, run_exists (by decide +kernel)⟩

/-- An Encrypt and a Decrypt context of CFB-128, the second given the first's output whole. -/
theorem witness_FeedbackModesRoundTrip :
    selectorOf .hwCfb128 .encrypt .k128 = some 0x80 ∧ selectorOf .hwCfb128 .decrypt .k128 = some 0x84 ∧
      HoldsStream (holding (cfbSlot .encrypt ivA 0)) 0 .hwCfb128 .encrypt k16 0x80 (some ivA) (some 0) ∧
      HoldsStream (holding (cfbSlot .decrypt ivA 0)) 0 .hwCfb128 .decrypt k16 0x84 (some ivA) (some 0) ∧
      ChunksOk Engine.hwCfb128.mode [[0x00, 0x01]] ∧ ChunksOk Engine.hwCfb128.mode [[0xB5], [0xB5]] ∧
      (∃ t, runChunks flip 0 .encrypt [[0x00, 0x01]] (holding (cfbSlot .encrypt ivA 0)) =
        some (t, [0xB5, 0xB5])) ∧
      (∃ u m, runChunks flip 0 .decrypt [[0xB5], [0xB5]] (holding (cfbSlot .decrypt ivA 0)) = some (u, m)) ∧
      [[0xB5], [0xB5]].flatten = ([0xB5, 0xB5] : Bytes) := by
  have hout : (runChunks flip 0 .encrypt [[0x00, 0x01]] (holding (cfbSlot .encrypt ivA 0))).map Prod.snd =
      some [0xB5, 0xB5] := by decide +kernel
  obtain ⟨t, o, h⟩ := run_exists (P := flip) (c := 0) (dir := .encrypt) (chunks := [[0x00, 0x01]])
    (s := holding (cfbSlot .encrypt ivA 0)) (by decide +kernel)
  rw [h] at hout
  cases hout
  exact ⟨by decide +kernel, by decide +kernel, rfl, rfl, by decide +kernel, by decide +kernel, ⟨t, h⟩, run_exists (by decide +kernel), rfl⟩

theorem flip_inverse : InverseD flip := by
  intro _ key x _
  apply Vector.ext
  intro i hi
  simp [flip]

theorem witness_EcbRoundTrip :
    InverseD flip ∧ NeverFails flip ∧ k16.length = KeySize.k128.bytes ∧
      selectorOf .hwEcb .encrypt .k128 = some 0x00 ∧ selectorOf .hwEcb .decrypt .k128 = some 0x04 ∧
      HoldsStream (holding ecbSlot) 0 .hwEcb .encrypt k16 0x00 none none ∧
      HoldsStream (holding (hwSlot .hwEcb .decrypt k16 0x04 none none)) 0 .hwEcb .decrypt k16 0x04 none none ∧
      (x1 ++ k16).length % 16 = 0 ∧ (x1 ++ k16).length ≤ lenMax :=
  ⟨flip_inverse, fun _ _ _ _ => rfl, by decide +kernel, by decide +kernel, by decide +kernel, rfl, rfl, by decide +kernel, by decide +kernel⟩

/-- With a zero key stream the OFB reference returns its input. -/
theorem zeroStream_reference (key msg : Bytes) (cv : Block) (n : Fin 16) (h : n = 0 ∨ cv = z16) :
    (refRun (zeroStream.blockE key) .keep msg cv n).1 = msg := by
  induction msg generalizing cv n with
  | nil => rfl
  | cons b bs ih =>
    have hv : (if n = 0 then zeroStream.blockE key cv else cv) = z16 := by
      rcases h with rfl | rfl
      · rfl
      · split <;> rfl
    have hz : ∀ k : Fin 16, z16[k] = 0 := by decide +kernel
    simp only [refRun, refStep, hv, muxPick]
    rw [ih _ _ (.inr (by simp))]
    simp [hz]

theorem zeroStream_equivalent : SoftwareEquivalent zeroStream := by
  intro m ks dir key iv st hm _ hk hi chunks st' out _ _ hr
  have hofb : m = .ofb := by
    by_contra h
    simp [zeroStream, h] at hi
  subst hofb
  have hout : ∀ (l : List Bytes) (a b : SwState) (o : Bytes), swRun zeroStream a l = some (b, o) → o = l.flatten := by
    intro l
    induction l with
    | nil => intro a b o h; cases h; rfl
    | cons d ds ih =>
      intro a b o h
      simp only [swRun, zeroStream] at h
      split at h
      · cases h
      · rename_i u os hu
        cases h
        rw [ih _ _ _ hu, List.flatten_cons]
  rw [hout _ _ _ _ hr]
  cases iv with
  | none => simp [zeroStream] at hi
  | some v => exact congrArg some (zeroStream_reference key _ v 0 (.inl rfl))

theorem witness_SoftwareEquivalence :
    SoftwareEquivalent zeroStream ∧ hwEngine .ofb = some .hwOfb ∧ k16.length = KeySize.k128.bytes ∧
      selectorOf .hwOfb .encrypt .k128 = some 0x00 ∧ Mode.ofb ≠ .ecb ∧ (some ivA).isSome = true ∧
      HoldsStream (holding (ofbSlot 0)) 0 .hwOfb .encrypt k16 0x00 (some ivA) (some 0) ∧ ChunksOk .ofb cut33 ∧
      ChunksOk .ofb [cut33.flatten] ∧ cut33.flatten ≠ [] ∧
      zeroStream.swInit .ofb .k128 .encrypt k16 (some ivA) = some ⟨k16⟩ ∧
      swRun zeroStream ⟨k16⟩ [cut33.flatten] = some (⟨k16⟩, cut33.flatten) ∧
      ∃ t o, runChunks zeroStream 0 .encrypt cut33 (holding (ofbSlot 0)) = some (t, o) :=
  ⟨zeroStream_equivalent, rfl, by decide +kernel, by decide +kernel, by decide +kernel, rfl, rfl, by decide +kernel, by decide +kernel,
    by decide +kernel, rfl, by decide +kernel, run_exists (by decide +kernel)⟩

end Sys2Proof.Tests
end

section
/-! The dispatch of `exec`: each command that touches the primitive or the software engine runs its
platform-generic meaning at `Config.platform`. Proofs about such a command rewrite with these equations and
then cite the lemma about the generic meaning. -/

namespace Sys2Proof.Proofs

open Sys2Proof.Machine

variable (c : BitVec 8) (ks : KeySize) (dir : Direction) (key : Bytes) (iv : Block) (len : Word)
  (data : Bytes) (s : State)

@[simp] theorem exec_xform :
    exec (.xform c dir len data) s = xformOn Config.platform c dir len data s := rfl

@[simp] theorem exec_initEcb :
    exec (.initEcb c ks dir key) s = .next (initEcbOn Config.platform c ks dir key s) := rfl

@[simp] theorem exec_initOfb :
    exec (.initOfb c ks dir key iv) s = .next (initOfbOn Config.platform c ks dir key iv s) := rfl

@[simp] theorem exec_initCfb128 :
    exec (.initCfb128 c ks dir key iv) s =
      .next (initCfb128On Config.platform c ks dir key iv s) := rfl

@[simp] theorem exec_initCfb8 :
    exec (.initCfb8 c ks dir key iv) s = .next (initCfb8On Config.platform c ks dir key iv s) := rfl

@[simp] theorem exec_initCfb1 :
    exec (.initCfb1 c ks dir key iv) s = .next (initCfb1On Config.platform c ks dir key iv s) := rfl

/-- Settles O12: one dispatch equation of `exec` for each of the six commands. -/
theorem commandsRunOnThePlatform : Obligations.CommandsRunOnThePlatform :=
  fun c ks dir key iv len data s =>
    ⟨exec_xform c dir len data s, exec_initEcb c ks dir key s, exec_initOfb c ks dir key iv s,
      exec_initCfb128 c ks dir key iv s, exec_initCfb8 c ks dir key iv s,
      exec_initCfb1 c ks dir key iv s⟩

end Sys2Proof.Proofs
end

section
/-! Reset (10_state.md R38, 70_reset_and_hazards.md R300): its slots, its `CAPS`, and the invariant. -/

namespace Sys2Proof.Proofs

open Sys2Proof.Machine Sys2Proof.Safety

/-- R6: the engine has at least one slot. -/
theorem one_le_nctx : 1 ≤ Config.nctx := Nat.le_add_left 1 _

/-- R6, R106: `CTX` can name every slot. -/
theorem nctx_le_256 : Config.nctx ≤ 256 := Config.nctxLessOne.isLt

/-- The capability input reads back from `CAPS` (R33, R300). -/
theorem caps_low_bits (capIn : BitVec 27) : (capIn.setWidth 32).extractLsb' 0 27 = capIn := by
  ext i hi
  simp [hi, Nat.lt_trans hi (by decide : 27 < 32)]

/-- Zero extension leaves the reserved bits of `CAPS` 0 (R33, R300). -/
theorem caps_reserved_bits (capIn : BitVec 27) : (capIn.setWidth 32).extractLsb' 27 5 = 0 := by
  ext i hi
  simp

/-- Every slot of a reset machine is the EMPTY one (R300). -/
theorem slot_of_afterReset {n : Nat} {capIn : BitVec 27} {x : Slot}
    (hx : x ∈ (State.afterReset n capIn).ctx) : x = Slot.cleared :=
  List.eq_of_mem_replicate hx

@[simp] theorem afterReset_length (n : Nat) (capIn : BitVec 27) :
    (State.afterReset n capIn).ctx.length = n := List.length_replicate

/-- An EMPTY slot without values is as R22 asks. -/
theorem slotOk_cleared : SlotOk Slot.cleared :=
  ⟨fun _ => rfl, fun h => nomatch h⟩

/-- Reset establishes the invariant for every slot count of R6 and every capability input. -/
theorem stateOk_afterReset {n : Nat} (capIn : BitVec 27) (hpos : 1 ≤ n) (hle : n ≤ 256) :
    StateOk (State.afterReset n capIn) := by
  refine ⟨by simpa using hpos, by simpa using hle, fun x hx => ?_, caps_reserved_bits capIn, rfl, rfl⟩
  rw [slot_of_afterReset hx]
  exact slotOk_cleared

/-- Settles O13: reset with the parameters of `Config`, whose slot count is in the bounds of R6. -/
theorem resetMeetsInvariant : Obligations.ResetMeetsInvariant :=
  stateOk_afterReset Config.capIn one_le_nctx nctx_le_256

/-- Settles O14, field by field of R300: every slot is `Slot.cleared`, `CAPS` is the zero-extended input. -/
theorem resetLeavesListedValues : Obligations.ResetLeavesListedValues := by
  refine ⟨afterReset_length _ _, one_le_nctx, nctx_le_256, fun x hx => ?_, caps_low_bits _,
    caps_reserved_bits _, rfl, rfl, rfl, rfl, rfl⟩
  rw [slot_of_afterReset hx]
  exact ⟨rfl, rfl, rfl, rfl, rfl, rfl, rfl, rfl⟩

end Sys2Proof.Proofs
end

section
/-! The frame of a command and of a step (10_state.md R21, R37): `exec_shape` says that a command ends with one
response after at most one write of the slot it names, and everything else is unchanged. -/

namespace Sys2Proof.Proofs

open Sys2Proof.Machine Sys2Proof.Laws

@[simp] theorem finish_slot (r : Response) (s : State) (c : BitVec 8) : (finish r s).slot? c = s.slot? c := rfl

/-- Settles O22: neither shape of a command's end writes anything but the slot it names. -/
theorem oneSlotFrame : Obligations.OneSlotFrame := by
  intro s t i h
  obtain ⟨r, rfl | ⟨x, y, -, rfl⟩⟩ := exec_shape h
  · exact ⟨fun _ _ => rfl, rfl, rfl, rfl⟩
  · exact ⟨fun d hd => setSlot_slot_other hd, rfl, setSlot_length s i.slot y, rfl⟩

/-- Settles O16: an idle step, a command (by its frame) and the answer to an illegal word all keep both. -/
theorem stepKeepsCapabilitiesAndSlotCount : Obligations.StepKeepsCapabilitiesAndSlotCount := by
  intro s t h
  rcases step_cases h with ⟨-, rfl⟩ | ⟨f, rest, -, ⟨i, -, hrun⟩ | rfl⟩
  · exact ⟨rfl, rfl⟩
  · obtain ⟨-, hcaps, hlength, -⟩ := oneSlotFrame _ _ _ hrun
    exact ⟨hcaps, hlength⟩
  · exact ⟨rfl, rfl⟩

end Sys2Proof.Proofs
end

section
/-! Slot isolation (10_state.md R21, 48_stream_laws.md R260): in two states that agree on the named slot and on
`CAPS`, every command has the same effect (`SameEffect`). -/

namespace Sys2Proof.Proofs

open Sys2Proof.Machine Sys2Proof.Laws

variable {c : BitVec 8} {s s' : State}

/-- Reading the slot just written, whether it is there or not. -/
theorem setSlot_slot_map (c : BitVec 8) (y : Slot) (s : State) :
    (s.setSlot c y).slot? c = (s.slot? c).map fun _ => y :=
  List.getElem?_set_self'

/-- An INIT with a hardware path: the handle alone decides which of the two populate steps runs. -/
theorem sameEffect_populateByPath (P : Platform) (m : Mode) (k : KeySize) (dir : Direction) (key : Bytes)
    (iv : Option Block) (e : Engine) (y : Slot) :
    SameEffect c s s'
      (.next (match e.path with
        | .hw => populateHw c y s
        | .sw => populateSw P m c k dir key iv s))
      (.next (match e.path with
        | .hw => populateHw c y s'
        | .sw => populateSw P m c k dir key iv s')) := by
  cases e.path with
  | hw => exact .inr (.inl ⟨_, _, rfl, rfl⟩)
  | sw => exact sameEffect_populateSw P m c k dir key iv s s'

theorem sameEffect_xformOn (P : Platform) (dir : Direction) (len : Word) (data : Bytes)
    (hc : s.slot? c = s'.slot? c) :
    SameEffect c s s' (xformOn P c dir len data s) (xformOn P c dir len data s') := by
  simp only [xformOn, enter_slot, hc]
  cases s'.slot? c with
  | none => exact .inl ⟨_, rfl, rfl⟩
  | some x =>
    dsimp only
    split
    · exact .inl ⟨_, rfl, rfl⟩
    · refine sameEffect_readField _ _ fun d => sameEffect_readField _ _ fun h => ?_
      split
      · exact .inl ⟨_, rfl, rfl⟩
      split
      · exact .inl ⟨_, rfl, rfl⟩
      split
      · exact .inl ⟨_, rfl, rfl⟩
      · exact sameEffect_xformBody P c x h data s s'

theorem sameEffect_releaseSlot (hc : s.slot? c = s'.slot? c) :
    SameEffect c s s' (.next (releaseSlot c s)) (.next (releaseSlot c s')) := by
  simp only [releaseSlot, hc]
  cases s'.slot? c with
  | none => exact .inl ⟨_, rfl, rfl⟩
  | some x =>
    dsimp only
    split
    · exact .inl ⟨_, rfl, rfl⟩
    · exact .inr (.inl ⟨_, _, rfl, rfl⟩)

/-- Every command reads its own slot and `CAPS` and nothing else (R21). -/
theorem sameEffect_exec (i : Instr) (hc : s.slot? i.slot = s'.slot? i.slot) (hcaps : s.caps = s'.caps) :
    SameEffect i.slot s s' (exec i s) (exec i s') := by
  cases i with
  | initEcb | initOfb | initCfb128 | initCfb8 =>
    exact sameEffect_initFront hc hcaps fun e => sameEffect_populateByPath _ _ _ _ _ _ e _
  | initCfb1 => exact sameEffect_initFront hc hcaps fun _ => sameEffect_populateSw _ _ _ _ _ _ _ _ _
  | xform c dir len data => exact sameEffect_xformOn _ dir len data hc
  | release c => exact sameEffect_releaseSlot hc

/-- Settles O24: the two outcomes have the same shape, and each shape fixes the slot and the response. -/
theorem slotIsolation : Obligations.SlotIsolation := by
  intro s s' t i hc hcaps h
  rcases sameEffect_exec i hc hcaps with ⟨r, hs, hs'⟩ | ⟨r, y, hs, hs'⟩ | ⟨f, hs, -⟩
  · cases h.symm.trans hs
    exact ⟨_, r, hs', hc.symm, rfl, rfl⟩
  · cases h.symm.trans hs
    refine ⟨_, r, hs', ?_, rfl, rfl⟩
    rw [finish_slot, finish_slot, setSlot_slot_map, setSlot_slot_map, hc]
  · cases h.symm.trans hs

end Sys2Proof.Proofs
end

section
/-! The invariant of the state (10_state.md R20, R22, R31 to R35). A command that decodes has a key of the
length R108 gives; from a good state it ends after at most one write of a good slot (`EndsOk`), and such an end
keeps the invariant. -/

namespace Sys2Proof.Proofs

open Sys2Proof.Machine Sys2Proof.Safety Sys2Proof.Laws

/-! ### Decoded commands -/

/-- Operands are joined to a word only at the lengths of R108. -/
theorem wellFormed_of_joinOperands {h : Head} {ops : List Operand} {i : Instr}
    (hj : joinOperands h ops = some i) : WellFormed i := by
  unfold joinOperands at hj
  split at hj
  case h_1 =>
    obtain ⟨hkey, hi⟩ := Option.ite_none_right_eq_some.mp hj
    obtain ⟨-, -, hwf⟩ := initInstr_eq_some hi
    exact hwf.mpr hkey
  case h_2 =>
    obtain ⟨hkey, hi⟩ := Option.ite_none_right_eq_some.mp hj
    split at hi
    · obtain ⟨-, -, hwf⟩ := initInstr_eq_some hi
      exact hwf.mpr hkey
    · cases hi
  case h_3 =>
    obtain ⟨hlen, hi⟩ := Option.ite_none_right_eq_some.mp hj
    cases hi
    exact hlen
  case h_4 => cases hj; trivial
  case h_5 => cases hj

/-- A presentation that decodes has the operands its word calls for (R108). -/
theorem wellFormed_of_decode {f : Frame} {i : Instr} (hd : decode f = .ok i) : WellFormed i := by
  unfold decode at hd
  split at hd
  · cases hd
  · split at hd
    · cases hd
    · cases hd
      exact wellFormed_of_joinOperands ‹_›

/-! ### The slots that commands write -/

/-- A slot populated on the hardware path is as R31 says, when its contents are those of its handle. -/
theorem slotOk_hwSlot {h : Engine} {dir : Direction} {key : Bytes} {ks : KeySize} {fs : BitVec 8}
    {cv : Option Block} {n : Option (Fin 16)} (hkey : key.length = ks.bytes)
    (hfs : selectorOf h dir ks = some fs) (hcv : cv.isSome = holdsRegister h)
    (hn : n.isSome = holdsRegister h) (hsw : holdsSwState h = false) (hcfb8 : h = .hwCfb8 → n = some 0) :
    SlotOk (hwSlot h dir key fs cv n) :=
  ⟨fun he => (nomatch he), fun _ => ⟨h, rfl, dir, rfl, key, rfl, ks, by cases ks <;> simp,
    hkey, hfs.symm, hcv, hn, hsw.symm, hcfb8⟩⟩

/-- A slot populated on the software path is as R31 says. -/
theorem slotOk_swSlot (m : Mode) (dir : Direction) {key : Bytes} {ks : KeySize} (st : SwState)
    (hkey : key.length = ks.bytes) : SlotOk (swSlot m dir key st) :=
  ⟨fun he => (nomatch he), fun _ => ⟨.sw m, rfl, dir, rfl, key, rfl, ks, by cases ks <;> simp,
    hkey, rfl, rfl, rfl, rfl, fun he => nomatch he⟩⟩

/-- Writing a staging register over a field leaves a value there exactly where the handle holds one. -/
theorem isSome_or_staged {α : Type} {staged field : Option α} {holds : Bool}
    (hstaged : staged.isSome = true → holds = true) (hfield : field.isSome = holds) :
    (staged.or field).isSome = holds := by
  cases staged with
  | none => exact hfield
  | some a => exact (hstaged rfl).symm

/-- `commit` keeps a READY slot as R31 says: the staging registers hold values only where its handle does, and
CFB-8 stages no offset (R29). -/
theorem slotOk_committed {x : Slot} {h : Engine} {g : Staging} (hx : SlotOk x) (hr : x.state = .ready)
    (he : x.engine = some h) (hg : StagingFits h g) : SlotOk (committed g x) := by
  obtain ⟨h', he', dir, hdir, key, hkey, ks, hks, hlen, hfs, hcv, hn, hsw, hcfb8⟩ := hx.2 hr
  obtain rfl : h = h' := Option.some.inj (he.symm.trans he')
  obtain ⟨gcv, gn, gsw⟩ := hg
  have gn_register : g.n.isSome = true → holdsRegister h = true := fun hsome => by
    rcases gn hsome with rfl | rfl <;> rfl
  have cfb8_offset : h = .hwCfb8 → g.n.or x.residualOffset = some 0 := by
    rintro rfl
    have gn_none : g.n = none := Option.not_isSome_iff_eq_none.mp fun hsome => by simpa using gn hsome
    rw [gn_none, Option.none_or, hcfb8 rfl]
  exact ⟨fun hempty => (nomatch hr.symm.trans hempty), fun _ => ⟨h, he, dir, hdir, key, hkey, ks, hks,
    hlen, hfs, isSome_or_staged gcv hcv, isSome_or_staged gn_register hn, isSome_or_staged gsw hsw,
    cfb8_offset⟩⟩

/-! ### Commands that end well -/

/-- From `s` to `t` a command on slot `c` ended with a response, after writing nothing or one slot that is as
R22 and R31 say. -/
def EndsOk (c : BitVec 8) (s t : State) : Prop :=
  ∃ r, t = finish r s ∨ ∃ y, SlotOk y ∧ t = finish r (s.setSlot c y)

theorem endsOk_finish (c : BitVec 8) (r : Response) (s : State) : EndsOk c s (finish r s) :=
  ⟨r, .inl rfl⟩

theorem endsOk_setSlot {c : BitVec 8} {y : Slot} (r : Response) (s : State) (hy : SlotOk y) :
    EndsOk c s (finish r (s.setSlot c y)) :=
  ⟨r, .inr ⟨y, hy, rfl⟩⟩

/-- `finish` leaves the sequencer IDLE and the staging registers empty in any case (R34, R35). -/
theorem stateOk_finish {s : State} (r : Response) (hs : StateOk s) : StateOk (finish r s) := by
  obtain ⟨hpos, hle, hslots, hcaps, -, -⟩ := hs
  exact ⟨hpos, hle, hslots, hcaps, rfl, rfl⟩

theorem stateOk_setSlot {s : State} (c : BitVec 8) {y : Slot} (hs : StateOk s) (hy : SlotOk y) :
    StateOk (s.setSlot c y) := by
  obtain ⟨hpos, hle, hslots, hcaps, hphase, hstaging⟩ := hs
  rw [← setSlot_length s c y] at hpos hle
  refine ⟨hpos, hle, fun x hx => ?_, hcaps, hphase, hstaging⟩
  rcases List.mem_or_eq_of_mem_set hx with hold | rfl
  · exact hslots x hold
  · exact hy

theorem stateOk_of_endsOk {c : BitVec 8} {s t : State} (hs : StateOk s) (h : EndsOk c s t) : StateOk t := by
  obtain ⟨r, rfl | ⟨y, hy, rfl⟩⟩ := h
  · exact stateOk_finish r hs
  · exact stateOk_finish r (stateOk_setSlot c hs hy)

/-! ### INIT, RELEASE and XFORM end well -/

/-- INIT ends well when populating does, for the two handles the arbiter can choose (R131). -/
theorem endsOk_initFront {m : Mode} {c : BitVec 8} {k : KeySize} {s : State} {f : Engine → State}
    (hhw : ∀ e, hwEngine m = some e → EndsOk c s (f e)) (hsw : EndsOk c s (f (.sw m))) :
    EndsOk c s (initFront m c k s f) := by
  rcases initFront_cases m c k s f with ⟨-, h⟩ | ⟨_, -, -, h⟩ | ⟨_, -, -, -, h⟩ | ⟨_, e, -, -, hsel, h⟩
  · exact h ▸ endsOk_finish c _ s
  · exact h ▸ endsOk_finish c _ s
  · exact h ▸ endsOk_finish c _ s
  · rw [h]
    rcases select_cases hsel with ⟨-, he⟩ | ⟨-, -, rfl⟩
    · exact hhw e he
    · exact hsw

theorem endsOk_populateSw (P : Platform) (m : Mode) (c : BitVec 8) {ks : KeySize} (dir : Direction)
    {key : Bytes} (iv : Option Block) (s : State) (hkey : key.length = ks.bytes) :
    EndsOk c s (populateSw P m c ks dir key iv s) := by
  rcases populateSw_cases P m c ks dir key iv s with ⟨-, h⟩ | ⟨st, -, h⟩
  · exact h ▸ endsOk_finish c _ s
  · exact h ▸ endsOk_setSlot _ s (slotOk_swSlot m dir st hkey)

theorem endsOk_xform {c : BitVec 8} {dir : Direction} {len : Word} {data : Bytes} {s t : State}
    (hs : StateOk s) (h : exec (.xform c dir len data) s = .next t) : EndsOk c s t := by
  rcases xform_cases h with ⟨-, rfl⟩ | ⟨_, -, -, rfl⟩ | ⟨x, d, e, hx, hr, -, he, hend⟩
  · exact endsOk_finish c _ s
  · exact endsOk_finish c _ s
  · rcases hend with ⟨-, rfl⟩ | ⟨-, -, -, rfl⟩ | ⟨-, -, rfl⟩ | ⟨-, -, -, rfl⟩ | ⟨-, -, -, rfl⟩ |
      ⟨-, -, g, hg, rfl⟩
    · exact endsOk_finish c _ s
    · exact endsOk_finish c _ s
    · exact endsOk_finish c _ s
    · exact endsOk_finish c _ s
    · exact endsOk_finish c _ s
    · obtain ⟨-, -, hslots, -⟩ := hs
      exact endsOk_setSlot _ s (slotOk_committed (hslots x (slot_mem hx)) hr he hg)

theorem endsOk_release {c : BitVec 8} {s t : State} (h : exec (.release c) s = .next t) : EndsOk c s t := by
  rcases release_cases h with ⟨-, rfl⟩ | ⟨_, -, -, rfl⟩ | ⟨_, -, -, rfl⟩
  · exact endsOk_finish c _ s
  · exact endsOk_finish c _ s
  · exact endsOk_setSlot _ s slotOk_cleared

/-- Every well-formed command ends well. The hardware cases are the contents R138 to R141 give each mode's own
engine; CFB1 has none (R134), and the software path is the same for all modes (R143). -/
theorem endsOk_exec {i : Instr} {s t : State} (hw : WellFormed i) (hs : StateOk s)
    (h : exec i s = .next t) : EndsOk i.slot s t := by
  cases i with
  | initEcb c ks dir key =>
    cases h
    refine endsOk_initFront (fun e he => ?_) (endsOk_populateSw _ _ c dir none s hw)
    cases he
    exact endsOk_setSlot _ s (slotOk_hwSlot hw rfl rfl rfl rfl fun h8 => nomatch h8)
  | initOfb | initCfb128 | initCfb8 =>
    cases h
    refine endsOk_initFront (fun e he => ?_) (endsOk_populateSw _ _ _ _ _ s hw)
    cases he
    exact endsOk_setSlot _ s (slotOk_hwSlot hw rfl rfl rfl rfl fun _ => rfl)
  | initCfb1 c ks dir key iv =>
    cases h
    exact endsOk_initFront (fun e he => nomatch he) (endsOk_populateSw _ _ c dir (some iv) s hw)
  | xform c dir len data => exact endsOk_xform hs h
  | release c => exact endsOk_release h

/-- Taking a presentation off the command port is outside the invariant. -/
theorem stateOk_commandPort {s : State} (rest : List Frame) (hs : StateOk s) :
    StateOk { s with commandPort := rest } := hs

/-- Settles O15: an idle step changes nothing, and a decoded command and the answer to an illegal word both
end well. -/
theorem stepKeepsInvariant : Obligations.StepKeepsInvariant := by
  intro s t hs h
  rcases step_cases h with ⟨-, rfl⟩ | ⟨f, rest, -, ⟨i, hdecode, hrun⟩ | rfl⟩
  · exact hs
  · have hs' := stateOk_commandPort rest hs
    exact stateOk_of_endsOk hs' (endsOk_exec (wellFormed_of_decode hdecode) hs' hrun)
  · exact stateOk_finish _ (stateOk_commandPort rest hs)

end Sys2Proof.Proofs
end

section
/-! The command port (20_memory.md R60, R80): a frame that decodes is taken off the port and run. -/

namespace Sys2Proof.Proofs

open Sys2Proof.Machine Sys2Proof.Laws

/-- The port yields the command at its head, and keeps the frames after it. -/
theorem fetch_of_decode {s : State} {f : Frame} {rest : List Frame} {i : Instr}
    (hport : s.commandPort = f :: rest) (hdecode : decode f = .ok i) :
    fetch s = .run i { s with commandPort := rest } := by
  simp [fetch, hport, hdecode]

theorem step_of_fetch_run {s s' : State} {i : Instr} (h : fetch s = .run i s') : step s = exec i s' := by
  simp [step, h]

/-- Settles O8: the port yields the decoded command, and only operands of the lengths of R108 decode. -/
theorem stepRunsDecodedCommand : Obligations.StepRunsDecodedCommand :=
  fun _ _ _ _ hport hdecode =>
    ⟨wellFormed_of_decode hdecode, step_of_fetch_run (fetch_of_decode hport hdecode)⟩

/-- A frame that the host presents is the next one taken, and taking it restores the state (log 1). -/
theorem step_present {s : State} {f : Frame} {i : Instr} (hdecode : decode f = .ok i) :
    step (present f s) = exec i s :=
  step_of_fetch_run (fetch_of_decode (present_commandPort f s) hdecode)

theorem decode_of_decodeTableWord {nbits w : Nat} {i : Instr} (h : decodeTableWord nbits w = some i) :
    decode (tableFrame nbits w) = .ok i := by
  unfold decodeTableWord at h
  split at h
  · cases h; assumption
  · cases h

/-- Settles O11: a table word stands for the presentation of its frame. -/
theorem fetchWordRunsNext : Obligations.FetchWordRunsNext :=
  fun _ _ _ _ h => step_present (decode_of_decodeTableWord h)

end Sys2Proof.Proofs
end

section
/-! The primitive port (20_memory.md R67 to R74): when an invoke fails, and the size of what it returns. -/

namespace Sys2Proof.Proofs

open Sys2Proof.Machine Sys2Proof.Safety Sys2Proof.Laws

variable {P : Platform} {fs : BitVec 8} {key data : Bytes} {cv : Option Block} {kind : PrimKind}

/-- A vector and feedback width 1 select the byte kind, the one without a length rule (R68, R73). -/
theorem primKind_of_fbwByte (hcv : cv.isSome = true) (hfbw : fsFbw fs = 1) : primKind fs cv = some .cfb8 := by
  obtain ⟨v, rfl⟩ := Option.isSome_iff_exists.mp hcv
  simp [primKind, hfbw, fbwNone, fbwBlock, fbwByte]

/-- Every kind takes a positive number of whole blocks (R73). -/
theorem primLengthOk_of_blocks (kind : PrimKind) (hpos : 0 < data.length) (hmod : data.length % 16 = 0) :
    primLengthOk kind data = true := by
  cases kind <;> simp [primLengthOk, hpos, hmod]

/-- The lengths that R73 allows for the kind the selector has. -/
theorem primLengthOk_of_contract (hkind : primKind fs cv = some kind) (hpos : 0 < data.length)
    (hlen : data.length % 16 = 0 ∨ (cv.isSome = true ∧ fsFbw fs = 1)) : primLengthOk kind data = true := by
  rcases hlen with hmod | ⟨hcv, hfbw⟩
  · exact primLengthOk_of_blocks kind hpos hmod
  · cases hkind.symm.trans (primKind_of_fbwByte hcv hfbw)
    simpa [primLengthOk] using hpos

/-- `KS` names a key length exactly when it is not the reserved code 3, and then one of 16, 24, 32 (R105). -/
theorem fsKeyBytes_eq_some_iff (fs : BitVec 8) (n : Nat) :
    fsKeyBytes fs = some n ↔ fsKs fs ≠ 3 ∧ n = 16 + 8 * (fsKs fs).toNat := by
  unfold fsKeyBytes
  generalize fsKs fs = k
  obtain rfl | rfl | rfl | rfl : k = 0 ∨ k = 1 ∨ k = 2 ∨ k = 3 := by revert k; decide
  all_goals simp [ksOfCode, eq_comm]

/-- For data of an allowed length an invoke succeeds exactly on a row of R68, with the key `KS` names, where
`PrimFails` does not hold. -/
theorem prim_isSome_iff (hpos : 0 < data.length)
    (hlen : data.length % 16 = 0 ∨ (cv.isSome = true ∧ fsFbw fs = 1)) :
    (prim P fs key data cv).isSome = true ↔
      (primKind fs cv).isSome = true ∧ fsKeyBytes fs = some key.length ∧ P.primFails fs key data cv = false := by
  constructor
  · intro h
    obtain ⟨r, hr⟩ := Option.isSome_iff_exists.mp h
    obtain ⟨kind, hkind, hkey, -, hfails, -⟩ := prim_eq_some hr
    exact ⟨by simp [hkind], hkey, hfails⟩
  · rintro ⟨hkind, hkey, hfails⟩
    obtain ⟨kind, hkind⟩ := Option.isSome_iff_exists.mp hkind
    simp [prim_of_ok hkind hkey (primLengthOk_of_contract hkind hpos hlen) hfails]

/-- Settles O47: the negation of `prim_isSome_iff`, with the rows of R68 and the key length written out. -/
theorem primitiveFailsExactly : Obligations.PrimitiveFailsExactly := by
  intro P fs key data cv hpos hlen
  rw [← Option.not_isSome_iff_eq_none, prim_isSome_iff hpos hlen, primKind_isSome, fsKeyBytes_eq_some_iff]
  simp only [not_and_or, Bool.not_eq_false, ne_eq, not_not, or_assoc]

/-- An invoke that the contract allows and that has a key of its length can fail through `PrimFails` alone. -/
theorem not_neverFails_of_prim_eq_none (hkind : primKind fs cv = some kind)
    (hkey : fsKeyBytes fs = some key.length) (hlen : primLengthOk kind data = true)
    (h : prim P fs key data cv = none) : ¬ NeverFails P :=
  fun hnever => by simp [prim_of_ok hkind hkey hlen (hnever _ _ _ _)] at h

/-- Without a vector the only kind is BLOCK (R68). -/
theorem exists_cv_of_primKind (hkind : primKind fs cv = some kind) (hne : kind ≠ .block) :
    ∃ v, cv = some v := by
  cases cv with
  | none =>
    obtain ⟨-, hblock⟩ := Option.ite_none_right_eq_some.mp hkind
    exact absurd (Option.some.inj hblock).symm hne
  | some v => exact ⟨v, rfl⟩

/-- An invoke returns as many bytes as went in (R69 to R72). -/
theorem prim_output_length {r : PrimResult} (h : prim P fs key data cv = some r) :
    r.out.length = data.length := by
  obtain ⟨kind, hkind, -, hlen, -, rfl⟩ := prim_eq_some h
  have whole_blocks : kind ≠ .cfb8 → 16 * (data.length / 16) = data.length := fun hne => by
    cases kind <;> simp [primLengthOk] at hlen hne <;> omega
  cases kind with
  | block => exact (blockKind_length _ _ _).trans (whole_blocks (by simp))
  | ofb =>
    obtain ⟨v, rfl⟩ := exists_cv_of_primKind hkind (by simp)
    have hblocks := whole_blocks (by simp)
    exact (ofbKind_length _ _ v data hblocks.symm).trans hblocks
  | cfb128 =>
    obtain ⟨v, rfl⟩ := exists_cv_of_primKind hkind (by simp)
    have hblocks := whole_blocks (by simp)
    exact (cfb128Kind_length _ _ _ v data hblocks.symm).trans hblocks
  | cfb8 =>
    obtain ⟨v, rfl⟩ := exists_cv_of_primKind hkind (by simp)
    exact cfb8Kind_length _ _ v data

end Sys2Proof.Proofs
end

section
/-! READY slots (10_state.md R31) by their handle, and what the body of each handle can do on one
(41_xform_dispatch.md R152, R155): the selector an INIT stored has a kind of R68, so a body fails only where an
invoke or the software engine does, and returns one byte for each it was given. -/

namespace Sys2Proof.Proofs

open Sys2Proof.Machine Sys2Proof.Safety Sys2Proof.Laws

/-- The READY slots that meet the invariant, handle by handle (R31, R113, R138 to R143). -/
inductive Populated : Slot → Prop
  | ecb (ks : KeySize) (dir : Direction) (key : Bytes) (hkey : key.length = ks.bytes) :
    Populated (hwSlot .hwEcb dir key (fsPack (ksCode ks) (dirBit dir) fbwNone) none none)
  | ofb (ks : KeySize) (dir : Direction) (key : Bytes) (cv : Block) (n : Fin 16)
      (hkey : key.length = ks.bytes) :
    Populated (hwSlot .hwOfb dir key (fsPack (ksCode ks) false fbwNone) (some cv) (some n))
  | cfb128 (ks : KeySize) (dir : Direction) (key : Bytes) (cv : Block) (n : Fin 16)
      (hkey : key.length = ks.bytes) :
    Populated (hwSlot .hwCfb128 dir key (fsPack (ksCode ks) (dirBit dir) fbwBlock) (some cv) (some n))
  | cfb8 (ks : KeySize) (dir : Direction) (key : Bytes) (cv : Block) (hkey : key.length = ks.bytes) :
    Populated (hwSlot .hwCfb8 dir key (fsPack (ksCode ks) (dirBit dir) fbwByte) (some cv) (some 0))
  | sw (m : Mode) (dir : Direction) (key : Bytes) (st : SwState) : Populated (swSlot m dir key st)

theorem populated_of_slotOk {x : Slot} (hx : SlotOk x) (hr : x.state = .ready) : Populated x := by
  obtain ⟨h, he, dir, hdir, key, hkey, ks, -, hlen, hfs, hcv, hn, hsw, hcfb8⟩ := hx.2 hr
  obtain ⟨state, engine, keyMaterial, direction, functionSelector, cv, n, sw⟩ := x
  cases hr; cases he; cases hdir; cases hkey; cases hfs
  cases h <;> simp only [holdsRegister, holdsSwState, Option.isSome_eq_false_iff, Option.isNone_iff_eq_none,
    Option.isSome_iff_exists] at hcv hn hsw
  case hwEcb => subst hcv hn hsw; exact .ecb ks dir key hlen
  case hwOfb =>
    obtain ⟨cv, rfl⟩ := hcv
    obtain ⟨n, rfl⟩ := hn
    subst hsw
    exact .ofb ks dir key cv n hlen
  case hwCfb128 =>
    obtain ⟨cv, rfl⟩ := hcv
    obtain ⟨n, rfl⟩ := hn
    subst hsw
    exact .cfb128 ks dir key cv n hlen
  case hwCfb8 =>
    obtain ⟨cv, rfl⟩ := hcv
    cases hcfb8 rfl
    subst hsw
    exact .cfb8 ks dir key cv hlen
  case sw m =>
    obtain ⟨st, rfl⟩ := hsw
    subst hcv hn
    exact .sw m dir key st

/-- What the body of handle `h` does on a READY slot `x`: it raises the failure of its path, on the hardware path
only where an invoke fails, or it commits. A commit that `S1` covers outputs as many bytes as it was given. -/
inductive BodyOutcome (P : Platform) (c : BitVec 8) (x : Slot) (h : Engine) (data : Bytes) (s : State) :
    Result → Prop
  | primFail (hpath : h.path = .hw)
      (hcause : data ≠ [] → (h.mode = .ecb → data.length % 16 = 0) → ¬ NeverFails P) :
    BodyOutcome P c x h data s (.next (raise .errPrimFail s))
  | swFail (hpath : h.path = .sw) : BodyOutcome P c x h data s (.next (raise .errSwFail s))
  | commit (g : Staging) (hfits : StagingFits h g)
      (hlen : SoftwareKeepsLength P → data ≠ [] → g.out.length = data.length) :
    BodyOutcome P c x h data s (.next (commit c x (s.stage g)))

/-- The common body of OFB and CFB-128, on a selector and a mux that belong together (R195). -/
theorem carouselBody_outcome (P : Platform) {mux : FeedbackMux} {fs : BitVec 8} {h : Engine} {key : Bytes}
    (c : BitVec 8) (x : Slot) (cv : Block) (n : Fin 16) (data : Bytes) (s : State) (hp : Paired fs mux)
    (hkey : fsKeyBytes fs = some key.length) (hh : h = .hwOfb ∨ h = .hwCfb128) :
    BodyOutcome P c x h data s (.next (carouselBody P mux c x fs key cv n data s)) := by
  have hpath : h.path = .hw := by rcases hh with rfl | rfl <;> rfl
  have hregister : holdsRegister h = true := by rcases hh with rfl | rfl <;> rfl
  rcases carouselBody_cases (P := P) hp c x key cv n data s with hraise | hcommit
  · rw [hraise]
    refine .primFail hpath fun _ _ hnever => ?_
    have hok := carouselBody_ok hp hkey hnever c x cv n data s
    have hport := congrArg State.responsePort (hraise.symm.trans hok)
    simp [statusWord, statusCode] at hport
  · rw [hcommit]
    exact .commit _ ⟨fun _ => hregister, fun _ => hh, fun hsw => nomatch hsw⟩
      fun _ _ => refRun_length _ _ _ _ _

/-- Every body on a READY slot that meets the invariant. -/
theorem xformBody_outcome (P : Platform) (c : BitVec 8) {x : Slot} {h : Engine} (data : Bytes) (s : State)
    (hx : Populated x) (he : x.engine = some h) :
    BodyOutcome P c x h data s (xformBody P c x h data s) := by
  cases hx with
  | ecb ks dir key hkey =>
    cases he
    simp only [xformBody, xformEcb, readField_some, hwSlot_functionSelector, hwSlot_keyMaterial,
      memRead_zero_length]
    cases hprim : prim P _ key data none with
    | none =>
      refine .primFail rfl fun hne hmod => not_neverFails_of_prim_eq_none (primKind_block _ _)
        (by simp [hkey]) (primLengthOk_of_blocks _ (List.length_pos_iff.mpr hne) (hmod rfl)) hprim
    | some r =>
      exact .commit _ (by simp [StagingFits])
        fun _ _ => prim_output_length hprim
  | ofb ks dir key cv n hkey =>
    cases he
    exact carouselBody_outcome P c _ cv n data s (paired_ofb _) (by simp [hkey]) (.inl rfl)
  | cfb128 ks dir key cv n hkey =>
    cases he
    exact carouselBody_outcome P c _ cv n data s (paired_cfb128 _ dir) (by simp [hkey]) (.inr rfl)
  | cfb8 ks dir key cv hkey =>
    cases he
    simp only [xformBody, xformCfb8, readField_some, hwSlot_functionSelector, hwSlot_keyMaterial,
      hwSlot_feedbackRegister, memRead_zero_length]
    cases hprim : prim P _ key data (some cv) with
    | none =>
      exact .primFail rfl fun hne _ => not_neverFails_of_prim_eq_none (primKind_cfb8 _ _ _)
        (by simp [hkey]) (by simpa [primLengthOk, List.length_pos_iff] using hne) hprim
    | some r =>
      exact .commit _ (by simp [StagingFits, holdsRegister])
        fun _ _ => prim_output_length hprim
  | sw m dir key st =>
    cases he
    simp only [xformBody, xformSw, readField_some, swSlot_swState, memRead_zero_length]
    cases hsw : P.swXform st data with
    | none => exact .swFail rfl
    | some r =>
      exact .commit _ (by simp [StagingFits, holdsSwState])
        fun hkeeps hne => hkeeps st data r.1 r.2 hne hsw

end Sys2Proof.Proofs
end

section
/-! Two commands on different slots (20_memory.md R81): in a state that meets the invariant a command always
ends, with at most one write of its own slot, and such ends commute. -/

namespace Sys2Proof.Proofs

open Sys2Proof.Machine Sys2Proof.Safety Sys2Proof.Laws

/-! ### Every command ends -/

theorem BodyOutcome.next {P : Platform} {c : BitVec 8} {x : Slot} {h : Engine} {data : Bytes} {s : State}
    {b : Result} (hb : BodyOutcome P c x h data s b) : ∃ t, b = .next t := by
  cases hb <;> exact ⟨_, rfl⟩

/-- XFORM reads only fields that its handle holds (R31, U4). -/
theorem xformOn_next (P : Platform) (c : BitVec 8) (dir : Direction) (len : Word) (data : Bytes) {s : State}
    (hslots : ∀ x ∈ s.ctx, SlotOk x) : ∃ t, xformOn P c dir len data s = .next t := by
  cases hx : s.slot? c with
  | none => simp [xformOn, hx]
  | some x =>
    cases hr : x.state with
    | empty => simp [xformOn, hx, hr]
    | ready =>
      have hok := hslots x (slot_mem hx)
      obtain ⟨h, he, d, hd, -⟩ := hok.2 hr
      rw [xformOn_ready hx hr hd he]
      split
      · exact ⟨_, rfl⟩
      split
      · exact ⟨_, rfl⟩
      split
      · exact ⟨_, rfl⟩
      · exact (xformBody_outcome P c data _ (populated_of_slotOk hok hr) he).next

/-- No command faults and none is refused, whatever its operands are. -/
theorem exec_next (i : Instr) {s : State} (hs : StateOk s) : ∃ t, exec i s = .next t := by
  obtain ⟨-, -, hslots, -⟩ := hs
  cases i with
  | initEcb | initOfb | initCfb128 | initCfb8 | initCfb1 | release => exact ⟨_, rfl⟩
  | xform c dir len data => exact xformOn_next Config.platform c dir len data hslots

/-! ### The end of a command -/

/-- The end of a command on slot `c`: its write, if it makes one, and its response. -/
def endWith (c : BitVec 8) (y : Option Slot) (r : Response) (s : State) : State :=
  finish r (match y with
    | none => s
    | some y => s.setSlot c y)

@[simp] theorem endWith_caps (c : BitVec 8) (y : Option Slot) (r : Response) (s : State) :
    (endWith c y r s).caps = s.caps := by cases y <;> rfl

@[simp] theorem endWith_responsePort (c : BitVec 8) (y : Option Slot) (r : Response) (s : State) :
    (endWith c y r s).responsePort = s.responsePort ++ [r] := by cases y <;> rfl

/-- Ends on different slots write different places of the context file. -/
theorem endWith_ctx_comm {c d : BitVec 8} (hcd : c ≠ d) (y z : Option Slot) (r q : Response) (s : State) :
    (endWith d z q (endWith c y r s)).ctx = (endWith c y r (endWith d z q s)).ctx := by
  cases y with
  | none => cases z <;> rfl
  | some y =>
    cases z with
    | none => rfl
    | some z => exact List.set_comm y z fun he => hcd (BitVec.eq_of_toNat_eq he)

/-- Two outcomes with the same effect, one of which has a next state, are the same end. -/
theorem endWith_of_sameEffect {c : BitVec 8} {s s' t : State} {b : Result}
    (h : SameEffect c s s' (.next t) b) : ∃ y r, t = endWith c y r s ∧ b = .next (endWith c y r s') := by
  rcases h with ⟨r, ha, hb⟩ | ⟨r, y, ha, hb⟩ | ⟨f, ha, -⟩
  · cases ha; exact ⟨none, r, rfl, hb⟩
  · cases ha; exact ⟨some y, r, rfl, hb⟩
  · cases ha

/-- A command ends the same way after a command on another slot as before it. -/
theorem exec_after_other {i j : Instr} {s s1 s2 : State} (hij : i.slot ≠ j.slot) (h1 : exec i s = .next s1)
    (h2 : exec j s = .next s2) :
    ∃ y r, s1 = endWith i.slot y r s ∧ exec i s2 = .next (endWith i.slot y r s2) := by
  obtain ⟨hother, hcaps, -, -⟩ := oneSlotFrame s s2 j h2
  have heffect := sameEffect_exec i (hother i.slot hij).symm hcaps.symm
  rw [h1] at heffect
  exact endWith_of_sameEffect heffect

/-- Settles O23: each command's end is the same in both orders, and the two ends commute. -/
theorem commandsOnDifferentSlotsCommute : Obligations.CommandsOnDifferentSlotsCommute := by
  intro s i j hs hij
  obtain ⟨s1, h1⟩ := exec_next i hs
  obtain ⟨s2, h2⟩ := exec_next j hs
  obtain ⟨y, r, rfl, h21⟩ := exec_after_other hij h1 h2
  obtain ⟨z, q, rfl, h12⟩ := exec_after_other hij.symm h2 h1
  exact ⟨_, _, _, _, r, q, h1, h12, h2, h21, endWith_ctx_comm hij y z r q s, by simp, rfl, rfl, by simp,
    by simp⟩

end Sys2Proof.Proofs
end

section
/-! XFORM over the body's outcomes: the length of its output (41_xform_dispatch.md R154), and runs of XFORMs on
a hardware-path slot when no invoke fails (48_stream_laws.md R250). -/

namespace Sys2Proof.Proofs

open Sys2Proof.Machine Sys2Proof.Safety Sys2Proof.Laws

/-! ### The output of the last command -/

theorem statusWord_eq_ok_iff (st : Status) : statusWord st false = statusWord .ok false ↔ st = .ok := by
  cases st <;> decide

theorem okOutput_finish (r : Response) (s : State) :
    okOutput (finish r s) = if r.status = statusWord .ok false then some r.output else none := by
  simp [okOutput, lastResponse]

/-- An exception has no output (R285). -/
theorem okOutput_raise_ne {st : Status} (hst : st ≠ .ok) (s : State) (out : Bytes) :
    okOutput (raise st s) ≠ some out := by
  rw [raise_eq_finish, okOutput_finish, if_neg ((statusWord_eq_ok_iff st).not.mpr hst)]
  exact (Option.some_ne_none out).symm

@[simp] theorem okOutput_respondOk (out : Bytes) (s : State) : okOutput (respondOk false out s) = some out := by
  rw [respondOk_eq_finish, okOutput_finish, if_pos rfl]

@[simp] theorem okOutput_commit (c : BitVec 8) (x : Slot) (g : Staging) (s : State) :
    okOutput (commit c x (s.stage g)) = some g.out := by
  rw [commit_eq_finish, okOutput_finish, if_pos rfl]

/-! ### The length of an output -/

/-- A body that ends OK outputs a byte for each it was given (R62, R154, R230). -/
theorem BodyOutcome.output_length {P : Platform} {c : BitVec 8} {x : Slot} {h : Engine} {data out : Bytes}
    {s t : State} (hb : BodyOutcome P c x h data s (.next t)) (hkeeps : SoftwareKeepsLength P)
    (hne : data ≠ []) (hout : okOutput t = some out) : out.length = data.length := by
  cases hb with
  | primFail => exact absurd hout (okOutput_raise_ne (by simp) _ _)
  | swFail => exact absurd hout (okOutput_raise_ne (by simp) _ _)
  | commit g _ hlen =>
    cases (okOutput_commit c x g s).symm.trans hout
    exact hlen hkeeps hne

/-- Settles O46: of the ways XFORM can end, the answer to LEN 0 and a commit alone are OK. -/
theorem xformOutputLength : Obligations.XformOutputLength := by
  intro P s t c dir len data out hkeeps hs hwf h hout
  obtain ⟨-, -, hslots, -⟩ := hs
  rcases xformOn_cases h with ⟨-, rfl⟩ | ⟨_, -, -, rfl⟩ | ⟨x, d, e, hx, hr, -, he, hend⟩
  · exact absurd hout (okOutput_raise_ne (by simp) _ _)
  · exact absurd hout (okOutput_raise_ne (by simp) _ _)
  · rcases hend with ⟨-, rfl⟩ | ⟨-, -, -, rfl⟩ | ⟨-, rfl, rfl⟩ | ⟨-, hlen, -, hbody⟩
    · exact absurd hout (okOutput_raise_ne (by simp) _ _)
    · exact absurd hout (okOutput_raise_ne (by simp) _ _)
    · cases (okOutput_respondOk [] s).symm.trans hout
      rfl
    · have hne : data ≠ [] := by
        rintro rfl
        exact hlen (BitVec.eq_of_toNat_eq hwf.symm)
      have hb := xformBody_outcome P c data (s.enter .check) (populated_of_slotOk (hslots x (slot_mem hx)) hr) he
      rw [hbody] at hb
      exact (hb.output_length hkeeps hne hout).trans hwf

/-! ### Runs that succeed -/

/-- Slot `c` is READY on handle `h` with direction `dir`, and as R31 says. -/
def Streams (h : Engine) (dir : Direction) (c : BitVec 8) (s : State) : Prop :=
  ∃ x, s.slot? c = some x ∧ SlotOk x ∧ x.state = .ready ∧ x.engine = some h ∧ x.direction = some dir

/-- A slot with a handle is not EMPTY (R22). -/
theorem ready_of_engine {x : Slot} {h : Engine} (hx : SlotOk x) (he : x.engine = some h) : x.state = .ready := by
  cases hr : x.state with
  | ready => rfl
  | empty =>
    rw [hx.1 hr] at he
    cases he

/-- With no failing invoke, a body on the hardware path commits (R68, R73, R74). -/
theorem BodyOutcome.commits {P : Platform} {c : BitVec 8} {x : Slot} {h : Engine} {data : Bytes} {s : State}
    {b : Result} (hb : BodyOutcome P c x h data s b) (hnever : NeverFails P) (hpath : h.path = .hw)
    (hne : data ≠ []) (hmod : h.mode = .ecb → data.length % 16 = 0) :
    ∃ g, StagingFits h g ∧ b = .next (Machine.commit c x (s.stage g)) := by
  cases hb with
  | primFail _ hcause => exact absurd hnever (hcause hne hmod)
  | swFail hsw => cases hsw.symm.trans hpath
  | commit g hfits _ => exact ⟨g, hfits, rfl⟩

/-- One presentable chunk succeeds and leaves the slot ready for the next. -/
theorem xformOn_streams {P : Platform} {h : Engine} {dir : Direction} {c : BitVec 8} {s : State} {d : Bytes}
    (hnever : NeverFails P) (hpath : h.path = .hw) (hs : Streams h dir c s) (hfit : d.length ≤ lenMax)
    (hmod : h.mode = .ecb → d.length % 16 = 0) :
    ∃ t o, xformOn P c dir (BitVec.ofNat 32 d.length) d s = .next t ∧ okOutput t = some o ∧
      Streams h dir c t := by
  obtain ⟨x, hx, hok, hr, he, hd⟩ := hs
  have hlen : (BitVec.ofNat 32 d.length).toNat = d.length := Nat.mod_eq_of_lt (Nat.lt_of_le_of_lt hfit (by decide))
  rw [xformOn_ready hx hr hd he, hlen, if_neg (by simp), if_neg fun hecb => hecb.2 (hmod hecb.1)]
  split
  · exact ⟨_, [], rfl, by simp, x, hx, hok, hr, he, hd⟩
  · rename_i hzero
    have hne : d ≠ [] := by rintro rfl; exact hzero rfl
    obtain ⟨g, hfits, hbody⟩ := (xformBody_outcome P c d (s.enter .check)
      (populated_of_slotOk hok hr) he).commits hnever hpath hne hmod
    exact ⟨_, g.out, hbody, by simp, committed g x, commit_slot_self (y := x) hx,
      slotOk_committed hok hr he hfits, hr, he, hd⟩

/-- A run goes on after a chunk that succeeds (R250). -/
theorem runChunks_cons_isSome {P : Platform} {c : BitVec 8} {dir : Direction} {d o : Bytes} {ds : List Bytes}
    {s t : State} (hd : xformOn P c dir (BitVec.ofNat 32 d.length) d s = .next t) (ho : okOutput t = some o)
    (hds : (runChunks P c dir ds t).isSome = true) : (runChunks P c dir (d :: ds) s).isSome = true := by
  obtain ⟨⟨u, os⟩, hrun⟩ := Option.isSome_iff_exists.mp hds
  simp [runChunks, hd, ho, hrun]

theorem runChunks_isSome {P : Platform} {h : Engine} {dir : Direction} {c : BitVec 8} (chunks : List Bytes)
    {s : State} (hnever : NeverFails P) (hpath : h.path = .hw) (hs : Streams h dir c s)
    (hchunks : ChunksOk h.mode chunks) : (runChunks P c dir chunks s).isSome = true := by
  induction chunks generalizing s with
  | nil => rfl
  | cons d ds ih =>
    obtain ⟨⟨hfit, hmod⟩, hrest⟩ := List.forall_mem_cons.mp hchunks
    obtain ⟨t, o, hstep, hout, ht⟩ := xformOn_streams hnever hpath hs hfit hmod
    exact runChunks_cons_isSome hstep hout (ih ht hrest)

/-- Settles O50, by induction on the chunks: each one succeeds and leaves a slot that streams on. -/
theorem streamsSucceed : Obligations.StreamsSucceed := by
  intro P s c dir x h chunks hnever hs hx he hpath hdir hchunks
  obtain ⟨-, -, hslots, -⟩ := hs
  have hok := hslots x (slot_mem hx)
  exact runChunks_isSome chunks hnever hpath ⟨x, hx, hok, ready_of_engine hok he, he, hdir⟩ hchunks

end Sys2Proof.Proofs
end

section
/-! The command word as its six fields (30_encoding.md R101, R115). A word is the number its fields make
(`word_toNat`), hence equal to another when the six fields agree (`word_eq_iff`); what a packed word, a masked word and
a decoded word are is then said field by field. -/

namespace Sys2Proof.Proofs

open Sys2Proof.Machine Sys2Proof.Safety Sys2Proof.Laws

/-! ### Fields -/

/-- R101: the six fields tile the word. -/
theorem word_toNat (w : Word) :
    w.toNat = (fieldOpc w).toNat * 2 ^ 28 + (fieldMode w).toNat * 2 ^ 24 + (fieldDir w).toNat * 2 ^ 23 +
      (fieldKs w).toNat * 2 ^ 21 + (fieldRsv w).toNat * 2 ^ 8 + (fieldCtx w).toNat := by
  have hw := w.isLt
  have hdir : (fieldDir w).toNat = w.toNat / 2 ^ 23 % 2 := by
    rw [fieldDir, BitVec.getLsbD, Nat.toNat_testBit]
  simp only [hdir, fieldOpc, fieldMode, fieldKs, fieldRsv, fieldCtx, BitVec.extractLsb'_toNat,
    Nat.shiftRight_eq_div_pow]
  omega

theorem word_eq_iff (w v : Word) :
    w = v ↔ fieldOpc w = fieldOpc v ∧ fieldMode w = fieldMode v ∧ fieldDir w = fieldDir v ∧
      fieldKs w = fieldKs v ∧ fieldRsv w = fieldRsv v ∧ fieldCtx w = fieldCtx v := by
  constructor
  · rintro rfl
    simp
  · rintro ⟨hopc, hmode, hdir, hks, hrsv, hctx⟩
    apply BitVec.eq_of_toNat_eq
    rw [word_toNat w, word_toNat v, hopc, hmode, hdir, hks, hrsv, hctx]

section
variable (opc mode : BitVec 4) (d : Bool) (k : BitVec 2) (c : BitVec 8)

@[simp] theorem fieldOpc_packWord : fieldOpc (packWord opc mode d k c) = opc :=
  have ⟨h, _⟩ := packWord_fields opc mode d k c; h

@[simp] theorem fieldMode_packWord : fieldMode (packWord opc mode d k c) = mode :=
  have ⟨_, h, _⟩ := packWord_fields opc mode d k c; h

@[simp] theorem fieldDir_packWord : fieldDir (packWord opc mode d k c) = d :=
  have ⟨_, _, h, _⟩ := packWord_fields opc mode d k c; h

@[simp] theorem fieldKs_packWord : fieldKs (packWord opc mode d k c) = k :=
  have ⟨_, _, _, h, _⟩ := packWord_fields opc mode d k c; h

@[simp] theorem fieldRsv_packWord : fieldRsv (packWord opc mode d k c) = 0 :=
  have ⟨_, _, _, _, h, _⟩ := packWord_fields opc mode d k c; h

@[simp] theorem fieldCtx_packWord : fieldCtx (packWord opc mode d k c) = c :=
  have ⟨_, _, _, _, _, h⟩ := packWord_fields opc mode d k c; h

/-- R115: the number a packed word is. -/
theorem packWord_toNat :
    (packWord opc mode d k c).toNat =
      opc.toNat * 2 ^ 28 + mode.toNat * 2 ^ 24 + (d.toNat * 2 ^ 23 + k.toNat * 2 ^ 21 + c.toNat) := by
  simp [word_toNat, Nat.add_assoc]

theorem eq_packWord_iff (w : Word) :
    w = packWord opc mode d k c ↔ fieldOpc w = opc ∧ fieldMode w = mode ∧ fieldDir w = d ∧ fieldKs w = k ∧
      fieldRsv w = 0 ∧ fieldCtx w = c := by
  simp [word_eq_iff]

end

/-- Settles O3: the formula is `packWord_toNat`, with the fields a command does not use 0. -/
theorem encodedWordFormula : Obligations.EncodedWordFormula := by
  refine ⟨fun c ks dir key iv len data => ?_, fun key iv len data => ?_⟩
  · refine ⟨?_, ?_, ?_, ?_, ?_, ?_, ?_⟩ <;> simp [encodeWord, packWord_toNat, Nat.add_assoc]
  · exact ⟨rfl, rfl, rfl, rfl, rfl, rfl, rfl, rfl⟩

/-! ### Decoded words -/

/-- The word of a head (R115): that of any command with this head. -/
def headWord : Head → Word
  | .init m d k c => packWord 1 (modeCode m) (dirBit d) (ksCode k) c
  | .xform d c => packWord 2 0 (dirBit d) 0 c
  | .release c => packWord 3 0 false 0 c

/-- The word decoder inverts `headWord`: it accepts no other word (R110, R116). -/
theorem decodeWord_eq_some_iff {w : Word} {h : Head} : decodeWord w = some h ↔ w = headWord h := by
  constructor
  · intro hd
    rcases decodeWord_cases hd with ⟨m, d, k, c, rfl, hw⟩ | ⟨d, c, rfl, hw⟩ | ⟨c, rfl, hw⟩
    · exact hw
    · exact hw
    · exact hw
  · rintro rfl
    cases h <;> simp [headWord, decodeWord_packWord]

/-- Settles O6: each word is the packing of the fields listed. -/
theorem listedWordsDecode : Obligations.ListedWordsDecode := by
  unfold Obligations.ListedWordsDecode
  simp only [decodeWord_eq_some_iff]
  exact ⟨rfl, rfl, rfl, rfl, rfl, rfl, rfl⟩

/-! ### The codes -/

theorem exists_dirBit_eq (b : Bool) : ∃ d, b = dirBit d := ⟨dirOfBit b, (dirBit_dirOfBit b).symm⟩

/-- R105: `KS` 3 alone is reserved. -/
theorem exists_ksCode_eq_iff (b : BitVec 2) : (∃ k, b = ksCode k) ↔ b ≠ 3 := by
  constructor
  · rintro ⟨k, rfl⟩
    cases k <;> decide
  · intro hb
    have hcode : (ksOfCode b).isSome = true := by
      revert b
      decide
    obtain ⟨k, hk⟩ := Option.isSome_iff_exists.mp hcode
    exact ⟨k, eq_ksCode hk⟩

/-- R103: `MODE` 5 to 15 are reserved. -/
theorem exists_modeCode_eq_iff (b : BitVec 4) : (∃ m, b = modeCode m) ↔ b.toNat ≤ 4 := by
  constructor
  · rintro ⟨m, rfl⟩
    cases m <;> decide
  · intro hb
    have hcode : (modeOfCode b).isSome = true := by
      revert b
      decide
    obtain ⟨m, hm⟩ := Option.isSome_iff_exists.mp hcode
    exact ⟨m, eq_modeCode hm⟩

/-! ### The rows of the opcode map -/

/-- The words of an INIT row (R117): direction, slot and every key size but the reserved one are free. -/
theorem decodes_init_iff (w : Word) (m : Mode) :
    (∃ d k c, decodeWord w = some (.init m d k c)) ↔
      fieldOpc w = 1 ∧ fieldMode w = modeCode m ∧ fieldRsv w = 0 ∧ fieldKs w ≠ 3 := by
  simp only [decodeWord_eq_some_iff, headWord, eq_packWord_iff]
  constructor
  · rintro ⟨d, k, c, hopc, hmode, -, hks, hrsv, -⟩
    exact ⟨hopc, hmode, hrsv, (exists_ksCode_eq_iff _).mp ⟨k, hks⟩⟩
  · rintro ⟨hopc, hmode, hrsv, hne⟩
    obtain ⟨d, hdir⟩ := exists_dirBit_eq (fieldDir w)
    obtain ⟨k, hks⟩ := (exists_ksCode_eq_iff _).mpr hne
    exact ⟨d, k, _, hopc, hmode, hdir, hks, hrsv, rfl⟩

/-- The words of the XFORM row (R117): direction and slot are free. -/
theorem decodes_xform_iff (w : Word) :
    (∃ d c, decodeWord w = some (.xform d c)) ↔
      fieldOpc w = 2 ∧ fieldMode w = 0 ∧ fieldKs w = 0 ∧ fieldRsv w = 0 := by
  simp only [decodeWord_eq_some_iff, headWord, eq_packWord_iff]
  constructor
  · rintro ⟨d, c, hopc, hmode, -, hks, hrsv, -⟩
    exact ⟨hopc, hmode, hks, hrsv⟩
  · rintro ⟨hopc, hmode, hks, hrsv⟩
    obtain ⟨d, hdir⟩ := exists_dirBit_eq (fieldDir w)
    exact ⟨d, _, hopc, hmode, hdir, hks, hrsv, rfl⟩

/-- The words of the RELEASE row (R117): the slot alone is free. -/
theorem decodes_release_iff (w : Word) :
    (∃ c, decodeWord w = some (.release c)) ↔
      fieldOpc w = 3 ∧ fieldMode w = 0 ∧ fieldDir w = false ∧ fieldKs w = 0 ∧ fieldRsv w = 0 := by
  simp [decodeWord_eq_some_iff, headWord, eq_packWord_iff]

/-- A mask of the opcode map (R117): `OPC`, `MODE` and `RSV` count, `CTX` does not, and of `DIR` and `KS` the
bits that `d` and `k` give. -/
def rowMask (d : Bool) (k : BitVec 2) : Word :=
  packWord (BitVec.allOnes 4) (BitVec.allOnes 4) d k 0 ||| 0x001FFF00

theorem rowMask_fields (d : Bool) (k : BitVec 2) :
    fieldOpc (rowMask d k) = BitVec.allOnes 4 ∧ fieldMode (rowMask d k) = BitVec.allOnes 4 ∧
      fieldDir (rowMask d k) = d ∧ fieldKs (rowMask d k) = k ∧
      fieldRsv (rowMask d k) = BitVec.allOnes 13 ∧ fieldCtx (rowMask d k) = 0 := by
  revert d k
  decide

/-- A word under a mask of the opcode map, field by field. -/
theorem and_rowMask_eq_iff (w : Word) (opc mode : BitVec 4) (d : Bool) (k : BitVec 2) :
    w &&& rowMask d k = packWord opc mode false 0 0 ↔
      fieldOpc w = opc ∧ fieldMode w = mode ∧ (fieldDir w && d) = false ∧ fieldKs w &&& k = 0 ∧
        fieldRsv w = 0 := by
  obtain ⟨hopc, hmode, hdir, hks, hrsv, hctx⟩ := rowMask_fields d k
  have hfields :
      fieldOpc (w &&& rowMask d k) = fieldOpc w ∧ fieldMode (w &&& rowMask d k) = fieldMode w ∧
        fieldDir (w &&& rowMask d k) = (fieldDir w && d) ∧ fieldKs (w &&& rowMask d k) = fieldKs w &&& k ∧
        fieldRsv (w &&& rowMask d k) = fieldRsv w ∧ fieldCtx (w &&& rowMask d k) = 0 := by
    simp only [fieldOpc, fieldMode, fieldDir, fieldKs, fieldRsv, fieldCtx, BitVec.extractLsb'_and,
      BitVec.getLsbD_and] at *
    simp only [hopc, hmode, hdir, hks, hrsv, hctx, BitVec.and_allOnes, BitVec.ofNat_eq_ofNat,
      BitVec.and_zero, and_self]
  obtain ⟨hopc', hmode', hdir', hks', hrsv', hctx'⟩ := hfields
  rw [eq_packWord_iff, hopc', hmode', hdir', hks', hrsv', hctx']
  simp

theorem rowMask_init : rowMask false 0 = 0xFF1FFF00 := rfl

theorem rowMask_xform : rowMask false 3 = 0xFF7FFF00 := rfl

theorem rowMask_release : rowMask true 3 = 0xFFFFFF00 := rfl

/-- An INIT row of the opcode map (R117). -/
theorem init_row (w : Word) (m : Mode) :
    (∃ d k c, decodeWord w = some (.init m d k c)) ↔
      w &&& 0xFF1FFF00 = packWord 1 (modeCode m) false 0 0 ∧ fieldKs w ≠ 3 := by
  rw [decodes_init_iff, ← rowMask_init, and_rowMask_eq_iff]
  simp [and_assoc]

/-- The XFORM row (R117). -/
theorem xform_row (w : Word) :
    (∃ d c, decodeWord w = some (.xform d c)) ↔ w &&& 0xFF7FFF00 = packWord 2 0 false 0 0 := by
  rw [decodes_xform_iff, ← rowMask_xform, and_rowMask_eq_iff]
  have hones : (3 : BitVec 2) = BitVec.allOnes 2 := rfl
  rw [hones, BitVec.and_allOnes, Bool.and_false, eq_self, true_and]

/-- The RELEASE row (R117). -/
theorem release_row (w : Word) :
    (∃ c, decodeWord w = some (.release c)) ↔ w &&& 0xFFFFFF00 = packWord 3 0 false 0 0 := by
  rw [decodes_release_iff, ← rowMask_release, and_rowMask_eq_iff]
  have hones : (3 : BitVec 2) = BitVec.allOnes 2 := rfl
  rw [hones, BitVec.and_allOnes, Bool.and_true]

/-- Settles O4: the match column holds the packings of the rows' fixed fields. -/
theorem commandRowsByMatchAndMask : Obligations.CommandRowsByMatchAndMask := fun w =>
  ⟨init_row w .ecb, init_row w .ofb, init_row w .cfb128, init_row w .cfb8, init_row w .cfb1, xform_row w,
    release_row w⟩

/-! ### Legal words -/

/-- What the word decoder accepts (R110, R116): the words of the three opcodes, with their own conditions. -/
theorem decodeWord_isSome_iff (w : Word) :
    (decodeWord w).isSome = true ↔ fieldRsv w = 0 ∧
      ((fieldOpc w = 1 ∧ (fieldMode w).toNat ≤ 4 ∧ fieldKs w ≠ 3) ∨
        (fieldOpc w = 2 ∧ fieldMode w = 0 ∧ fieldKs w = 0) ∨
        (fieldOpc w = 3 ∧ fieldMode w = 0 ∧ fieldKs w = 0 ∧ fieldDir w = false)) := by
  rw [Option.isSome_iff_exists]
  constructor
  · rintro ⟨h, hd⟩
    cases h with
    | init m d k c =>
      obtain ⟨hopc, hmode, hrsv, hks⟩ := (decodes_init_iff w m).mp ⟨d, k, c, hd⟩
      exact ⟨hrsv, .inl ⟨hopc, (exists_modeCode_eq_iff _).mp ⟨m, hmode⟩, hks⟩⟩
    | xform d c =>
      obtain ⟨hopc, hmode, hks, hrsv⟩ := (decodes_xform_iff w).mp ⟨d, c, hd⟩
      exact ⟨hrsv, .inr (.inl ⟨hopc, hmode, hks⟩)⟩
    | release c =>
      obtain ⟨hopc, hmode, hdir, hks, hrsv⟩ := (decodes_release_iff w).mp ⟨c, hd⟩
      exact ⟨hrsv, .inr (.inr ⟨hopc, hmode, hks, hdir⟩)⟩
  · rintro ⟨hrsv, ⟨hopc, hle, hks⟩ | ⟨hopc, hmode, hks⟩ | ⟨hopc, hmode, hks, hdir⟩⟩
    · obtain ⟨m, hmode⟩ := (exists_modeCode_eq_iff _).mpr hle
      obtain ⟨_, _, _, hd⟩ := (decodes_init_iff w m).mpr ⟨hopc, hmode, hrsv, hks⟩
      exact ⟨_, hd⟩
    · obtain ⟨_, _, hd⟩ := (decodes_xform_iff w).mpr ⟨hopc, hmode, hks, hrsv⟩
      exact ⟨_, hd⟩
    · obtain ⟨_, hd⟩ := (decodes_release_iff w).mpr ⟨hopc, hmode, hdir, hks, hrsv⟩
      exact ⟨_, hd⟩

/-- Settles O5: the conditions of R110 are the failures of `decodeWord_isSome_iff`, opcode by opcode. -/
theorem legalWordsDecode : Obligations.LegalWordsDecode := by
  intro n w
  rw [decodeWord_isSome_iff, IllegalWord]
  by_cases h1 : fieldOpc w = 1
  · grind
  by_cases h2 : fieldOpc w = 2
  · grind
  by_cases h3 : fieldOpc w = 3
  · grind
  · tauto

end Sys2Proof.Proofs
end

section
/-! Presented commands (30_encoding.md R108, R116): a frame decodes to a command exactly when it is the encoding of
that command and the operands have the lengths of R108 (`decode_eq_ok_iff`). -/

namespace Sys2Proof.Proofs

open Sys2Proof.Machine Sys2Proof.Laws

/-- The head of a command: what its word says (R116). -/
def headOf : Instr → Head
  | .initEcb c ks dir _ => .init .ecb dir ks c
  | .initOfb c ks dir _ _ => .init .ofb dir ks c
  | .initCfb128 c ks dir _ _ => .init .cfb128 dir ks c
  | .initCfb8 c ks dir _ _ => .init .cfb8 dir ks c
  | .initCfb1 c ks dir _ _ => .init .cfb1 dir ks c
  | .xform c dir _ _ => .xform dir c
  | .release c => .release c

theorem encodeWord_eq_headWord (i : Instr) : encodeWord i = headWord (headOf i) := by cases i <;> rfl

/-- The slot of a command stands in its word (R106). -/
theorem fieldCtx_encodeWord (i : Instr) : fieldCtx (encodeWord i) = i.slot := by
  cases i <;> exact fieldCtx_packWord _ _ _ _ _

theorem initInstr_head_operands {m : Mode} {c : BitVec 8} {k : KeySize} {d : Direction} {key : Bytes}
    {iv : Option Block} {i : Instr} (h : initInstr m c k d key iv = some i) :
    headOf i = .init m d k c ∧
      encodeOperands i = .bytes key :: (match iv with | none => [] | some v => [.bytes v.toList]) := by
  obtain ⟨-, hoperands, -⟩ := initInstr_eq_some h
  refine ⟨?_, hoperands⟩
  cases m <;> cases iv <;> cases h <;> rfl

/-- Operands are joined to a head in one way: the command has that head and those operands (R108). -/
theorem head_operands_of_joinOperands {h : Head} {ops : List Operand} {i : Instr}
    (hj : joinOperands h ops = some i) : headOf i = h ∧ encodeOperands i = ops := by
  unfold joinOperands at hj
  split at hj
  case h_1 =>
    obtain ⟨-, hi⟩ := Option.ite_none_right_eq_some.mp hj
    exact initInstr_head_operands hi
  case h_2 =>
    obtain ⟨-, hi⟩ := Option.ite_none_right_eq_some.mp hj
    split at hi
    · rename_i v hv
      rw [blockOfBytes?_eq_some.mp hv]
      exact initInstr_head_operands hi
    · cases hi
  case h_3 =>
    obtain ⟨-, hi⟩ := Option.ite_none_right_eq_some.mp hj
    cases hi
    exact ⟨rfl, rfl⟩
  case h_4 => cases hj; exact ⟨rfl, rfl⟩
  case h_5 => cases hj

/-- The operands of a well-formed command join with its head to the command (R108). -/
theorem joinOperands_encodeOperands {i : Instr} (hw : WellFormed i) :
    joinOperands (headOf i) (encodeOperands i) = some i := by
  cases i with
  | release c => rfl
  | xform c dir len data => exact if_pos hw
  | initEcb c ks dir key => exact if_pos hw
  | initOfb | initCfb128 | initCfb8 | initCfb1 =>
    simp only [headOf, encodeOperands, joinOperands, blockOfBytes?_toList]
    exact if_pos hw

theorem joinOperands_eq_some_iff {h : Head} {ops : List Operand} {i : Instr} :
    joinOperands h ops = some i ↔ headOf i = h ∧ encodeOperands i = ops ∧ WellFormed i := by
  constructor
  · intro hj
    obtain ⟨hhead, hoperands⟩ := head_operands_of_joinOperands hj
    exact ⟨hhead, hoperands, wellFormed_of_joinOperands hj⟩
  · rintro ⟨rfl, rfl, hw⟩
    exact joinOperands_encodeOperands hw

/-- A frame decodes exactly when its word does and its operands join (R116). -/
theorem decode_eq_ok_iff_exists_head {f : Frame} {i : Instr} :
    decode f = .ok i ↔ ∃ h, decodeWord f.word = some h ∧ joinOperands h f.operands = some i := by
  unfold decode
  cases decodeWord f.word with
  | none => simp
  | some h =>
    simp only [Option.some.injEq, exists_eq_left']
    cases joinOperands h f.operands <;> simp

/-- The decoder inverts the encoder on the well-formed commands, and accepts nothing else (R108, R116). -/
theorem decode_eq_ok_iff {f : Frame} {i : Instr} : decode f = .ok i ↔ encode i = f ∧ WellFormed i := by
  obtain ⟨word, operands⟩ := f
  simp only [decode_eq_ok_iff_exists_head, decodeWord_eq_some_iff, joinOperands_eq_some_iff, encode,
    Frame.mk.injEq, encodeWord_eq_headWord]
  constructor
  · rintro ⟨h, rfl, rfl, rfl, hw⟩
    exact ⟨⟨rfl, rfl⟩, hw⟩
  · rintro ⟨⟨rfl, rfl⟩, hw⟩
    exact ⟨_, rfl, rfl, rfl, hw⟩

/-- Settles O1: one direction of `decode_eq_ok_iff`. -/
theorem decodeOfEncode : Obligations.DecodeOfEncode :=
  fun _ hw => decode_eq_ok_iff.mpr ⟨rfl, hw⟩

/-- Settles O2: the other direction of `decode_eq_ok_iff`. -/
theorem encodeOfDecode : Obligations.EncodeOfDecode :=
  fun _ _ hd => decode_eq_ok_iff.mp hd

end Sys2Proof.Proofs
end

section
/-! Illegal and malformed presentations (30_encoding.md R110, 60_exceptions.md R276): what `fetch` and `exec` do with
them. -/

namespace Sys2Proof.Proofs

open Sys2Proof.Machine Sys2Proof.Safety Sys2Proof.Laws

/-- A command that names no slot is answered `ERR_ILLEGAL_CMD`, whichever it is (R106, R283). -/
theorem exec_of_slot_eq_none {i : Instr} {s : State} (hslot : s.slot? i.slot = none) :
    exec i s = .next (raise .errIllegalCmd s) := by
  have init_rejects (m : Mode) (k : KeySize) (f : Engine → State) :
      initFront m i.slot k s f = raise .errIllegalCmd s := by
    rw [initFront, hslot]
  cases i with
  | initEcb | initOfb | initCfb128 | initCfb8 | initCfb1 => exact congrArg _ (init_rejects _ _ _)
  | xform c dir len data =>
    have hcheck : (s.enter .check).slot? c = none := hslot
    rw [exec_xform, xformOn, hcheck, raise_enter]
  | release c =>
    have hc : s.slot? c = none := hslot
    have release_rejects : releaseSlot c s = raise .errIllegalCmd s := by rw [releaseSlot, hc]
    exact congrArg _ release_rejects

/-- A legal word with the wrong operands is malformed when its slot exists (log 9), and illegal when it does not
(R110). -/
theorem fetch_of_operandMismatch {s : State} {f : Frame} {rest : List Frame} (hport : s.commandPort = f :: rest)
    (hdecode : decode f = .error .operandMismatch) :
    fetch s = if (fieldCtx f.word).toNat < s.ctx.length then .malformed
      else .answered (raise .errIllegalCmd { s with commandPort := rest }) := by
  simp [fetch, hport, hdecode]

theorem fetch_of_illegalWord {s : State} {f : Frame} {rest : List Frame} (hport : s.commandPort = f :: rest)
    (hdecode : decode f = .error .illegalWord) :
    fetch s = .answered (raise .errIllegalCmd { s with commandPort := rest }) := by
  simp [fetch, hport, hdecode]

theorem step_of_fetch_answered {s s' : State} (h : fetch s = .answered s') : step s = .next s' := by
  simp [step, h]

theorem step_of_fetch_malformed {s : State} (h : fetch s = .malformed) : step s = .refused .operandMismatch := by
  simp [step, h]

/-- Settles O10: the slot exists, so `fetch` finds the presentation malformed. -/
theorem stepRefusesMalformedPresentation : Obligations.StepRefusesMalformedPresentation :=
  fun _ _ _ hport hdecode hctx =>
    step_of_fetch_malformed ((fetch_of_operandMismatch hport hdecode).trans (if_pos hctx))

/-- Operands are looked at only after a legal word (R116). -/
theorem decodeWord_of_operandMismatch {f : Frame} (hdecode : decode f = .error .operandMismatch) :
    (decodeWord f.word).isSome = true := by
  unfold decode at hdecode
  split at hdecode
  · cases hdecode
  · exact Option.isSome_of_eq_some ‹_›

/-- An illegal word is answered `ERR_ILLEGAL_CMD` and its operands are discarded, wherever it is found: by the word
decoder, by `fetch`, or by the command that names no slot (R110; log 4). -/
theorem step_of_illegalWord {s : State} {f : Frame} {rest : List Frame} (hport : s.commandPort = f :: rest)
    (hillegal : IllegalWord s.ctx.length f.word) :
    step s = .next (raise .errIllegalCmd { s with commandPort := rest }) := by
  have no_slot (hword : (decodeWord f.word).isSome = true) : s.ctx.length ≤ (fieldCtx f.word).toNat :=
    Nat.le_of_not_lt fun hctx => (legalWordsDecode _ _).mpr ⟨hword, hctx⟩ hillegal
  match hdecode : decode f with
  | .error .illegalWord => exact step_of_fetch_answered (fetch_of_illegalWord hport hdecode)
  | .error .operandMismatch =>
    have hctx := no_slot (decodeWord_of_operandMismatch hdecode)
    exact step_of_fetch_answered
      ((fetch_of_operandMismatch hport hdecode).trans (if_neg (Nat.not_lt.mpr hctx)))
  | .ok i =>
    obtain ⟨h, hword, -⟩ := decode_eq_ok_iff_exists_head.mp hdecode
    obtain ⟨rfl, -⟩ := decode_eq_ok_iff.mp hdecode
    have hctx : s.ctx.length ≤ i.slot.toNat := fieldCtx_encodeWord i ▸ no_slot (Option.isSome_of_eq_some hword)
    rw [step_of_fetch_run (fetch_of_decode hport hdecode)]
    exact exec_of_slot_eq_none ((slot_eq_none_iff _ _).mpr hctx)

/-- Settles O7: at a command boundary `raise` adds the response and nothing else. -/
theorem illegalCommandAnswered : Obligations.IllegalCommandAnswered := by
  intro s f rest hs hport hillegal
  obtain ⟨-, -, -, -, hphase, hstaging⟩ := hs
  have raised : raise .errIllegalCmd { s with commandPort := rest } =
      withResponse { s with commandPort := rest } 0x00000006 [] :=
    finish_eq_withResponse (s := { s with commandPort := rest }) hphase hstaging _
  rw [step_of_illegalWord hport hillegal, raised]

end Sys2Proof.Proofs
end

section
/-! Status words (30_encoding.md R109) and the form of a response. -/

namespace Sys2Proof.Proofs

open Sys2Proof.Machine Sys2Proof.Safety Sys2Proof.Laws

/-- R109: the fields of a status word, for any code. -/
theorem statusWord_fields (code : BitVec 4) (sw : Bool) :
    let w := code.setWidth 32 ||| ((BitVec.ofBool sw).setWidth 32 <<< 8)
    codeOf w = code ∧ w.getLsbD 8 = sw ∧ w.extractLsb' 4 4 = 0 ∧ w.extractLsb' 9 23 = 0 := by
  revert code sw
  decide

/-- Settles O21: the fields for any code, and the ten words by evaluation. -/
theorem statusWordValues : Obligations.StatusWordValues :=
  ⟨fun st sw => statusWord_fields (statusCode st) sw, rfl, rfl, rfl, rfl, rfl, rfl, rfl, rfl, rfl, rfl⟩

/-- From `s` to `t` command `i` added one response, of the form that R109 gives it. -/
def Responds (i : Instr) (s t : State) : Prop :=
  ∃ (st : Status) (sw : Bool) (out : Bytes), t.responsePort = s.responsePort ++ [⟨statusWord st sw, out⟩] ∧
    (sw = true ↔ st = .ok ∧ ∃ m ks, requestOf i = some (m, ks) ∧ select m ks s.caps = some (.sw m)) ∧
    (out ≠ [] → st = .ok ∧ ∃ c dir len data, i = .xform c dir len data)

/-- An error response carries neither `SWPATH` nor output (R285). -/
theorem responds_raise (i : Instr) (s : State) {st : Status} (hst : st ≠ .ok) : Responds i s (raise st s) :=
  ⟨st, false, [], rfl, by simp [hst], fun hout => absurd rfl hout⟩

/-- A successful INIT answers with `SWPATH` when the arbiter chose the software engine (R109, R131). -/
theorem responds_init {i : Instr} {s t : State} {m : Mode} {ks : KeySize} {sw : Bool}
    (hreq : requestOf i = some (m, ks)) (hsw : sw = true ↔ select m ks s.caps = some (.sw m))
    (hport : t.responsePort = s.responsePort ++ [⟨statusWord .ok sw, []⟩]) : Responds i s t :=
  ⟨.ok, sw, [], hport, by simp [hreq, hsw], fun hout => absurd rfl hout⟩

/-- XFORM asks for no engine, so a successful one answers without `SWPATH` (R109). -/
theorem responds_xform (c : BitVec 8) (dir : Direction) (len : Word) (data : Bytes) {s t : State} {out : Bytes}
    (hport : t.responsePort = s.responsePort ++ [⟨statusWord .ok false, out⟩]) :
    Responds (.xform c dir len data) s t :=
  ⟨.ok, false, out, hport, by simp [requestOf], fun _ => ⟨rfl, c, dir, len, data, rfl⟩⟩

theorem responds_release (c : BitVec 8) {s t : State}
    (hport : t.responsePort = s.responsePort ++ [⟨statusWord .ok false, []⟩]) : Responds (.release c) s t :=
  ⟨.ok, false, [], hport, by simp [requestOf], fun hout => absurd rfl hout⟩

/-- The five INITs, over the ways an INIT can end (R136). -/
theorem responds_exec_init {i : Instr} {s t : State} {m : Mode} {ks : KeySize}
    (hreq : requestOf i = some (m, ks)) (h : exec i s = .next t) : Responds i s t := by
  obtain ⟨dir, key, iv, hinit⟩ := requestOf_eq_some hreq
  rcases init_cases hinit h with ⟨-, rfl⟩ | ⟨_, -, -, rfl⟩ | ⟨_, -, -, -, rfl⟩ |
    ⟨_, e, _, -, -, hsel, hpath, rfl⟩ | ⟨_, -, -, hsel, ⟨-, rfl⟩ | ⟨_, -, rfl⟩⟩
  · exact responds_raise i s (by decide)
  · exact responds_raise i s (by decide)
  · exact responds_raise i s (by decide)
  · have not_software : select m ks s.caps ≠ some (.sw m) := by
      rw [hsel]
      rintro ⟨⟩
      cases hpath
    exact responds_init hreq (by simpa using not_software) rfl
  · exact responds_raise i s (by decide)
  · exact responds_init hreq (iff_of_true rfl hsel) rfl

/-- XFORM, over the ways it can end (R150). -/
theorem responds_exec_xform {c : BitVec 8} {dir : Direction} {len : Word} {data : Bytes} {s t : State}
    (h : exec (.xform c dir len data) s = .next t) : Responds (.xform c dir len data) s t := by
  rcases xform_cases h with ⟨-, rfl⟩ | ⟨_, -, -, rfl⟩ | ⟨_, _, _, -, -, -, -, hend⟩
  · exact responds_raise _ s (by decide)
  · exact responds_raise _ s (by decide)
  · rcases hend with ⟨-, rfl⟩ | ⟨-, -, -, rfl⟩ | ⟨-, -, rfl⟩ | ⟨-, -, -, rfl⟩ | ⟨-, -, -, rfl⟩ |
      ⟨-, -, _, -, rfl⟩
    · exact responds_raise _ s (by decide)
    · exact responds_raise _ s (by decide)
    · exact responds_xform c dir len data rfl
    · exact responds_raise _ s (by decide)
    · exact responds_raise _ s (by decide)
    · exact responds_xform c dir len data rfl

/-- RELEASE, over the ways it can end (R158). -/
theorem responds_exec_release {c : BitVec 8} {s t : State} (h : exec (.release c) s = .next t) :
    Responds (.release c) s t := by
  rcases release_cases h with ⟨-, rfl⟩ | ⟨_, -, -, rfl⟩ | ⟨_, -, -, rfl⟩
  · exact responds_raise _ s (by decide)
  · exact responds_raise _ s (by decide)
  · exact responds_release c rfl

/-- Settles O20, command by command. -/
theorem responseForm : Obligations.ResponseForm := by
  intro s t i h
  cases i with
  | initEcb | initOfb | initCfb128 | initCfb8 | initCfb1 => exact responds_exec_init rfl h
  | xform c dir len data => exact responds_exec_xform h
  | release c => exact responds_exec_release h

end Sys2Proof.Proofs
end

section
/-! The function selector (30_encoding.md R112, R113): a selector is the number its three fields make. -/

namespace Sys2Proof.Proofs

open Sys2Proof.Machine Sys2Proof.Safety Sys2Proof.Laws

/-- R112: the three fields tile the selector. -/
theorem selector_toNat (fs : BitVec 8) :
    fs.toNat = (fsKs fs).toNat + 4 * (fsDec fs).toNat + 8 * (fsFbw fs).toNat := by
  have hfs := fs.isLt
  have hdec : (fsDec fs).toNat = fs.toNat / 2 ^ 2 % 2 := by
    rw [fsDec, BitVec.getLsbD, Nat.toNat_testBit]
  simp only [hdec, fsKs, fsFbw, BitVec.extractLsb'_toNat, Nat.shiftRight_eq_div_pow]
  omega

theorem fsPack_toNat (k : BitVec 2) (d : Bool) (w : BitVec 5) :
    (fsPack k d w).toNat = k.toNat + 4 * d.toNat + 8 * w.toNat := by
  rw [selector_toNat, fsKs_fsPack, fsDec_fsPack, fsFbw_fsPack]

/-- Settles O27: `fsPack_toNat` at each engine's fields, and the laws by which the fields read back. -/
theorem functionSelectorValues : Obligations.FunctionSelectorValues := by
  refine ⟨fun k d => ?_, fun k d w => ⟨fsKs_fsPack k d w, fsDec_fsPack k d w, fsFbw_fsPack k d w, ?_⟩⟩
  · simp [selectorOf, fsPack_toNat, fbwNone, fbwByte, fbwBlock]
  · simp [fsGen_fsPack, fsPack_toNat, fbwNone]

end Sys2Proof.Proofs
end

section
/-! The arbiter (40_selector_init.md R131): one equation for the modes with a hardware engine, one for CFB1. -/

namespace Sys2Proof.Proofs

open Sys2Proof.Machine Sys2Proof.Laws

/-- Every mode but CFB1 has a hardware engine (R23, R134). -/
theorem exists_hwEngine {m : Mode} (hm : m ≠ .cfb1) : ∃ h, hwEngine m = some h := by
  cases m with
  | ecb | ofb | cfb128 | cfb8 => exact ⟨_, rfl⟩
  | cfb1 => exact absurd rfl hm

theorem hwCap_of_hwEngine {m : Mode} {h : Engine} (hm : hwEngine m = some h) (caps : Word) (k : KeySize) :
    hwCap caps m k = caps.getLsbD (hwBit m k) := by
  have not_cfb1 : m ≠ .cfb1 := by
    rintro rfl
    cases hm
  exact if_neg not_cfb1

theorem select_of_hwEngine {m : Mode} {h : Engine} (hm : hwEngine m = some h) (k : KeySize) (caps : Word) :
    select m k caps = if caps.getLsbD (hwBit m k) then some h
      else if caps.getLsbD (swBit m k) then some (.sw m) else none := by
  rw [select, hwCap_of_hwEngine hm, hm, swCap]

/-- No bit of `CAPS` makes a hardware engine for CFB1 (R134). -/
theorem select_cfb1 (k : KeySize) (caps : Word) :
    select .cfb1 k caps = if caps.getLsbD (swBit .cfb1 k) then some (.sw .cfb1) else none := rfl

/-- With the hardware flag set the software flag is not consulted (R131). -/
theorem select_of_hwCap {m : Mode} {k : KeySize} {caps : Word} {h : Engine} (hhw : hwCap caps m k = true)
    (hm : hwEngine m = some h) : select m k caps = some h :=
  (if_pos hhw).trans hm

/-- With the hardware flag clear or absent the software flag decides (R131). -/
theorem select_of_not_hwCap {m : Mode} {k : KeySize} {caps : Word} (hhw : hwCap caps m k = false) :
    select m k caps = if swCap caps m k then some (.sw m) else none :=
  if_neg (Bool.eq_false_iff.mp hhw)

/-- `HW[m][k]` is clear, or absent as for CFB1 (R33, R134). -/
theorem hwCap_eq_false {m : Mode} {k : KeySize} {caps : Word}
    (h : m = .cfb1 ∨ caps.getLsbD (hwBit m k) = false) : hwCap caps m k = false := by
  rcases h with rfl | hbit
  · rfl
  · simp [hwCap, hbit]

/-- Settles O26: the two flags decide; and, position by position of R33's list, the equation of each mode. -/
theorem arbiterRule : Obligations.ArbiterRule := by
  refine ⟨fun m k caps => ⟨fun hm hhw => ?_, fun hhw hsw => ?_, fun hhw hsw => ?_⟩,
    fun k j caps hk => ?_⟩
  · obtain ⟨h, hh⟩ := exists_hwEngine hm
    have hsel : select m k caps = some h := (select_of_hwEngine hh k caps).trans (if_pos hhw)
    exact ⟨h, hsel, hwEngine_path hh, select_mode hsel⟩
  · exact (select_of_not_hwCap (hwCap_eq_false hhw)).trans (if_pos hsw)
  · exact (select_of_not_hwCap (hwCap_eq_false hhw)).trans (if_neg (Bool.eq_false_iff.mp hsw))
  · have hcode : (ksCode k).toNat = j := by
      simp only [List.mem_cons, Prod.mk.injEq, List.not_mem_nil, or_false] at hk
      rcases hk with ⟨rfl, rfl⟩ | ⟨rfl, rfl⟩ | ⟨rfl, rfl⟩ <;> rfl
    subst hcode
    refine ⟨fun h m hw sw hrow => ?_, select_cfb1 k caps⟩
    have hpos : hwEngine m = some h ∧ 3 * (modeCode m).toNat = hw ∧ 12 + 3 * (modeCode m).toNat = sw := by
      simp only [List.mem_cons, Prod.mk.injEq, List.not_mem_nil, or_false] at hrow
      rcases hrow with ⟨rfl, rfl, rfl, rfl⟩ | ⟨rfl, rfl, rfl, rfl⟩ | ⟨rfl, rfl, rfl, rfl⟩ |
        ⟨rfl, rfl, rfl, rfl⟩ <;> exact ⟨rfl, rfl, rfl⟩
    obtain ⟨hm, rfl, rfl⟩ := hpos
    exact select_of_hwEngine hm k caps

end Sys2Proof.Proofs
end

section
/-! INIT (40_selector_init.md R136 to R143): the front end in each of its cases, and what each path writes. -/

namespace Sys2Proof.Proofs

open Sys2Proof.Machine Sys2Proof.Safety Sys2Proof.Laws

/-! ### The hardware path -/

/-- R112: the selector as a number. -/
theorem fsPack_eq_ofNat (k : BitVec 2) (d : Bool) (w : BitVec 5) :
    fsPack k d w = BitVec.ofNat 8 (k.toNat + 4 * d.toNat + 8 * w.toNat) := by
  rw [← fsPack_toNat, BitVec.ofNat_toNat, BitVec.setWidth_eq]

/-- Settles O28: `HW_ECB` with selector `(KS, DIR, 0)`, no register and no offset. -/
theorem initEcbOnHardware : Obligations.InitEcbOnHardware := by
  intro s c ks dir key x hx he hhw
  rw [exec_initEcb, initEcbOn, initFront_go hx he (select_of_hwCap hhw rfl), fsPack_eq_ofNat]
  rfl

/-- Settles O29: `HW_OFB` with selector `(KS, 0, 0)` for both directions. -/
theorem initOfbOnHardware : Obligations.InitOfbOnHardware := by
  intro s c ks dir key iv x hx he hhw
  rw [exec_initOfb, initOfbOn, initFront_go hx he (select_of_hwCap hhw rfl), fsPack_eq_ofNat]
  rfl

/-- Settles O30: `HW_CFB128` with selector `(KS, DIR, 16)`. -/
theorem initCfb128OnHardware : Obligations.InitCfb128OnHardware := by
  intro s c ks dir key iv x hx he hhw
  rw [exec_initCfb128, initCfb128On, initFront_go hx he (select_of_hwCap hhw rfl), fsPack_eq_ofNat]
  rfl

/-- Settles O31: `HW_CFB8` with selector `(KS, DIR, 1)`. -/
theorem initCfb8OnHardware : Obligations.InitCfb8OnHardware := by
  intro s c ks dir key iv x hx he hhw
  rw [exec_initCfb8, initCfb8On, initFront_go hx he (select_of_hwCap hhw rfl), fsPack_eq_ofNat]
  rfl

/-! ### Every INIT: the software path and the rejections -/

/-- Every INIT is the shared front end, and what it does with the software handle of its mode is
`populateSw` (R136, R143). -/
theorem exec_init_eq_initFront {m : Mode} {c : BitVec 8} {ks : KeySize} {dir : Direction} {key : Bytes}
    {iv : Option Block} {i : Instr} (hi : initInstr m c ks dir key iv = some i) (s : State) :
    ∃ f : Engine → State, exec i s = .next (initFront m c ks s f) ∧
      f (.sw m) = populateSw Config.platform m c ks dir key iv s := by
  cases m <;> cases iv <;> cases hi <;> exact ⟨_, rfl, rfl⟩

/-- `CTX` of an INIT is the slot it names (R106). -/
theorem slot_of_initInstr {m : Mode} {c : BitVec 8} {ks : KeySize} {dir : Direction} {key : Bytes}
    {iv : Option Block} {i : Instr} (hi : initInstr m c ks dir key iv = some i) : i.slot = c := by
  obtain ⟨hword, -⟩ := initInstr_eq_some hi
  rw [← fieldCtx_encodeWord, hword, fieldCtx_packWord]

theorem initFront_of_ready {c : BitVec 8} {s : State} {x : Slot} (m : Mode) (k : KeySize)
    (f : Engine → State) (hx : s.slot? c = some x) (hr : x.state = .ready) :
    initFront m c k s f = raise .errCtxInUse s := by
  simp [initFront, hx, hr]

theorem initFront_of_no_engine {m : Mode} {c : BitVec 8} {k : KeySize} {s : State} {x : Slot}
    (f : Engine → State) (hx : s.slot? c = some x) (he : x.state = .empty)
    (hsel : select m k s.caps = none) : initFront m c k s f = raise .errUnsupported s := by
  simp [initFront, hx, he, hsel]

/-- Settles O32: the arbiter answers the software handle, and `populateSw` makes the one call of `SwInit`. -/
theorem initOnSoftwarePath : Obligations.InitOnSoftwarePath := by
  intro s m c ks dir key iv i x hi hx he hhw hsw
  obtain ⟨f, hexec, hf⟩ := exec_init_eq_initFront hi s
  have hsel : select m ks s.caps = some (.sw m) := (select_of_not_hwCap hhw).trans (if_pos hsw)
  rw [hexec, initFront_go hx he hsel, hf]
  rcases populateSw_cases Config.platform m c ks dir key iv s with ⟨hfail, h⟩ | ⟨st, hstate, h⟩
  · have hfail : Config.swInit m ks dir key iv = none := hfail
    rw [h, hfail]
    rfl
  · have hstate : Config.swInit m ks dir key iv = some st := hstate
    rw [h, hstate]
    rfl

/-- At a command boundary `raise` adds the status word and nothing else (R20, R285). -/
theorem raise_eq_withResponse {s : State} (hs : StateOk s) (st : Status) :
    raise st s = withResponse s (statusWord st false) [] := by
  obtain ⟨-, -, -, -, hphase, hstaging⟩ := hs
  exact finish_eq_withResponse hphase hstaging _

/-- Settles O34, check by check. -/
theorem initRejections : Obligations.InitRejections := by
  intro s m c ks dir key iv i hs hi
  obtain ⟨f, hexec, -⟩ := exec_init_eq_initFront hi s
  refine ⟨fun hc => ?_, fun x hx hr => ?_, fun x hx he hhw hsw => ?_⟩
  · have hslot : s.slot? i.slot = none := by rwa [slot_of_initInstr hi, slot_eq_none_iff]
    rw [exec_of_slot_eq_none hslot, raise_eq_withResponse hs]
    rfl
  · rw [hexec, initFront_of_ready m ks f hx hr, raise_eq_withResponse hs]
    rfl
  · have hsel : select m ks s.caps = none :=
      (select_of_not_hwCap hhw).trans (if_neg (Bool.eq_false_iff.mp hsw))
    rw [hexec, initFront_of_no_engine f hx he hsel, raise_eq_withResponse hs]
    rfl

/-- Settles O33: CFB1 has no hardware flag (R134), so its rejections are those of every INIT, and with the software
flag set it takes the software path, which ends at a command boundary. -/
theorem initCfb1Command : Obligations.InitCfb1Command := by
  intro s c ks dir key iv hs
  have no_hardware : hwCap s.caps .cfb1 ks = false := rfl
  obtain ⟨no_slot, in_use, unsupported⟩ := initRejections s .cfb1 c ks dir key (some iv) _ hs rfl
  refine ⟨no_slot, in_use, fun x hx he hsw => unsupported x hx he no_hardware hsw,
    fun x hx he hsw => ?_⟩
  obtain ⟨-, -, -, -, hphase, hstaging⟩ := hs
  rw [initOnSoftwarePath s .cfb1 c ks dir key (some iv) _ x rfl hx he no_hardware hsw]
  cases Config.swInit .cfb1 ks dir key (some iv) with
  | none => exact congrArg _ (finish_eq_withResponse hphase hstaging _)
  | some st => exact congrArg _ (finish_eq_withResponse (s := s.setSlot c _) hphase hstaging _)

end Sys2Proof.Proofs
end

section
/-! RELEASE and the front end of XFORM (41_xform_dispatch.md R150 to R158): what each check answers, and what an
XFORM leaves of the slot it works on. -/

namespace Sys2Proof.Proofs

open Sys2Proof.Machine Sys2Proof.Safety Sys2Proof.Laws

/-! ### RELEASE -/

@[simp] theorem exec_release (c : BitVec 8) (s : State) : exec (.release c) s = .next (releaseSlot c s) := rfl

theorem releaseSlot_of_empty {s : State} {c : BitVec 8} {x : Slot} (hx : s.slot? c = some x)
    (he : x.state = .empty) : releaseSlot c s = raise .errNoContext s := by
  simp [releaseSlot, hx, he]

theorem releaseSlot_of_ready {s : State} {c : BitVec 8} {x : Slot} (hx : s.slot? c = some x)
    (hr : x.state = .ready) : releaseSlot c s = respondOk false [] (s.setSlot c Slot.cleared) := by
  simp [releaseSlot, hx, hr]

/-- At a command boundary an OK response is added and nothing else changes (R20, R109). -/
theorem respondOk_eq_withResponse {s : State} (hs : StateOk s) (sw : Bool) (out : Bytes) :
    respondOk sw out s = withResponse s (statusWord .ok sw) out := by
  obtain ⟨-, -, -, -, hphase, hstaging⟩ := hs
  exact finish_eq_withResponse hphase hstaging _

/-- Settles O35, check by check; the released slot keeps the invariant, so the command ends at a boundary. -/
theorem releaseCommand : Obligations.ReleaseCommand := by
  intro s c hs
  refine ⟨fun hc => ?_, fun x hx he => ?_, fun x hx hr => ?_⟩
  · rw [exec_of_slot_eq_none ((slot_eq_none_iff s c).mpr hc), raise_eq_withResponse hs]
    rfl
  · rw [exec_release, releaseSlot_of_empty hx he, raise_eq_withResponse hs]
    rfl
  · have released_ok := stateOk_setSlot c hs slotOk_cleared
    rw [exec_release, releaseSlot_of_ready hx hr, respondOk_eq_withResponse released_ok]
    rfl

/-! ### The checks of XFORM -/

section Checks

variable {P : Platform} {c : BitVec 8} {dir d : Direction} {len : Word} {data : Bytes} {s : State} {x : Slot}
  {h : Engine}

theorem xformOn_of_empty (hx : s.slot? c = some x) (he : x.state = .empty) :
    xformOn P c dir len data s = .next (raise .errNoContext s) := by
  simp [xformOn, hx, he]

theorem xformOn_of_direction_ne (hx : s.slot? c = some x) (hr : x.state = .ready) (hd : x.direction = some d)
    (he : x.engine = some h) (hne : dir ≠ d) :
    xformOn P c dir len data s = .next (raise .errDirMismatch s) := by
  rw [xformOn_ready hx hr hd he, if_pos hne]

theorem xformOn_of_misaligned (hx : s.slot? c = some x) (hr : x.state = .ready) (hd : x.direction = some dir)
    (he : x.engine = some h) (hecb : h.mode = .ecb) (hmod : len.toNat % 16 ≠ 0) :
    xformOn P c dir len data s = .next (raise .errMisaligned s) := by
  rw [xformOn_ready hx hr hd he, if_neg (not_not_intro rfl), if_pos ⟨hecb, hmod⟩]

/-- R153: length 0 is aligned in every mode, and no body runs. -/
theorem xformOn_of_zero_length (hx : s.slot? c = some x) (hr : x.state = .ready) (hd : x.direction = some dir)
    (he : x.engine = some h) : xformOn P c dir 0 data s = .next (respondOk false [] s) := by
  rw [xformOn_ready hx hr hd he, if_neg (not_not_intro rfl), if_neg fun ⟨_, hmod⟩ => hmod rfl, if_pos rfl]

end Checks

/-- The checks of XFORM read the handle and the direction, which a READY slot holds (R31). -/
theorem exists_engine_direction {s : State} {c : BitVec 8} {x : Slot} (hs : StateOk s)
    (hx : s.slot? c = some x) (hr : x.state = .ready) :
    ∃ h d, x.engine = some h ∧ x.direction = some d := by
  obtain ⟨-, -, hslots, -⟩ := hs
  obtain ⟨-, ready_ok⟩ := hslots x (slot_mem hx)
  obtain ⟨h, he, d, hd, -⟩ := ready_ok hr
  exact ⟨h, d, he, hd⟩

/-- Settles O36, check by check in the order of R283. -/
theorem xformRejections : Obligations.XformRejections := by
  intro s c dir len data hs
  refine ⟨fun hc => ?_, fun x hx he => ?_, fun x hx hr hdir => ?_, fun x h hx hr hd he hecb hmod => ?_⟩
  · rw [exec_of_slot_eq_none ((slot_eq_none_iff s c).mpr hc), raise_eq_withResponse hs]
    rfl
  · rw [exec_xform, xformOn_of_empty hx he, raise_eq_withResponse hs]
    rfl
  · obtain ⟨h, d, he, hd⟩ := exists_engine_direction hs hx hr
    have hne : dir ≠ d := fun heq => hdir (heq ▸ hd)
    rw [exec_xform, xformOn_of_direction_ne hx hr hd he hne, raise_eq_withResponse hs]
    rfl
  · rw [exec_xform, xformOn_of_misaligned hx hr hd he hecb hmod, raise_eq_withResponse hs]
    rfl

/-- Settles O37: the rejections are those of every XFORM, and with the checks passed no body runs. -/
theorem xformZeroLength : Obligations.XformZeroLength := by
  intro s c dir x hs hx
  obtain ⟨-, no_context, dir_mismatch, -⟩ := xformRejections s c dir 0 [] hs
  refine ⟨fun hr hd => ?_, no_context x hx, dir_mismatch x hx⟩
  obtain ⟨h, -, he, -⟩ := exists_engine_direction hs hx hr
  rw [exec_xform, xformOn_of_zero_length hx hr hd he, respondOk_eq_withResponse hs]
  rfl

/-! ### What XFORM leaves of its slot -/

/-- An XFORM leaves its own slot as it was, or commits the staging registers to it (R35, R155). -/
theorem xform_own_slot {c : BitVec 8} {dir : Direction} {len : Word} {data : Bytes} {s t : State} {x : Slot}
    (h : exec (.xform c dir len data) s = .next t) (hx : s.slot? c = some x) :
    t.slot? c = some x ∨ ∃ g, t.slot? c = some (committed g x) := by
  rcases xform_cases h with ⟨-, rfl⟩ | ⟨_, -, -, rfl⟩ | ⟨y, _, _, hy, -, -, -, hend⟩
  · exact .inl hx
  · exact .inl hx
  · rcases hend with ⟨-, rfl⟩ | ⟨-, -, -, rfl⟩ | ⟨-, -, rfl⟩ | ⟨-, -, -, rfl⟩ | ⟨-, -, -, rfl⟩ |
      ⟨-, -, g, -, rfl⟩
    · exact .inl hx
    · exact .inl hx
    · exact .inl hx
    · exact .inl hx
    · exact .inl hx
    · obtain rfl : x = y := Option.some.inj (hx.symm.trans hy)
      exact .inr ⟨g, setSlot_slot_self hx⟩

/-- Settles O45: `commit` writes the register, the offset and the software state alone, and the rest is the frame
of every command. -/
theorem xformNeverChanges : Obligations.XformNeverChanges := by
  intro s t c dir len data h
  obtain ⟨other_slots, hcaps, -, -⟩ := oneSlotFrame _ _ _ h
  refine ⟨fun x hx => ?_, other_slots, hcaps⟩
  rcases xform_own_slot h hx with hkept | ⟨g, hcommit⟩
  · exact ⟨x, hkept, rfl, rfl, rfl, rfl, rfl⟩
  · exact ⟨committed g x, hcommit, rfl, rfl, rfl, rfl, rfl⟩

end Sys2Proof.Proofs
end

section
/-! ECB (42_ecb.md R166, R169): one invoke of kind BLOCK over the whole input, each block alone (R69), and no
state of the slot to write back. The kind is a map over blocks, so a second one with the inverse map undoes it. -/

namespace Sys2Proof.Proofs

open Sys2Proof.Machine Sys2Proof.Safety Sys2Proof.Laws

/-! ### Kind BLOCK, block by block -/

theorem blockAt_zero (b : Bytes) : blockAt b 0 = blockOfBytes (b.take 16) := by
  simp [blockAt, memRead]

theorem blockAt_succ (b : Bytes) (j : Nat) : blockAt b (j + 1) = blockAt (b.drop 16) j := by
  simp [blockAt, memRead, Nat.mul_succ, Nat.add_comm]

/-- R69: block `j` of the output is `f` of block `j` of the input. -/
theorem blockAt_blockKind (f : Block → Block) {m j : Nat} (hj : j < m) (d : Bytes) :
    blockAt (blockKind f m d) j = f (blockAt d j) := by
  induction m generalizing j d with
  | zero => cases hj
  | succ m ih =>
    cases j with
    | zero => simp [blockAt_zero, blockKind, List.take_left']
    | succ j => simpa [blockAt_succ, blockKind, List.drop_left'] using ih (Nat.lt_of_succ_lt_succ hj) (d.drop 16)

/-- The kind with an inverse block function undoes it, on whole blocks. -/
theorem blockKind_blockKind {f g : Block → Block} (hgf : ∀ x, g (f x) = x) {m : Nat} {d : Bytes}
    (hd : d.length = 16 * m) : blockKind g m (blockKind f m d) = d := by
  induction m generalizing d with
  | zero => exact (List.length_eq_zero_iff.mp hd).symm
  | succ m ih =>
    have hfirst : (d.take 16).length = 16 := by rw [List.length_take]; omega
    have hrest : (d.drop 16).length = 16 * m := by rw [List.length_drop]; omega
    calc blockKind g (m + 1) (blockKind f (m + 1) d)
        = (blockOfBytes (d.take 16)).toList ++ blockKind g m (blockKind f m (d.drop 16)) := by
          simp [blockKind, List.take_left', List.drop_left', hgf]
      _ = d.take 16 ++ d.drop 16 := by rw [toList_blockOfBytes hfirst, ih hrest]
      _ = d := List.take_append_drop 16 d

/-! ### The output of a context -/

/-- What an ECB context of direction `dir` does to one block (R69). -/
def ecbBlock (P : Platform) (key : Bytes) : Direction → Block → Block
  | .encrypt => P.blockE key
  | .decrypt => P.blockD key

/-- The output of an ECB context on whole blocks (R69). -/
def ecbOutput (P : Platform) (key : Bytes) (dir : Direction) (data : Bytes) : Bytes :=
  blockKind (ecbBlock P key dir) (data.length / 16) data

theorem ecbOutput_length (P : Platform) (key : Bytes) (dir : Direction) {data : Bytes}
    (hmod : data.length % 16 = 0) : (ecbOutput P key dir data).length = data.length := by
  rw [ecbOutput, blockKind_length, Nat.mul_div_cancel' (Nat.dvd_of_mod_eq_zero hmod)]

/-- R169: whole blocks, each of which `D` gives back. -/
theorem ecbOutput_decrypt_encrypt {P : Platform} {key data : Bytes}
    (hinverse : ∀ x, P.blockD key (P.blockE key x) = x) (hmod : data.length % 16 = 0) :
    ecbOutput P key .decrypt (ecbOutput P key .encrypt data) = data := by
  have hblocks : data.length = 16 * (data.length / 16) :=
    (Nat.mul_div_cancel' (Nat.dvd_of_mod_eq_zero hmod)).symm
  rw [ecbOutput, ecbOutput_length P key .encrypt hmod]
  exact blockKind_blockKind hinverse hblocks

/-! ### The command -/

section Command

variable {P : Platform} {ks : KeySize} {dir : Direction} {key : Bytes} {len : Word} {data : Bytes}
  {fs c : BitVec 8} {s : State}

/-- The selector of ECB computes the context's block function (R68, R113). -/
theorem primCompute_ecb (hfs : selectorOf .hwEcb dir ks = some fs) :
    primCompute P .block fs key data none = ⟨ecbOutput P key dir data, none⟩ := by
  cases hfs
  cases dir <;> simp [primCompute, ecbOutput, ecbBlock, dirBit]

/-- The invoke of ECB on whole blocks fails exactly where `PrimFails` holds (R68, R73, R74). -/
theorem prim_ecb (hkey : key.length = ks.bytes) (hfs : selectorOf .hwEcb dir ks = some fs)
    (hpos : 0 < data.length) (hmod : data.length % 16 = 0) :
    prim P fs key data none =
      if P.primFails fs key data none = true then none else some ⟨ecbOutput P key dir data, none⟩ := by
  have hkind : primKind fs none = some .block := by cases hfs; exact primKind_block _ _
  have hbytes : fsKeyBytes fs = some key.length := by cases hfs; rw [fsKeyBytes_fsPack, hkey]
  cases hfails : P.primFails fs key data none with
  | true => simp [prim, hkind, hfails]
  | false =>
    rw [prim_of_ok hkind hbytes (primLengthOk_of_blocks _ hpos hmod) hfails, primCompute_ecb hfs]
    rfl

/-- Writing a slot with what it holds. -/
theorem setSlot_self {x : Slot} (hx : s.slot? c = some x) : s.setSlot c x = s := by
  obtain ⟨hc, rfl⟩ := List.getElem?_eq_some_iff.mp hx
  simp [State.setSlot]

/-- R35: a commit whose staging registers hold an output alone leaves the slot as it was. -/
theorem commit_output {x : Slot} (hx : s.slot? c = some x) (out : Bytes) :
    commit c x (s.stage { Staging.none with out := out }) = respondOk false out s := by
  have hcommitted : committed { Staging.none with out := out } x = x := rfl
  rw [commit_eq_finish, hcommitted, setSlot_self hx, respondOk_eq_finish]

/-- Everything a nonempty XFORM does on a whole-block input of an ECB context (R166). -/
theorem xformOn_ecb (hkey : key.length = ks.bytes) (hfs : selectorOf .hwEcb dir ks = some fs)
    (hs : HoldsStream s c .hwEcb dir key fs none none) (hwf : data.length = len.toNat) (hlen : len ≠ 0)
    (hmod : len.toNat % 16 = 0) :
    xformOn P c dir len data s = .next
      (if P.primFails fs key data none = true then raise .errPrimFail s
        else respondOk false (ecbOutput P key dir data) s) := by
  have hpos : 0 < data.length := by
    rw [hwf]; exact Nat.pos_of_ne_zero fun h => hlen (BitVec.eq_of_toNat_eq h)
  rw [xformOn_body hs hlen fun _ => hmod]
  simp only [xformBody, xformEcb, hwSlot_functionSelector, hwSlot_keyMaterial, readField_some,
    memRead_zero_length, prim_ecb hkey hfs hpos (hwf ▸ hmod)]
  cases P.primFails fs key data none with
  | true => rfl
  | false => exact congrArg _ (commit_output (s := (s.enter .check).enter .bulk) hs _)

/-- With no failing invoke a whole-block message is one command of an ECB context, the empty one included
(R153, R166). -/
theorem runChunks_ecb (hnever : NeverFails P) (hkey : key.length = ks.bytes)
    (hfs : selectorOf .hwEcb dir ks = some fs) (hs : HoldsStream s c .hwEcb dir key fs none none)
    (hmod : data.length % 16 = 0) (hfit : data.length ≤ lenMax) :
    runChunks P c dir [data] s =
      some (respondOk false (ecbOutput P key dir data) s, ecbOutput P key dir data) := by
  have hlen : (BitVec.ofNat 32 data.length).toNat = data.length :=
    Nat.mod_eq_of_lt (Nat.lt_of_le_of_lt hfit (by decide))
  have hstep : xformOn P c dir (BitVec.ofNat 32 data.length) data s =
      .next (respondOk false (ecbOutput P key dir data) s) := by
    by_cases hempty : data = []
    · subst hempty
      exact xformOn_of_zero_length hs rfl rfl rfl
    · have hne : BitVec.ofNat 32 data.length ≠ 0 := fun h =>
        hempty (List.length_eq_zero_iff.mp (hlen.symm.trans (congrArg BitVec.toNat h)))
      rw [xformOn_ecb hkey hfs hs hlen.symm hne (hlen.symm ▸ hmod), hnever, if_neg Bool.false_ne_true]
  simp [runChunks, hstep]

end Command

/-- Settles O38: the output is kind BLOCK over the whole input. -/
theorem xformEcbResult : Obligations.XformEcbResult := by
  intro s c ks dir key len data fs hkey hfs hs hwf hlen hmod
  refine ⟨ecbOutput Config.platform key dir data, ecbOutput_length _ _ _ (hwf ▸ hmod), fun j hj => ?_, ?_⟩
  · rw [ecbOutput, blockAt_blockKind _ hj]
    cases dir <;> rfl
  · rw [exec_xform, xformOn_ecb hkey hfs hs hwf hlen hmod]
    rfl

/-- Settles O57: both runs are one command, and the second applies `D` where the first applied `E`. -/
theorem ecbRoundTrip : Obligations.EcbRoundTrip := by
  intro P s s' c c' ks key msg fs fs' hinverse hnever hkey hfs hfs' hs hs' hmod hfit
  have hcipher := ecbOutput_length P key .encrypt hmod
  have encrypted := runChunks_ecb hnever hkey hfs hs hmod hfit
  have decrypted := runChunks_ecb hnever hkey hfs' hs' (hcipher ▸ hmod) (hcipher ▸ hfit)
  rw [ecbOutput_decrypt_encrypt (hinverse ks key · hkey) hmod] at decrypted
  exact ⟨_, _, _, encrypted, decrypted⟩

end Sys2Proof.Proofs
end

section
/-! The common body of OFB and CFB-128, exactly (43_ofb.md R176 to R183, 44_cfb128.md R196 to R201). Each of the
three phases takes the carousel the reference makes of the first bytes of the input to that of more of them, and the
bulk and the tail alone make an invoke, which fails where `PrimFails` holds. -/

namespace Sys2Proof.Proofs

open Sys2Proof.Machine Sys2Proof.Safety Sys2Proof.Laws

variable {P : Platform} {mux : FeedbackMux} {fs : BitVec 8} {key data : Bytes} {cv : Block} {n : Fin 16}

/-! ### The phases -/

/-- The staged copies the reference makes of the first `k` bytes of the input (R253). -/
def carouselAfter (e : Block → Block) (mux : FeedbackMux) (cv : Block) (n : Fin 16) (data : Bytes) (k : Nat) :
    Carousel :=
  let r := refRun e mux (data.take k) cv n
  ⟨r.2.1, r.2.2, r.1⟩

theorem carouselAfter_add (e : Block → Block) (mux : FeedbackMux) (cv : Block) (n : Fin 16) (data : Bytes)
    (k m : Nat) :
    carouselAfter e mux cv n data (k + m) =
      let w := carouselAfter e mux cv n data k
      let r := refRun e mux ((data.drop k).take m) w.cv w.n
      ⟨r.2.1, r.2.2, w.out ++ r.1⟩ := by
  simp only [carouselAfter, List.take_add, refRun_append]

/-- R183 (i): the offset counts the bytes done. -/
theorem carouselAfter_n_val (e : Block → Block) (mux : FeedbackMux) (cv : Block) (n : Fin 16) (data : Bytes)
    {k : Nat} (hk : k ≤ data.length) : (carouselAfter e mux cv n data k).n.val = (n.val + k) % 16 := by
  simp only [carouselAfter, refRun_offset, List.length_take, Nat.min_eq_left hk]

theorem drainPhase_eq_carouselAfter (e : Block → Block) (mux : FeedbackMux) (cv : Block) (n : Fin 16)
    (data : Bytes) :
    drainPhase mux data ⟨cv, n, []⟩ =
      (carouselAfter e mux cv n data (drainedOf n data.length), data.drop (drainedOf n data.length)) := by
  rw [drainPhase_exact e]
  rfl

/-- An invoke that the contract allows and that has a key of its length fails exactly where `PrimFails` holds. -/
theorem prim_eq_none_iff {cv : Option Block} {kind : PrimKind} (hkind : primKind fs cv = some kind)
    (hkey : fsKeyBytes fs = some key.length) (hlen : primLengthOk kind data = true) :
    prim P fs key data cv = none ↔ P.primFails fs key data cv = true := by
  simp [prim, hkind, hkey, hlen]

/-- The bulk phase fails exactly when its invoke is made and fails (R179, R198). -/
theorem bulkPhase_eq_none_iff {rest : Bytes} {w : Carousel} (hp : Paired fs mux)
    (hkey : fsKeyBytes fs = some key.length) :
    bulkPhase P fs key rest w = none ↔
      bulkLen rest ≠ 0 ∧ P.primFails fs key (memRead rest 0 (bulkLen rest)) (some w.cv) = true := by
  have hlen : (memRead rest 0 (bulkLen rest)).length = bulkLen rest := by
    simp [memRead, bulkLen_le]
  unfold bulkPhase
  split
  · simp [*]
  · rename_i hbulk
    have hok : ∀ kind, primLengthOk kind (memRead rest 0 (bulkLen rest)) = true := fun kind =>
      primLengthOk_of_blocks kind (by omega) (by rw [hlen, bulkLen_mod])
    have hkind : ∃ kind, primKind fs (some w.cv) = some kind := by
      rcases hp with ⟨-, hofb⟩ | ⟨-, -, -, hcfb⟩
      · exact ⟨_, hofb w.cv⟩
      · exact ⟨_, hcfb w.cv⟩
    obtain ⟨kind, hkind⟩ := hkind
    rw [← prim_eq_none_iff hkind hkey (hok kind)]
    cases prim P fs key (memRead rest 0 (bulkLen rest)) (some w.cv) <;> simp [hbulk]

/-- The tail phase fails exactly when its invoke is made and fails (R180, R199). -/
theorem tailPhase_eq_none_iff {left : Bytes} {w : Carousel} (hkey : fsKeyBytes fs = some key.length) :
    tailPhase P mux fs key left w = none ↔
      left.length ≠ 0 ∧ P.primFails (fsGen fs) key w.cv.toList none = true := by
  unfold tailPhase
  split
  · simp [*]
  · rename_i hrem
    rw [← prim_eq_none_iff (primKind_fsGen fs) ((fsKeyBytes_fsGen fs).trans hkey) (by simp [primLengthOk])]
    cases prim P (fsGen fs) key w.cv.toList none <;> simp [hrem]

/-! ### The body -/

/-- The bulk invoke is made and fails, or the tail invoke is made and fails (R179, R180, R182). -/
abbrev InvokeFails (P : Platform) (mux : FeedbackMux) (fs : BitVec 8) (key : Bytes) (cv : Block) (n : Fin 16)
    (data : Bytes) : Prop :=
  let after := carouselAfter (P.blockE key) mux cv n data
  let drained := drainedOf n data.length
  let bulk := bulkOf n data.length
  (bulk ≠ 0 ∧ P.primFails fs key (memRead data drained bulk) (some (after drained).cv) = true) ∨
    (remOf n data.length ≠ 0 ∧ P.primFails (fsGen fs) key (after (drained + bulk)).cv.toList none = true)

theorem drained_add_bulk_add_rem (n : Fin 16) (len : Nat) :
    drainedOf n len + bulkOf n len + remOf n len = len := by
  simp only [bulkOf, remOf, drainedOf]
  omega

theorem bulkLen_after_drain (n : Fin 16) (data : Bytes) :
    bulkLen (data.drop (drainedOf n data.length)) = bulkOf n data.length := by
  simp only [bulkLen, bulkOf, remOf, List.length_drop]

theorem length_after_bulk (n : Fin 16) (data : Bytes) :
    (data.drop (drainedOf n data.length + bulkOf n data.length)).length = remOf n data.length := by
  rw [List.length_drop]
  exact Nat.sub_eq_of_eq_add' (drained_add_bulk_add_rem n data.length).symm

/-- Where a phase stops, at the end of the input or of a block, no input is left or the offset is 0 (R178). -/
theorem drop_eq_nil_or_n_eq_zero (e : Block → Block) (mux : FeedbackMux) (cv : Block) (n : Fin 16)
    (data : Bytes) {k : Nat} (hk : k ≤ data.length) (hstop : k = data.length ∨ (n.val + k) % 16 = 0) :
    data.drop k = [] ∨ (carouselAfter e mux cv n data k).n = 0 := by
  rcases hstop with rfl | hzero
  · exact .inl List.drop_length
  · exact .inr (Fin.ext ((carouselAfter_n_val e mux cv n data hk).trans hzero))

/-- A bulk phase that does not fail, after the drain. -/
theorem bulkPhase_carouselAfter {w : Carousel} (hp : Paired fs mux)
    (hbulk : bulkPhase P fs key (data.drop (drainedOf n data.length))
      (carouselAfter (P.blockE key) mux cv n data (drainedOf n data.length)) = some w) :
    w = carouselAfter (P.blockE key) mux cv n data (drainedOf n data.length + bulkOf n data.length) := by
  have hstop := drop_eq_nil_or_n_eq_zero (P.blockE key) mux cv n data
    (k := drainedOf n data.length) (by unfold drainedOf; omega) (by unfold drainedOf; omega)
  rw [bulkPhase_spec hp hstop hbulk, bulkLen_after_drain, ← carouselAfter_add]

/-- A tail phase that does not fail, after the bulk. -/
theorem tailPhase_carouselAfter {w : Carousel}
    (htail : tailPhase P mux fs key (data.drop (drainedOf n data.length + bulkOf n data.length))
      (carouselAfter (P.blockE key) mux cv n data (drainedOf n data.length + bulkOf n data.length)) = some w) :
    w = carouselAfter (P.blockE key) mux cv n data data.length := by
  have hlength := length_after_bulk n data
  have hstop := drop_eq_nil_or_n_eq_zero (P.blockE key) mux cv n data
    (k := drainedOf n data.length + bulkOf n data.length)
    (by unfold bulkOf drainedOf; omega) (by unfold bulkOf remOf drainedOf; omega)
  have hshort : (data.drop (drainedOf n data.length + bulkOf n data.length)).length < 16 :=
    hlength ▸ Nat.mod_lt _ (by decide)
  rw [tailPhase_spec hshort hstop htail]
  have hall := carouselAfter_add (P.blockE key) mux cv n data
    (drainedOf n data.length + bulkOf n data.length) (remOf n data.length)
  rw [List.take_of_length_le hlength.le, drained_add_bulk_add_rem] at hall
  exact hall.symm

/-- The body raises `ERR_PRIM_FAIL` exactly when one of its invokes is made and fails, and otherwise commits what
the reference makes of the whole input (R176 to R183, R196 to R201). -/
theorem carouselBody_eq (hp : Paired fs mux) (hkey : fsKeyBytes fs = some key.length) (c : BitVec 8) (x : Slot)
    (s : State) :
    carouselBody P mux c x fs key cv n data s =
      if InvokeFails P mux fs key cv n data then raise .errPrimFail s
      else commit c x (s.stage (stagingOf (carouselAfter (P.blockE key) mux cv n data data.length))) := by
  simp only [carouselBody, drainPhase_eq_carouselAfter (P.blockE key), bulkLen_after_drain, List.drop_drop,
    raise_enter, raise_stage]
  have bulk_fails := bulkPhase_eq_none_iff (P := P) (rest := data.drop (drainedOf n data.length))
    (w := carouselAfter (P.blockE key) mux cv n data (drainedOf n data.length)) hp hkey
  have tail_fails := tailPhase_eq_none_iff (P := P) (mux := mux)
    (left := data.drop (drainedOf n data.length + bulkOf n data.length))
    (w := carouselAfter (P.blockE key) mux cv n data (drainedOf n data.length + bulkOf n data.length)) hkey
  rw [bulkLen_after_drain] at bulk_fails
  rw [length_after_bulk] at tail_fails
  cases hbulk : bulkPhase P fs key (data.drop (drainedOf n data.length)) _ with
  | none => exact (if_pos (.inl (bulk_fails.mp hbulk))).symm
  | some w =>
    obtain rfl := bulkPhase_carouselAfter hp hbulk
    simp only
    cases htail : tailPhase P mux fs key _ _ with
    | none => exact (if_pos (.inr (tail_fails.mp htail))).symm
    | some w =>
      obtain rfl := tailPhase_carouselAfter htail
      have not_fails : ¬ InvokeFails P mux fs key cv n data := by
        rintro (hfail | hfail)
        · simp [bulk_fails.mpr hfail] at hbulk
        · simp [tail_fails.mpr hfail] at htail
      exact (if_neg not_fails).symm

end Sys2Proof.Proofs
end

section
/-! XFORM on OFB and CFB-128 slots (43_ofb.md R176, 44_cfb128.md R196, 48_stream_laws.md R253, R256): which selector
and mux a slot of such a handle has, one command inside the current block, and runs of commands against the
byte-at-a-time reference. -/

namespace Sys2Proof.Proofs

open Sys2Proof.Machine Sys2Proof.Safety Sys2Proof.Laws

/-- The feedback mux of the two handles that work byte by byte (R195). -/
def FeedsBack (h : Engine) (dir : Direction) (mux : FeedbackMux) : Prop :=
  (h = .hwOfb ∧ mux = .keep) ∨ (h = .hwCfb128 ∧ mux = cfbMux dir)

variable {P : Platform} {h : Engine} {dir : Direction} {mux : FeedbackMux} {ks : KeySize} {key data : Bytes}
  {fs c : BitVec 8} {cv : Block} {n : Fin 16} {len : Word} {s : State}

theorem FeedsBack.paired (hh : FeedsBack h dir mux) (hfs : selectorOf h dir ks = some fs) : Paired fs mux := by
  rcases hh with ⟨rfl, rfl⟩ | ⟨rfl, rfl⟩
  · cases hfs; exact paired_ofb _
  · cases hfs; exact paired_cfb128 _ dir

theorem fsKeyBytes_of_selectorOf (hfs : selectorOf h dir ks = some fs) : fsKeyBytes fs = some ks.bytes := by
  cases h <;> cases hfs <;> exact fsKeyBytes_fsPack _ _ _

/-- A nonempty XFORM on an OFB or CFB-128 slot runs their common body (R150, R152, R195). -/
theorem xformOn_feedsBack (hh : FeedsBack h dir mux) (hs : HoldsStream s c h dir key fs (some cv) (some n))
    (hlen : len ≠ 0) :
    xformOn P c dir len data s = .next
      (carouselBody P mux c (hwSlot h dir key fs (some cv) (some n)) fs key cv n data (s.enter .check)) := by
  rcases hh with ⟨rfl, rfl⟩ | ⟨rfl, rfl⟩
  · exact xformOn_body hs hlen (by simp [Engine.mode])
  · exact xformOn_body hs hlen (by simp [Engine.mode])

/-- R35, R181: what a commit of a carousel writes. -/
theorem commit_carousel (w : Carousel) (cv : Option Block) (n : Option (Fin 16)) :
    commit c (hwSlot h dir key fs cv n) (s.stage (stagingOf w)) =
      finish ⟨0x00000000, w.out⟩ (s.setSlot c (hwSlot h dir key fs (some w.cv) (some w.n))) := rfl

/-- R176 to R183, R196 to R201: a whole command. -/
theorem xformOn_carousel (hh : FeedsBack h dir mux) (hkey : key.length = ks.bytes)
    (hfs : selectorOf h dir ks = some fs) (hs : HoldsStream s c h dir key fs (some cv) (some n)) (hlen : len ≠ 0) :
    let w := carouselAfter (P.blockE key) mux cv n data data.length
    xformOn P c dir len data s = .next
      (if InvokeFails P mux fs key cv n data then finish ⟨0x00000003, []⟩ s
      else finish ⟨0x00000000, w.out⟩ (s.setSlot c (hwSlot h dir key fs (some w.cv) (some w.n)))) := by
  intro w
  rw [xformOn_feedsBack hh hs hlen,
    carouselBody_eq (hh.paired hfs) (hkey ▸ fsKeyBytes_of_selectorOf hfs), commit_carousel]
  rfl

/-! ### Inside the current block -/

/-- R178, R197: input that ends inside the current block is drained whole. -/
theorem drainPhase_of_le (mux : FeedbackMux) (data : Bytes) (w : Carousel) (hn : w.n ≠ 0)
    (hle : w.n.val + data.length ≤ 16) : drainPhase mux data w = (tailBytes mux data w, []) := by
  have hall : drainedOf w.n data.length = data.length := by
    have hpos : w.n.val ≠ 0 := fun hzero => hn (Fin.ext hzero)
    unfold drainedOf
    omega
  rw [drainPhase_exact id, tailBytes_eq_refRun id mux data w hn hle, hall, List.take_length, List.drop_length]

/-- R183 (c), R201: such a command makes no invoke and commits the drained bytes. -/
theorem xformOn_drain_only (hh : FeedsBack h dir mux) (hs : HoldsStream s c h dir key fs (some cv) (some n))
    (hn : n ≠ 0) (hlen : len ≠ 0) (hle : n.val + data.length ≤ 16) :
    let w := tailBytes mux data ⟨cv, n, []⟩
    xformOn P c dir len data s = .next
      (finish ⟨0x00000000, w.out⟩ (s.setSlot c (hwSlot h dir key fs (some w.cv) (some w.n)))) := by
  rw [xformOn_feedsBack hh hs hlen]
  simp only [carouselBody, drainPhase_of_le mux data ⟨cv, n, []⟩ hn hle]
  rfl

/-- The byte loop advances the offset by one per byte, modulo 16 (R176). -/
theorem tailBytes_n (mux : FeedbackMux) (data : Bytes) (w : Carousel) :
    (tailBytes mux data w).n = Fin.ofNat 16 (w.n.val + data.length) := by
  induction data generalizing w with
  | nil => exact (Fin.ofNat_val_eq_self w.n).symm
  | cons b bs ih =>
    have hstep : tailBytes mux (b :: bs) w = tailBytes mux bs (byteStep mux b w) := rfl
    have hnext : (byteStep mux b w).n.val = (w.n.val + 1) % 16 := Fin.val_add _ _
    rw [hstep, ih, hnext]
    apply Fin.ext
    simp only [Fin.ofNat, List.length_cons]
    omega

theorem xorBytes_comm (a b : Bytes) : xorBytes a b = xorBytes b a :=
  List.zipWith_comm_of_comm BitVec.xor_comm

/-- The output bytes of a loop inside one block: the input XOR the register from the offset on (R178, R197). -/
theorem tailBytes_out (mux : FeedbackMux) (data : Bytes) (w : Carousel) (hle : w.n.val + data.length ≤ 16) :
    (tailBytes mux data w).out = w.out ++ xorBytes data (memRead w.cv.toList w.n.val data.length) := by
  rw [(tailBytes_closed mux data w hle).1, memRead, xorBytes_take, xorBytes_comm]

/-! ### Runs -/

/-- Everything a run over one more chunk is made of (R250). -/
theorem runChunks_cons_eq_some {d out : Bytes} {ds : List Bytes} {t : State}
    (hrun : runChunks P c dir (d :: ds) s = some (t, out)) :
    ∃ u o os, xformOn P c dir (BitVec.ofNat 32 d.length) d s = .next u ∧ okOutput u = some o ∧
      runChunks P c dir ds u = some (t, os) ∧ out = o ++ os := by
  unfold runChunks at hrun
  split at hrun
  · rename_i u hu
    split at hrun
    · rename_i o v os ho hos
      cases hrun
      exact ⟨u, o, os, hu, ho, hos, rfl⟩
    · cases hrun
  · cases hrun
  · cases hrun

/-- R256: one command that succeeds outputs what the reference does, and leaves its register and offset. -/
theorem xformOn_eq_refRun {d out : Bytes} {t : State} (hh : FeedsBack h dir mux)
    (hfs : selectorOf h dir ks = some fs) (hs : HoldsStream s c h dir key fs (some cv) (some n))
    (hfit : d.length ≤ lenMax) (hstep : xformOn P c dir (BitVec.ofNat 32 d.length) d s = .next t)
    (hout : okOutput t = some out) :
    let r := refRun (P.blockE key) mux d cv n
    out = r.1 ∧ HoldsStream t c h dir key fs (some r.2.1) (some r.2.2) := by
  by_cases hempty : d = []
  · subst hempty
    cases (xformOn_of_zero_length hs rfl rfl rfl).symm.trans hstep
    cases (okOutput_respondOk [] s).symm.trans hout
    exact ⟨rfl, hs⟩
  · have hlen : BitVec.ofNat 32 d.length ≠ 0 := fun hzero => by
      have hval := congrArg BitVec.toNat hzero
      rw [BitVec.toNat_ofNat, Nat.mod_eq_of_lt (Nat.lt_of_le_of_lt hfit (by decide))] at hval
      exact hempty (List.length_eq_zero_iff.mp hval)
    rw [xformOn_feedsBack hh hs hlen] at hstep
    cases hstep
    rcases carouselBody_cases (P := P) (hh.paired hfs) c (hwSlot h dir key fs (some cv) (some n)) key cv n d
        (s.enter .check) with hraise | hcommit
    · rw [hraise] at hout
      exact absurd hout (okOutput_raise_ne (by simp) _ _)
    · rw [hcommit] at hout ⊢
      rw [okOutput_commit] at hout
      exact ⟨(Option.some.inj hout).symm, commit_slot_self (y := hwSlot h dir key fs (some cv) (some n)) hs⟩

/-- R253: a run that succeeds is one run of the reference over the whole message, however it is cut. -/
theorem runChunks_eq_refRun {chunks : List Bytes} {out : Bytes} {t : State} (hh : FeedsBack h dir mux)
    (hfs : selectorOf h dir ks = some fs) (hs : HoldsStream s c h dir key fs (some cv) (some n))
    (hfit : ∀ d ∈ chunks, d.length ≤ lenMax) (hrun : runChunks P c dir chunks s = some (t, out)) :
    let r := refRun (P.blockE key) mux chunks.flatten cv n
    out = r.1 ∧ HoldsStream t c h dir key fs (some r.2.1) (some r.2.2) := by
  induction chunks generalizing s cv n out with
  | nil => cases hrun; exact ⟨rfl, hs⟩
  | cons d ds ih =>
    obtain ⟨hd, hds⟩ := List.forall_mem_cons.mp hfit
    obtain ⟨u, o, os, hstep, hout, hrest, rfl⟩ := runChunks_cons_eq_some hrun
    obtain ⟨rfl, hu⟩ := xformOn_eq_refRun hh hfs hs hd hstep hout
    obtain ⟨rfl, ht⟩ := ih hu hds hrest
    rw [List.flatten_cons, refRun_append]
    exact ⟨rfl, ht⟩

end Sys2Proof.Proofs
end

section
/-! OFB (43_ofb.md R176 to R185): the commands, and the closed form of the stream. At stream position `p` the
register is `V_{ceil(p/16)}` and the offset `p mod 16`, since no byte is fed back. -/

namespace Sys2Proof.Proofs

open Sys2Proof.Machine Sys2Proof.Safety Sys2Proof.Laws

/-! ### Commands -/

theorem feedsBack_ofb (dir : Direction) : FeedsBack .hwOfb dir .keep := .inl ⟨rfl, rfl⟩

/-- The byte loop of OFB leaves the register as it was (R178). -/
theorem tailBytes_keep_cv (data : Bytes) (w : Carousel) : (tailBytes .keep data w).cv = w.cv := by
  induction data generalizing w with
  | nil => rfl
  | cons b bs ih =>
    have hbyte : (byteStep .keep b w).cv = w.cv := by simp [byteStep, muxPick]
    exact (ih (byteStep .keep b w)).trans hbyte

/-- Settles O39: the drain consumes the whole input, and no phase after it has anything to do. -/
theorem ofbDrainOnly : Obligations.OfbDrainOnly := by
  intro s c dir key fs cv n len data hs hn hlen _ hle
  rw [exec_xform, xformOn_drain_only (feedsBack_ofb dir) hs hn hlen hle,
    tailBytes_out .keep data ⟨cv, n, []⟩ hle, tailBytes_keep_cv, tailBytes_n]
  rfl

/-- Settles O41, by the exact form of the body that OFB shares with CFB-128. -/
theorem ofbCommandResult : Obligations.OfbCommandResult := by
  intro s c ks dir key cv n len data fs hkey hfs hs hlen _
  simp only [exec_xform, xformOn_carousel (feedsBack_ofb dir) hkey hfs hs hlen, carouselAfter, List.take_length]
  rfl

/-! ### The stream -/

/-- Byte `p` of the key stream: `V_{floor(p/16)+1}[p mod 16]` (R185). -/
def keyStreamByte (e : Block → Block) (iv : Block) (p : Nat) : Byte :=
  (ofbBlock e iv (p / 16 + 1)).toList.getD (p % 16) 0

/-- The key stream bytes `p .. p+len-1`. -/
def keyStream (e : Block → Block) (iv : Block) (p len : Nat) : Bytes :=
  (List.range' p len).map (keyStreamByte e iv)

@[simp] theorem keyStream_length (e : Block → Block) (iv : Block) (p len : Nat) :
    (keyStream e iv p len).length = len := by
  simp [keyStream]

theorem keyStream_succ (e : Block → Block) (iv : Block) (p len : Nat) :
    keyStream e iv p (len + 1) = keyStreamByte e iv p :: keyStream e iv (p + 1) len := rfl

/-- R185: byte `p` of a stream XOR the key stream. -/
theorem getD_xorBytes_keyStream (e : Block → Block) (iv : Block) (d : Bytes) {p : Nat} (hp : p < d.length) :
    (xorBytes d (keyStream e iv 0 d.length)).getD p 0 = d.getD p 0 ^^^ keyStreamByte e iv p := by
  have hout : p < (xorBytes d (keyStream e iv 0 d.length)).length := by simpa using hp
  rw [List.getD_eq_getElem _ _ hout, List.getD_eq_getElem _ _ hp]
  simp [xorBytes, keyStream]

/-- The register at stream position `p`: `V_{ceil(p/16)}` (R184). -/
def registerAt (e : Block → Block) (iv : Block) (p : Nat) : Block := ofbBlock e iv ((p + 15) / 16)

/-- One reference step of OFB at stream position `p` (R184, R185). -/
theorem refStep_registerAt (e : Block → Block) (iv : Block) (b : Byte) (p : Nat) :
    refStep e .keep b (registerAt e iv p) (Fin.ofNat 16 p) =
      (b ^^^ keyStreamByte e iv p, registerAt e iv (p + 1), Fin.ofNat 16 (p + 1)) := by
  have hcurrent : (if Fin.ofNat 16 p = 0 then e (registerAt e iv p) else registerAt e iv p) =
      ofbBlock e iv (p / 16 + 1) := by
    have hzero : Fin.ofNat 16 p = 0 ↔ p % 16 = 0 := Fin.ext_iff
    split
    · have hceil : (p + 15) / 16 = p / 16 := by omega
      rw [registerAt, hceil, ofbBlock]
    · have hceil : (p + 15) / 16 = p / 16 + 1 := by omega
      rw [registerAt, hceil]
  have hnext : registerAt e iv (p + 1) = ofbBlock e iv (p / 16 + 1) := by
    have hceil : (p + 1 + 15) / 16 = p / 16 + 1 := by omega
    rw [registerAt, hceil]
  have hoffset : Fin.ofNat 16 p + 1 = Fin.ofNat 16 (p + 1) := by
    apply Fin.ext
    simp [Fin.val_add]
  have hbyte : (ofbBlock e iv (p / 16 + 1))[Fin.ofNat 16 p] = keyStreamByte e iv p := by
    have hlt : p % 16 < 16 := Nat.mod_lt _ (by decide)
    simp [keyStreamByte, hlt]
  simp only [refStep, hcurrent, muxPick, hbyte, hnext, hoffset]
  rw [← hbyte]
  simp

/-- The reference of OFB from stream position `p` on, in closed form (R184, R185). -/
theorem refRun_registerAt (e : Block → Block) (iv : Block) (d : Bytes) (p : Nat) :
    refRun e .keep d (registerAt e iv p) (Fin.ofNat 16 p) =
      (xorBytes d (keyStream e iv p d.length), registerAt e iv (p + d.length), Fin.ofNat 16 (p + d.length)) := by
  induction d generalizing p with
  | nil => rfl
  | cons b bs ih =>
    simp only [refRun, refStep_registerAt, ih, keyStream_succ, xorBytes, List.length_cons, List.zipWith_cons_cons]
    simp only [Nat.add_assoc, Nat.add_comm 1]

theorem refRun_keep_seeded (e : Block → Block) (iv : Block) (d : Bytes) :
    refRun e .keep d iv 0 =
      (xorBytes d (keyStream e iv 0 d.length), registerAt e iv d.length, Fin.ofNat 16 d.length) := by
  have h := refRun_registerAt e iv d 0
  rwa [Nat.zero_add] at h

/-- A run from INIT is the closed form of the reference (R184, R185). -/
theorem runChunks_ofb_seeded {P : Platform} {s t : State} {c fs : BitVec 8} {ks : KeySize} {dir : Direction}
    {key out : Bytes} {iv : Block} {chunks : List Bytes} (hfs : selectorOf .hwOfb dir ks = some fs)
    (hs : HoldsStream s c .hwOfb dir key fs (some iv) (some 0)) (hchunks : ChunksOk .ofb chunks)
    (hrun : runChunks P c dir chunks s = some (t, out)) :
    let L := chunks.flatten.length
    out = xorBytes chunks.flatten (keyStream (P.blockE key) iv 0 L) ∧
      HoldsStream t c .hwOfb dir key fs (some (registerAt (P.blockE key) iv L)) (some (Fin.ofNat 16 L)) := by
  have h := runChunks_eq_refRun (feedsBack_ofb dir) hfs hs (fun d hd => (hchunks d hd).1) hrun
  rwa [refRun_keep_seeded] at h

/-- Settles O51: the register and the offset of the closed form. -/
theorem ofbRegisterClosedForm : Obligations.OfbRegisterClosedForm := by
  intro P s t c ks dir key fs iv chunks out hfs hs hchunks hrun
  exact (runChunks_ofb_seeded hfs hs hchunks hrun).2

/-- Settles O52: the output of the closed form, byte by byte. -/
theorem ofbStreamFunction : Obligations.OfbStreamFunction := by
  intro P s t c ks dir key fs iv chunks out hfs hs hchunks hrun
  obtain ⟨rfl, -⟩ := runChunks_ofb_seeded hfs hs hchunks hrun
  exact ⟨by simp, fun p hp => getD_xorBytes_keyStream _ _ _ hp⟩

end Sys2Proof.Proofs
end

section
/-! CFB-128 (44_cfb128.md R195 to R205): the commands, and the closed form of the stream. After the ciphertext bytes
`cipher` the engine stands in the block made of `E(key, C_T)`, whose bytes it replaces one by one by those of
ciphertext block `T + 1`; once all 16 are replaced the register is `C_{T+1}`. -/

namespace Sys2Proof.Proofs

open Sys2Proof.Machine Sys2Proof.Safety Sys2Proof.Laws

/-! ### Commands -/

theorem feedsBack_cfb128 (dir : Direction) : FeedsBack .hwCfb128 dir (cfbMux dir) := .inr ⟨rfl, rfl⟩

@[simp] theorem cipherStream_nil (dir : Direction) : cipherStream dir [] [] = [] := by cases dir <;> rfl

/-- R195: in either direction the mux of CFB-128 feeds back the next byte of the ciphertext stream. -/
theorem cipherStream_cons (dir : Direction) (reg b o : Byte) (bs os : Bytes) :
    cipherStream dir (b :: bs) (o :: os) = muxPick (cfbMux dir) reg b o :: cipherStream dir bs os := by
  cases dir <;> rfl

theorem append_cipherStream_cons (dir : Direction) (cipher : Bytes) (reg b o : Byte) (bs os : Bytes) :
    cipher ++ cipherStream dir (b :: bs) (o :: os) =
      cipher ++ [muxPick (cfbMux dir) reg b o] ++ cipherStream dir bs os := by
  rw [cipherStream_cons dir reg, List.append_cons]

theorem cipherStream_length (dir : Direction) {input output : Bytes} (h : output.length = input.length) :
    (cipherStream dir input output).length = input.length := by
  cases dir
  · exact h
  · rfl

/-- What the mux writes over the register bytes `reg` for the input `data`: their ciphertext (R197). -/
theorem zipWith_cfbMux (dir : Direction) {reg data : Bytes} (h : data.length ≤ reg.length) :
    List.zipWith (fun r b => muxPick (cfbMux dir) r b (r ^^^ b)) reg data =
      cipherStream dir data (xorBytes data reg) := by
  induction data generalizing reg with
  | nil => simp [xorBytes]
  | cons b bs ih =>
    cases reg with
    | nil => cases h
    | cons r rs =>
      rw [List.zipWith_cons_cons, ih (Nat.le_of_succ_le_succ h), BitVec.xor_comm r b,
        ← cipherStream_cons dir r b (b ^^^ r) bs (xorBytes bs rs)]
      rfl

/-- The register after a byte loop of CFB-128 inside one block (R197, R199). -/
theorem tailBytes_cfbMux_cv (dir : Direction) (data : Bytes) (w : Carousel) (hle : w.n.val + data.length ≤ 16) :
    (tailBytes (cfbMux dir) data w).cv =
      blockOfBytes (w.cv.toList.take w.n.val ++
        cipherStream dir data (xorBytes data (memRead w.cv.toList w.n.val data.length)) ++
        w.cv.toList.drop (w.n.val + data.length)) := by
  have hreg : data.length ≤ (w.cv.toList.drop w.n.val).length := by
    rw [List.length_drop, block_length]
    omega
  rw [memRead, xorBytes_take, ← zipWith_cfbMux dir hreg, ← (tailBytes_closed (cfbMux dir) data w hle).2,
    blockOfBytes_toList]

/-- Settles O40: the drain consumes the whole input, and writes its ciphertext over the register. -/
theorem cfb128DrainOnly : Obligations.Cfb128DrainOnly := by
  intro s c dir key fs cv n len data hs hn hlen _ hle
  rw [exec_xform, xformOn_drain_only (feedsBack_cfb128 dir) hs hn hlen hle,
    tailBytes_out (cfbMux dir) data ⟨cv, n, []⟩ hle, tailBytes_cfbMux_cv dir data ⟨cv, n, []⟩ hle, tailBytes_n]
  rfl

/-- Settles O42, by the exact form of the body that CFB-128 shares with OFB. -/
theorem cfb128CommandResult : Obligations.Cfb128CommandResult := by
  intro s c ks dir key cv n len data fs hkey hfs hs hlen _
  simp only [exec_xform, xformOn_carousel (feedsBack_cfb128 dir) hkey hfs hs hlen, carouselAfter, List.take_length]
  rfl

/-! ### The ciphertext stream and its blocks -/

/-- Byte `j` of a block made of bytes (log 13). -/
theorem getElem_blockOfBytes (b : Bytes) {j : Nat} (hj : j < 16) : (blockOfBytes b)[j] = b.getD j 0 := by
  simp only [blockOfBytes, Vector.getElem_mk, List.getElem_toArray, List.getD_eq_getElem?_getD]
  by_cases hlt : j < b.length
  · rw [List.getElem_append_left (by simp; omega)]
    simp [hlt]
  · rw [List.getElem_append_right (by simp; omega)]
    simp [hlt]

/-- Byte `j` of block `t` of a byte string. -/
theorem getElem_blockAt (b : Bytes) (t : Nat) {j : Nat} (hj : j < 16) :
    (blockAt b t)[j] = b.getD (16 * t + j) 0 := by
  simp [blockAt, getElem_blockOfBytes _ hj, memRead, List.getD_eq_getElem?_getD, hj]

/-- Whole blocks of a ciphertext stay when more of it follows. -/
theorem cfbBlock_append (iv : Block) (cipher more : Bytes) {t : Nat} (ht : 16 * t ≤ cipher.length) :
    cfbBlock iv (cipher ++ more) t = cfbBlock iv cipher t := by
  cases t with
  | zero => rfl
  | succ t =>
    have hdrop : 16 * t ≤ cipher.length := by omega
    have htake : 16 ≤ (cipher.drop (16 * t)).length := by rw [List.length_drop]; omega
    simp only [cfbBlock, blockAt, memRead, List.drop_append_of_le_length hdrop, List.take_append_of_le_length htake]

/-- The key stream byte at stream position `p`: `E(key, C_{floor(p/16)})[p mod 16]` (R203). -/
def cfbKeyByte (e : Block → Block) (iv : Block) (cipher : Bytes) (p : Nat) : Byte :=
  (e (cfbBlock iv cipher (p / 16))).toList.getD (p % 16) 0

/-- A key stream byte depends on the ciphertext before its block alone. -/
theorem cfbKeyByte_append (e : Block → Block) (iv : Block) (cipher more : Bytes) {p : Nat}
    (hp : p ≤ cipher.length) : cfbKeyByte e iv (cipher ++ more) p = cfbKeyByte e iv cipher p := by
  have hwhole : 16 * (p / 16) ≤ cipher.length := by omega
  rw [cfbKeyByte, cfbBlock_append iv cipher more hwhole, cfbKeyByte]

/-! ### The register -/

/-- The block the engine stands in after the ciphertext `cipher`: the ciphertext bytes of the current block, then the
key stream `E(key, C_T)` not used yet (R199, R205). -/
def cfbWorking (e : Block → Block) (iv : Block) (cipher : Bytes) : Block :=
  Vector.ofFn fun j : Fin 16 =>
    if j.val < cipher.length % 16 then cipher.getD (16 * (cipher.length / 16) + j.val) 0
    else (e (cfbBlock iv cipher (cipher.length / 16)))[j]

/-- The register after the ciphertext `cipher` (R205): between blocks the last ciphertext block, inside a block the
block the engine stands in. -/
def cfbRegister (e : Block → Block) (iv : Block) (cipher : Bytes) : Block :=
  if cipher.length % 16 = 0 then cfbBlock iv cipher (cipher.length / 16) else cfbWorking e iv cipher

/-- Between blocks the engine is about to enter the block `E(key, C_T)`. -/
theorem cfbWorking_of_whole (e : Block → Block) (iv : Block) {cipher : Bytes} (h : cipher.length % 16 = 0) :
    cfbWorking e iv cipher = e (cfbBlock iv cipher (cipher.length / 16)) := by
  ext j hj
  simp [cfbWorking, h]

/-- R253: the block that a reference step works on. -/
theorem generate_cfbRegister (e : Block → Block) (iv : Block) (cipher : Bytes) :
    (if Fin.ofNat 16 cipher.length = 0 then e (cfbRegister e iv cipher) else cfbRegister e iv cipher) =
      cfbWorking e iv cipher := by
  have hzero : Fin.ofNat 16 cipher.length = 0 ↔ cipher.length % 16 = 0 := Fin.ext_iff
  by_cases h : cipher.length % 16 = 0
  · rw [if_pos (hzero.mpr h), cfbRegister, if_pos h, cfbWorking_of_whole e iv h]
  · rw [if_neg (hzero.not.mpr h), cfbRegister, if_neg h]

/-- The byte of it that is XORed next is a key stream byte (R197). -/
theorem cfbWorking_next (e : Block → Block) (iv : Block) (cipher : Bytes) :
    (cfbWorking e iv cipher)[Fin.ofNat 16 cipher.length] = cfbKeyByte e iv cipher cipher.length := by
  have hlt : cipher.length % 16 < 16 := Nat.mod_lt _ (by decide)
  simp [cfbWorking, cfbKeyByte, hlt]

/-- The ciphertext byte `x` is entered at the offset (R197). -/
theorem cfbWorking_set (e : Block → Block) (iv : Block) (cipher : Bytes) (x : Byte) {j : Nat} (hj : j < 16) :
    ((cfbWorking e iv cipher).set (Fin.ofNat 16 cipher.length) x)[j] =
      if j < cipher.length % 16 + 1 then (cipher ++ [x]).getD (16 * (cipher.length / 16) + j) 0
      else (e (cfbBlock iv cipher (cipher.length / 16)))[j] := by
  rw [Vector.getElem_set]
  simp only [cfbWorking, Vector.getElem_ofFn, Fin.val_ofNat]
  rcases Nat.lt_trichotomy j (cipher.length % 16) with hbefore | rfl | hafter
  · have hold : 16 * (cipher.length / 16) + j < cipher.length := by omega
    rw [if_neg (by omega), if_pos hbefore, if_pos (by omega), List.getD_append _ _ _ _ hold]
  · rw [if_pos rfl, if_pos (by omega), Nat.div_add_mod, List.getD_append_right _ _ _ _ le_rfl]
    simp
  · rw [if_neg (by omega), if_neg (by omega), if_neg (by omega)]
    rfl

/-- With it the engine stands in the same block, or has completed it (R205). -/
theorem set_cfbWorking (e : Block → Block) (iv : Block) (cipher : Bytes) (x : Byte) :
    (cfbWorking e iv cipher).set (Fin.ofNat 16 cipher.length) x = cfbRegister e iv (cipher ++ [x]) := by
  ext j hj : 1
  rw [cfbWorking_set e iv cipher x hj, cfbRegister, List.length_append, List.length_singleton]
  by_cases hlast : (cipher.length + 1) % 16 = 0
  · have hblock : (cipher.length + 1) / 16 = cipher.length / 16 + 1 := by omega
    rw [if_pos hlast, if_pos (by omega), hblock, cfbBlock, getElem_blockAt _ _ hj]
  · have hblock : (cipher.length + 1) / 16 = cipher.length / 16 := by omega
    have hoffset : (cipher.length + 1) % 16 = cipher.length % 16 + 1 := by omega
    have hwhole : 16 * (cipher.length / 16) ≤ cipher.length := by omega
    rw [if_neg hlast]
    simp only [cfbWorking, Vector.getElem_ofFn, List.length_append, List.length_singleton, hblock, hoffset,
      cfbBlock_append iv cipher [x] hwhole]
    rfl

/-! ### The stream -/

/-- One reference step of CFB-128 after the ciphertext `cipher` (R203, R205). -/
theorem refStep_cfbRegister (e : Block → Block) (iv : Block) (dir : Direction) (b : Byte) (cipher : Bytes) :
    let reg := cfbKeyByte e iv cipher cipher.length
    let cipher' := cipher ++ [muxPick (cfbMux dir) reg b (b ^^^ reg)]
    refStep e (cfbMux dir) b (cfbRegister e iv cipher) (Fin.ofNat 16 cipher.length) =
      (b ^^^ reg, cfbRegister e iv cipher', Fin.ofNat 16 cipher'.length) := by
  intro reg cipher'
  have hoffset : Fin.ofNat 16 cipher.length + 1 = Fin.ofNat 16 cipher'.length := by
    apply Fin.ext
    simp [cipher', Fin.val_add]
  simp only [refStep, generate_cfbRegister, cfbWorking_next, set_cfbWorking, hoffset]
  rfl

/-- The reference of CFB-128 after the ciphertext `cipher`, in closed form (R203, R205). -/
theorem refRun_cfbRegister (e : Block → Block) (iv : Block) (dir : Direction) (d cipher : Bytes) :
    let r := refRun e (cfbMux dir) d (cfbRegister e iv cipher) (Fin.ofNat 16 cipher.length)
    let cipher' := cipher ++ cipherStream dir d r.1
    r.2 = (cfbRegister e iv cipher', Fin.ofNat 16 cipher'.length) ∧
      ∀ p, p < d.length → r.1.getD p 0 = d.getD p 0 ^^^ cfbKeyByte e iv cipher' (cipher.length + p) := by
  induction d generalizing cipher with
  | nil => simp
  | cons b bs ih =>
    let reg := cfbKeyByte e iv cipher cipher.length
    obtain ⟨hstate, hbytes⟩ := ih (cipher ++ [muxPick (cfbMux dir) reg b (b ^^^ reg)])
    simp only [refRun, refStep_cfbRegister, append_cipherStream_cons dir cipher reg]
    refine ⟨hstate, fun p hp => ?_⟩
    cases p with
    | zero =>
      rw [List.getD_cons_zero, List.getD_cons_zero, Nat.add_zero, List.append_assoc,
        cfbKeyByte_append e iv cipher _ le_rfl]
    | succ p =>
      have hrest := hbytes p (Nat.lt_of_succ_lt_succ hp)
      have hposition (x : Byte) : (cipher ++ [x]).length + p = cipher.length + (p + 1) := by
        rw [List.length_append, List.length_singleton, Nat.add_assoc, Nat.add_comm 1 p]
      rw [hposition] at hrest
      exact hrest

theorem refRun_cfbMux_seeded (e : Block → Block) (iv : Block) (dir : Direction) (d : Bytes) :
    let r := refRun e (cfbMux dir) d iv 0
    let cipher := cipherStream dir d r.1
    r.2 = (cfbRegister e iv cipher, Fin.ofNat 16 cipher.length) ∧
      ∀ p, p < d.length → r.1.getD p 0 = d.getD p 0 ^^^ cfbKeyByte e iv cipher p := by
  have h := refRun_cfbRegister e iv dir d []
  simp only [List.nil_append, List.length_nil, Nat.zero_add] at h
  exact h

/-- A run from INIT is the closed form of the reference (R203, R205). -/
theorem runChunks_cfb128_seeded {P : Platform} {s t : State} {c fs : BitVec 8} {ks : KeySize} {dir : Direction}
    {key out : Bytes} {iv : Block} {chunks : List Bytes} (hfs : selectorOf .hwCfb128 dir ks = some fs)
    (hs : HoldsStream s c .hwCfb128 dir key fs (some iv) (some 0)) (hchunks : ChunksOk .cfb128 chunks)
    (hrun : runChunks P c dir chunks s = some (t, out)) :
    let cipher := cipherStream dir chunks.flatten out
    out.length = chunks.flatten.length ∧
      HoldsStream t c .hwCfb128 dir key fs (some (cfbRegister (P.blockE key) iv cipher))
        (some (Fin.ofNat 16 cipher.length)) ∧
      ∀ p, p < chunks.flatten.length →
        out.getD p 0 = chunks.flatten.getD p 0 ^^^ cfbKeyByte (P.blockE key) iv cipher p := by
  obtain ⟨rfl, ht⟩ :=
    runChunks_eq_refRun (feedsBack_cfb128 dir) hfs hs (fun d hd => (hchunks d hd).1) hrun
  obtain ⟨hstate, hbytes⟩ := refRun_cfbMux_seeded (P.blockE key) iv dir chunks.flatten
  rw [hstate] at ht
  exact ⟨refRun_length _ _ _ _ _, ht, hbytes⟩

/-- The register of R205, byte by byte inside a block. -/
theorem cfbRegister_getD (e : Block → Block) (iv : Block) {cipher : Bytes} (h : cipher.length % 16 ≠ 0) {j : Nat}
    (hj : j < 16) :
    (cfbRegister e iv cipher).toList.getD j 0 =
      if j < cipher.length % 16 then cipher.getD (16 * (cipher.length / 16) + j) 0
      else (e (cfbBlock iv cipher (cipher.length / 16))).toList.getD j 0 := by
  have hgetD : ∀ v : Block, v.toList.getD j 0 = v[j] := fun v => by simp [hj]
  rw [hgetD, hgetD, cfbRegister, if_neg h]
  simp [cfbWorking]

/-- Settles O53: the register of the closed form, between blocks and inside one. -/
theorem cfb128RegisterClosedForm : Obligations.Cfb128RegisterClosedForm := by
  intro P s t c ks dir key fs iv chunks out hfs hs hchunks hrun
  obtain ⟨hlength, ht, -⟩ := runChunks_cfb128_seeded hfs hs hchunks hrun
  exact ⟨cipherStream_length dir hlength, _, ht, fun hwhole => if_pos hwhole,
    fun hpart _ hj => cfbRegister_getD (P.blockE key) iv hpart hj⟩

/-- Settles O54: the output of the closed form, byte by byte. -/
theorem cfb128StreamFunction : Obligations.Cfb128StreamFunction := by
  intro P s t c ks dir key fs iv chunks out hfs hs hchunks hrun
  obtain ⟨hlength, -, hbytes⟩ := runChunks_cfb128_seeded hfs hs hchunks hrun
  exact ⟨hlength, hbytes⟩

end Sys2Proof.Proofs
end

section
/-! CFB-8 (45_cfb8.md R216 to R219): one invoke of kind CFB8 (R72), whose byte definition is PRESUMED (log 10). The
register is a window of 16 bytes on `W`, the register at entry followed by the ciphertext: a byte shifted in moves the
window one place on, so the whole loop, and a run of commands, is read off `W`. -/

namespace Sys2Proof.Proofs

open Sys2Proof.Machine Sys2Proof.Safety Sys2Proof.Laws

/-! ### The window -/

/-- `W[p .. p+15]` for `W` the register `v` followed by the ciphertext (R218). -/
def cfb8Window (v : Block) (cipher : Bytes) (p : Nat) : Block :=
  blockOfBytes (memRead (v.toList ++ cipher) p 16)

@[simp] theorem cfb8Window_zero (v : Block) (cipher : Bytes) : cfb8Window v cipher 0 = v := by
  have hfirst : memRead (v.toList ++ cipher) 0 16 = v.toList := List.take_left' (block_length v)
  rw [cfb8Window, hfirst, blockOfBytes_toList]

theorem toList_shiftIn (v : Block) (x : Byte) : (shiftIn v x).toList = v.toList.drop 1 ++ [x] :=
  toList_blockOfBytes (by simp)

/-- R72: shifting the ciphertext byte `x` in moves the window one place on. -/
theorem cfb8Window_shiftIn (v : Block) (x : Byte) (cipher : Bytes) (p : Nat) :
    cfb8Window (shiftIn v x) cipher p = cfb8Window v (x :: cipher) (p + 1) := by
  have hshift : (shiftIn v x).toList ++ cipher = (v.toList ++ x :: cipher).drop 1 := by
    rw [toList_shiftIn, List.drop_append_of_le_length (by simp), List.append_assoc, List.singleton_append]
  rw [cfb8Window, hshift, memRead, List.drop_drop, Nat.add_comm 1 p, cfb8Window, memRead]

/-! ### Kind CFB8 -/

/-- The byte that kind CFB8 shifts in is the next one of the ciphertext stream (R72). -/
theorem cipherStream_cons_dirBit (dir : Direction) (b o : Byte) (bs os : Bytes) :
    cipherStream dir (b :: bs) (o :: os) = (if dirBit dir then b else o) :: cipherStream dir bs os := by
  cases dir <;> rfl

/-- R218: the register after the whole input. -/
theorem cfb8Kind_register (e : Block → Block) (dir : Direction) (v : Block) (d : Bytes) :
    let r := cfb8Kind e (dirBit dir) v d
    r.2 = cfb8Window v (cipherStream dir d r.1) d.length := by
  induction d generalizing v with
  | nil => exact (cfb8Window_zero v _).symm
  | cons b bs ih => simp only [cfb8Kind, ih, cipherStream_cons_dirBit, cfb8Window_shiftIn, List.length_cons]

/-- R217, R219: byte `p` is made with the window at `p`. -/
theorem cfb8Kind_getD (e : Block → Block) (dir : Direction) (v : Block) (d : Bytes) {p : Nat} (hp : p < d.length) :
    let out := (cfb8Kind e (dirBit dir) v d).1
    out.getD p 0 = d.getD p 0 ^^^ (e (cfb8Window v (cipherStream dir d out) p)).toList.getD 0 0 := by
  induction d generalizing v p with
  | nil => cases hp
  | cons b bs ih =>
    cases p with
    | zero => simp [cfb8Kind]
    | succ p =>
      simp only [cfb8Kind, cipherStream_cons_dirBit, List.getD_cons_succ, ← cfb8Window_shiftIn]
      exact ih _ (Nat.lt_of_succ_lt_succ hp)

/-- Kind CFB8 over a concatenation is kind CFB8 over the parts in turn. -/
theorem cfb8Kind_append (e : Block → Block) (dec : Bool) (v : Block) (a b : Bytes) :
    let r := cfb8Kind e dec v a
    let q := cfb8Kind e dec r.2 b
    cfb8Kind e dec v (a ++ b) = (r.1 ++ q.1, q.2) := by
  induction a generalizing v with
  | nil => rfl
  | cons x xs ih => simp only [List.cons_append, cfb8Kind, ih]

/-! ### The command -/

section Command

variable {P : Platform} {ks : KeySize} {dir : Direction} {key : Bytes} {len : Word} {data : Bytes}
  {fs c : BitVec 8} {cv : Block} {s t : State}

/-- The selector of a CFB-8 slot is kind CFB8 (R68, R113). -/
theorem primKind_of_selectorOf_cfb8 (hfs : selectorOf .hwCfb8 dir ks = some fs) :
    primKind fs (some cv) = some .cfb8 := by
  cases hfs
  exact primKind_cfb8 _ _ _

/-- What the invoke of CFB-8 returns where it does not fail (R72). -/
theorem prim_cfb8_eq_some {r : PrimResult} (hfs : selectorOf .hwCfb8 dir ks = some fs)
    (hprim : prim P fs key data (some cv) = some r) :
    let q := cfb8Kind (P.blockE key) (dirBit dir) cv data
    r = ⟨q.1, some q.2⟩ := by
  obtain ⟨kind, hkind, -, -, -, rfl⟩ := prim_eq_some hprim
  cases (primKind_of_selectorOf_cfb8 hfs).symm.trans hkind
  have hdec : fsDec fs = dirBit dir := by cases hfs; exact fsDec_fsPack _ _ _
  rw [primCompute, hdec]

/-- R216, R217: everything a nonempty XFORM does on a CFB-8 slot. -/
theorem xformOn_cfb8 (hfs : selectorOf .hwCfb8 dir ks = some fs)
    (hs : HoldsStream s c .hwCfb8 dir key fs (some cv) (some 0)) (hlen : len ≠ 0) :
    let r := cfb8Kind (P.blockE key) (dirBit dir) cv data
    xformOn P c dir len data s = .next
      (if prim P fs key data (some cv) = none then raise .errPrimFail s
      else respondOk false r.1 (s.setSlot c (hwSlot .hwCfb8 dir key fs (some r.2) (some 0)))) := by
  intro r
  rw [xformOn_body hs hlen (by simp [Engine.mode])]
  simp only [xformBody, xformCfb8, hwSlot_functionSelector, hwSlot_keyMaterial, hwSlot_feedbackRegister,
    readField_some, memRead_zero_length]
  cases hprim : prim P fs key data (some cv) with
  | none => rfl
  | some q =>
    rw [prim_cfb8_eq_some hfs hprim]
    rfl

/-- A nonempty input that fits `LEN` has a nonzero length word (R108). -/
theorem ofNat_length_ne_zero (hne : data ≠ []) (hfit : data.length ≤ lenMax) :
    BitVec.ofNat 32 data.length ≠ 0 := fun hzero => by
  have hval := congrArg BitVec.toNat hzero
  rw [BitVec.toNat_ofNat, Nat.mod_eq_of_lt (Nat.lt_of_le_of_lt hfit (by decide))] at hval
  exact hne (List.length_eq_zero_iff.mp hval)

/-- One command that succeeds, the empty one included, is kind CFB8 over its input (R153, R216). -/
theorem xformOn_eq_cfb8Kind {out : Bytes} (hfs : selectorOf .hwCfb8 dir ks = some fs)
    (hs : HoldsStream s c .hwCfb8 dir key fs (some cv) (some 0)) (hfit : data.length ≤ lenMax)
    (hstep : xformOn P c dir (BitVec.ofNat 32 data.length) data s = .next t) (hout : okOutput t = some out) :
    let r := cfb8Kind (P.blockE key) (dirBit dir) cv data
    out = r.1 ∧ HoldsStream t c .hwCfb8 dir key fs (some r.2) (some 0) := by
  by_cases hempty : data = []
  · subst hempty
    cases (xformOn_of_zero_length hs rfl rfl rfl).symm.trans hstep
    cases (okOutput_respondOk [] s).symm.trans hout
    exact ⟨rfl, hs⟩
  · rw [xformOn_cfb8 hfs hs (ofNat_length_ne_zero hempty hfit)] at hstep
    by_cases hfail : prim P fs key data (some cv) = none
    · rw [if_pos hfail] at hstep
      cases hstep
      exact absurd hout (okOutput_raise_ne (by simp) s out)
    · rw [if_neg hfail] at hstep
      cases hstep
      rw [okOutput_respondOk] at hout
      exact ⟨(Option.some.inj hout).symm, setSlot_slot_self hs⟩

/-- R218: a run that succeeds is kind CFB8 over the whole message, however it is cut. -/
theorem runChunks_eq_cfb8Kind {chunks : List Bytes} {out : Bytes} (hfs : selectorOf .hwCfb8 dir ks = some fs)
    (hs : HoldsStream s c .hwCfb8 dir key fs (some cv) (some 0)) (hfit : ∀ d ∈ chunks, d.length ≤ lenMax)
    (hrun : runChunks P c dir chunks s = some (t, out)) :
    let r := cfb8Kind (P.blockE key) (dirBit dir) cv chunks.flatten
    out = r.1 ∧ HoldsStream t c .hwCfb8 dir key fs (some r.2) (some 0) := by
  induction chunks generalizing s cv out with
  | nil => cases hrun; exact ⟨rfl, hs⟩
  | cons d ds ih =>
    obtain ⟨hd, hds⟩ := List.forall_mem_cons.mp hfit
    obtain ⟨u, o, os, hstep, hout, hrest, rfl⟩ := runChunks_cons_eq_some hrun
    obtain ⟨rfl, hu⟩ := xformOn_eq_cfb8Kind hfs hs hd hstep hout
    obtain ⟨rfl, ht⟩ := ih hu hds hrest
    rw [List.flatten_cons, cfb8Kind_append]
    exact ⟨rfl, ht⟩

end Command

/-- Settles O43: with the key of its size and a nonempty input the invoke fails by `PrimFails` alone, and what it
returns is read off `W`. -/
theorem xformCfb8Result : Obligations.XformCfb8Result := by
  intro s c ks dir key cv len data fs hkey hfs hs hlen hwf
  refine ⟨(cfb8Kind (Config.blockE key) (dirBit dir) cv data).1, cfb8Kind_length _ _ _ _,
    fun p hp => cfb8Kind_getD _ dir cv data hp, ?_⟩
  have hbytes : fsKeyBytes fs = some key.length := hkey ▸ fsKeyBytes_of_selectorOf hfs
  have hpos : 0 < len.toNat := Nat.pos_of_ne_zero fun h => hlen (BitVec.eq_of_toNat_eq h)
  have hcontract : primLengthOk .cfb8 data = true := decide_eq_true (hpos.trans_eq hwf.symm)
  simp only [exec_xform, xformOn_cfb8 hfs hs hlen, cfb8Kind_register,
    prim_eq_none_iff (primKind_of_selectorOf_cfb8 hfs) hbytes hcontract]
  rfl

/-- Settles O55: the run is kind CFB8 over the whole message, and that is read off `W`. -/
theorem cfb8StreamAndRegister : Obligations.Cfb8StreamAndRegister := by
  intro P s t c ks dir key fs iv chunks out hfs hs hchunks hrun
  obtain ⟨rfl, ht⟩ := runChunks_eq_cfb8Kind hfs hs (fun d hd => (hchunks d hd).1) hrun
  rw [cfb8Kind_register] at ht
  exact ⟨ht, cfb8Kind_length _ _ _ _, fun p hp => cfb8Kind_getD _ dir iv _ hp⟩

end Sys2Proof.Proofs
end

section
/-! The software path of XFORM (46_cfb1_sw.md R231, R232): one delegation, whose output is returned and whose state
is committed as they come, or `ERR_SW_FAIL` with no slot written. -/

namespace Sys2Proof.Proofs

open Sys2Proof.Machine Sys2Proof.Laws

/-- R232: the call gets the slot's state and the whole input, unchanged. -/
theorem xformSw_swSlot (P : Platform) (c : BitVec 8) (m : Mode) (dir : Direction) (key : Bytes) (st : SwState)
    (data : Bytes) (s : State) :
    xformSw P c (swSlot m dir key st) data s = .next
      ((P.swXform st data).elim (raise .errSwFail s) fun r =>
        respondOk false r.1 (s.setSlot c (swSlot m dir key r.2))) := by
  simp only [xformSw, swSlot_swState, readField_some, memRead_zero_length]
  cases P.swXform st data with
  | none => rfl
  | some r => rfl

/-- Everything a nonempty XFORM does on a software slot (R231, R232). -/
theorem xformOn_sw {P : Platform} {s : State} {c : BitVec 8} {m : Mode} {dir : Direction} {key : Bytes}
    {st : SwState} {len : Word} {data : Bytes} (hx : s.slot? c = some (swSlot m dir key st)) (hlen : len ≠ 0)
    (hmod : m = .ecb → len.toNat % 16 = 0) :
    xformOn P c dir len data s = .next
      ((P.swXform st data).elim (raise .errSwFail s) fun r =>
        respondOk false r.1 (s.setSlot c (swSlot m dir key r.2))) := by
  rw [xformOn_ready hx rfl rfl rfl, if_neg (not_not_intro rfl), if_neg fun ⟨hecb, hne⟩ => hne (hmod hecb),
    if_neg hlen]
  exact xformSw_swSlot P c m dir key st data (s.enter .check)

/-- Settles O44: on the frozen platform, by the answer of the one call. -/
theorem xformSoftwareResult : Obligations.XformSoftwareResult := by
  intro s c m dir key st len data hx _ hlen hmod
  have hcall : Config.platform.swXform st data = Config.swXform st data := rfl
  rw [exec_xform, xformOn_sw hx hlen hmod, hcall]
  cases Config.swXform st data with
  | none => rfl
  | some r => rfl

end Sys2Proof.Proofs
end

section
/-! How commands and steps end (20_memory.md R80, 60_exceptions.md R270 to R286, 70_reset_and_hazards.md R316): no step
faults, and a command that does not answer OK raises a status for which there is a cause (`Fails`). -/

namespace Sys2Proof.Proofs

open Sys2Proof.Machine Sys2Proof.Safety Sys2Proof.Laws

/-! ### Every step goes on -/

theorem fetch_of_no_command {s : State} (hport : s.commandPort = []) : fetch s = .idle := by
  simp [fetch, hport]

theorem step_of_fetch_idle {s : State} (h : fetch s = .idle) : step s = .next s := by
  simp [step, h]

/-- Settles O9: the port of an idle engine yields nothing. -/
theorem stepIdleKeepsState : Obligations.StepIdleKeepsState :=
  fun _ hport => step_of_fetch_idle (fetch_of_no_command hport)

/-- A command runs on the state with its presentation taken off the port (R80). -/
theorem fetch_eq_run {s s' : State} {i : Instr} (h : fetch s = .run i s') :
    ∃ rest, s' = { s with commandPort := rest } := by
  cases hport : s.commandPort with
  | nil => cases (fetch_of_no_command hport).symm.trans h
  | cons f rest =>
    match hdecode : decode f with
    | .ok j =>
      cases (fetch_of_decode hport hdecode).symm.trans h
      exact ⟨rest, rfl⟩
    | .error .illegalWord => cases (fetch_of_illegalWord hport hdecode).symm.trans h
    | .error .operandMismatch =>
      rw [fetch_of_operandMismatch hport hdecode] at h
      split at h <;> cases h

theorem step_ne_fault {s : State} (hs : StateOk s) (r : Fault) : step s ≠ .fault r := by
  match hfetch : fetch s with
  | .idle => rw [step_of_fetch_idle hfetch]; exact nofun
  | .run i s' =>
    obtain ⟨rest, rfl⟩ := fetch_eq_run hfetch
    obtain ⟨t, ht⟩ := exec_next i (stateOk_commandPort rest hs)
    rw [step_of_fetch_run hfetch, ht]
    exact nofun
  | .answered s' => rw [step_of_fetch_answered hfetch]; exact nofun
  | .malformed => rw [step_of_fetch_malformed hfetch]; exact nofun

/-- A command leaves one more response, the sequencer IDLE and the staging registers empty (R34, R35, R80). -/
theorem exec_ends_at_boundary {i : Instr} {s t : State} (h : exec i s = .next t) :
    ∃ r, t.responsePort = s.responsePort ++ [r] ∧ t.phase = .idle ∧ t.staging = Staging.none := by
  obtain ⟨r, rfl | ⟨_, _, -, rfl⟩⟩ := exec_shape h
  · exact ⟨r, rfl, rfl, rfl⟩
  · exact ⟨r, rfl, rfl, rfl⟩

/-- Settles O17: every command ends, at a command boundary, and a step is such a command or answers by itself. -/
theorem noCommandIsStuck : Obligations.NoCommandIsStuck := by
  refine fun s hs => ⟨fun i => ?_, step_ne_fault hs⟩
  obtain ⟨t, ht⟩ := exec_next i hs
  obtain ⟨r, hends⟩ := exec_ends_at_boundary ht
  exact ⟨t, r, ht, hends⟩

/-! ### The causes of statuses -/

/-- The statuses other than OK that a command can raise in state `s`, each with what it needs (R272 to R279). -/
inductive Fails (s : State) : Instr → Status → Prop
  | noSlot {i : Instr} (hslot : s.slot? i.slot = none) : Fails s i .errIllegalCmd
  | initInUse {i : Instr} {m : Mode} {ks : KeySize} {x : Slot} (hreq : requestOf i = some (m, ks))
      (hx : s.slot? i.slot = some x) (hr : x.state = .ready) : Fails s i .errCtxInUse
  | initNoEngine {i : Instr} {m : Mode} {ks : KeySize} (hreq : requestOf i = some (m, ks))
      (hsel : select m ks s.caps = none) : Fails s i .errUnsupported
  | initSoftware {i : Instr} {m : Mode} {ks : KeySize} (hreq : requestOf i = some (m, ks))
      (hsel : select m ks s.caps = some (.sw m)) : Fails s i .errSwFail
  | releaseEmpty {c : BitVec 8} {x : Slot} (hx : s.slot? c = some x) (hempty : x.state = .empty) :
      Fails s (.release c) .errNoContext
  | xformEmpty {c : BitVec 8} {x : Slot} (dir : Direction) (len : Word) (data : Bytes) (hx : s.slot? c = some x)
      (hempty : x.state = .empty) : Fails s (.xform c dir len data) .errNoContext
  | xformDirection {c : BitVec 8} {x : Slot} {dir d : Direction} (len : Word) (data : Bytes)
      (hx : s.slot? c = some x) (hd : x.direction = some d) (hne : dir ≠ d) :
      Fails s (.xform c dir len data) .errDirMismatch
  | xformMisaligned {c : BitVec 8} {x : Slot} {h : Engine} {len : Word} (dir : Direction) (data : Bytes)
      (hx : s.slot? c = some x) (he : x.engine = some h) (hecb : h.mode = .ecb) (hmod : len.toNat % 16 ≠ 0) :
      Fails s (.xform c dir len data) .errMisaligned
  | xformPrimitive {c : BitVec 8} {x : Slot} {h : Engine} {len : Word} (dir : Direction) (data : Bytes)
      (hlen : len ≠ 0) (hx : s.slot? c = some x) (he : x.engine = some h) (hpath : h.path = .hw) :
      Fails s (.xform c dir len data) .errPrimFail
  | xformSoftware {c : BitVec 8} {x : Slot} {h : Engine} {len : Word} (dir : Direction) (data : Bytes)
      (hlen : len ≠ 0) (hx : s.slot? c = some x) (he : x.engine = some h) (hpath : h.path = .sw) :
      Fails s (.xform c dir len data) .errSwFail

/-- From `s` to `t` command `i` raised a status with a cause, or answered OK. -/
def RaisesOrOk (i : Instr) (s t : State) : Prop :=
  (∃ st, Fails s i st ∧ t = raise st s) ∨
    ∃ sw out, t.responsePort = s.responsePort ++ [⟨statusWord .ok sw, out⟩]

theorem raisesOrOk_raise {i : Instr} {s : State} {st : Status} (h : Fails s i st) :
    RaisesOrOk i s (raise st s) := .inl ⟨st, h, rfl⟩

theorem raisesOrOk_ok (i : Instr) {s t : State} {sw : Bool} {out : Bytes}
    (hport : t.responsePort = s.responsePort ++ [⟨statusWord .ok sw, out⟩]) : RaisesOrOk i s t :=
  .inr ⟨sw, out, hport⟩

theorem raisesOrOk_init {i : Instr} {s t : State} {m : Mode} {ks : KeySize} (hreq : requestOf i = some (m, ks))
    (h : exec i s = .next t) : RaisesOrOk i s t := by
  obtain ⟨dir, key, iv, hinit⟩ := requestOf_eq_some hreq
  rcases init_cases hinit h with ⟨hslot, rfl⟩ | ⟨_, hx, hr, rfl⟩ | ⟨_, -, -, hsel, rfl⟩ |
    ⟨_, _, _, -, -, -, -, rfl⟩ | ⟨_, -, -, hsel, ⟨-, rfl⟩ | ⟨_, -, rfl⟩⟩
  · exact raisesOrOk_raise (.noSlot hslot)
  · exact raisesOrOk_raise (.initInUse hreq hx hr)
  · exact raisesOrOk_raise (.initNoEngine hreq hsel)
  · exact raisesOrOk_ok i rfl
  · exact raisesOrOk_raise (.initSoftware hreq hsel)
  · exact raisesOrOk_ok i rfl

theorem raisesOrOk_xform {c : BitVec 8} {dir : Direction} {len : Word} {data : Bytes} {s t : State}
    (h : exec (.xform c dir len data) s = .next t) : RaisesOrOk (.xform c dir len data) s t := by
  rcases xform_cases h with ⟨hslot, rfl⟩ | ⟨_, hx, hempty, rfl⟩ | ⟨_, _, _, hx, -, hd, he, hend⟩
  · exact raisesOrOk_raise (.noSlot hslot)
  · exact raisesOrOk_raise (.xformEmpty dir len data hx hempty)
  · rcases hend with ⟨hne, rfl⟩ | ⟨-, hecb, hmod, rfl⟩ | ⟨-, -, rfl⟩ | ⟨-, hlen, hpath, rfl⟩ |
      ⟨-, hlen, hpath, rfl⟩ | ⟨-, -, _, -, rfl⟩
    · exact raisesOrOk_raise (.xformDirection len data hx hd hne)
    · exact raisesOrOk_raise (.xformMisaligned dir data hx he hecb hmod)
    · exact raisesOrOk_ok _ rfl
    · exact raisesOrOk_raise (.xformPrimitive dir data hlen hx he hpath)
    · exact raisesOrOk_raise (.xformSoftware dir data hlen hx he hpath)
    · exact raisesOrOk_ok _ rfl

theorem raisesOrOk_release {c : BitVec 8} {s t : State} (h : exec (.release c) s = .next t) :
    RaisesOrOk (.release c) s t := by
  rcases release_cases h with ⟨hslot, rfl⟩ | ⟨_, hx, hempty, rfl⟩ | ⟨_, -, -, rfl⟩
  · exact raisesOrOk_raise (.noSlot hslot)
  · exact raisesOrOk_raise (.releaseEmpty hx hempty)
  · exact raisesOrOk_ok _ rfl

/-- Every command raises a status with its cause or answers OK (R271). -/
theorem raisesOrOk_exec {i : Instr} {s t : State} (h : exec i s = .next t) : RaisesOrOk i s t := by
  cases i with
  | initEcb | initOfb | initCfb128 | initCfb8 | initCfb1 => exact raisesOrOk_init rfl h
  | xform => exact raisesOrOk_xform h
  | release => exact raisesOrOk_release h

/-! ### The code of a response -/

@[simp] theorem codeOf_statusWord (st : Status) (sw : Bool) : codeOf (statusWord st sw) = statusCode st := by
  obtain ⟨hfields, -⟩ := statusWordValues
  exact (hfields st sw).1

/-- Without `SWPATH` a status word is its code (R109). -/
theorem statusWord_eq_code (st : Status) : statusWord st false = (statusCode st).setWidth 32 := by
  cases st <;> rfl

/-- The response that a command added is the one in its place. -/
theorem response_unique {port : List Response} {u : List Response} {r q : Response} (h : u = port ++ [r])
    (h' : u = port ++ [q]) : r = q := by
  simpa using h.symm.trans h'

/-- The code of a command's response: that of a status with its cause, or 0. -/
theorem codeOf_exec {i : Instr} {s t : State} {r : Response} (h : exec i s = .next t)
    (hport : t.responsePort = s.responsePort ++ [r]) :
    (∃ st, Fails s i st ∧ codeOf r.status = statusCode st) ∨ codeOf r.status = 0 := by
  rcases raisesOrOk_exec h with ⟨st, hfails, rfl⟩ | ⟨sw, out, hok⟩
  · cases response_unique hport (raise_responsePort st s)
    exact .inl ⟨st, hfails, codeOf_statusWord st false⟩
  · cases response_unique hport hok
    exact .inr (codeOf_statusWord .ok sw)

/-- A step that answers a presentation with another status than OK raised that status (R276, R285). -/
theorem step_raises {s t : State} {f : Frame} {rest : List Frame} {r : Response}
    (hport : s.commandPort = f :: rest) (h : step s = .next t) (hresponse : t.responsePort = s.responsePort ++ [r])
    (hcode : codeOf r.status ≠ 0) : ∃ st, t = raise st { s with commandPort := rest } := by
  rcases step_cases h with ⟨hidle, -⟩ | ⟨_, _, hport', ⟨i, -, hrun⟩ | rfl⟩
  · cases hidle.symm.trans hport
  · cases hport.symm.trans hport'
    rcases raisesOrOk_exec hrun with ⟨st, -, ht⟩ | ⟨sw, out, hok⟩
    · exact ⟨st, ht⟩
    · cases response_unique hresponse hok
      exact absurd (codeOf_statusWord .ok sw) hcode
  · cases hport.symm.trans hport'
    exact ⟨.errIllegalCmd, rfl⟩

/-- Settles O18: the only such end is `raise`, which at a command boundary adds the bare code and nothing else. -/
theorem failedCommandChangesNothing : Obligations.FailedCommandChangesNothing := by
  intro s t f rest r hs hport h hresponse hcode
  obtain ⟨st, rfl⟩ := step_raises hport h hresponse hcode
  cases response_unique hresponse (raise_responsePort st _)
  exact ⟨rfl, by rw [codeOf_statusWord, statusWord_eq_code], raise_eq_withResponse (stateOk_commandPort rest hs) st⟩

/-! ### The statuses of each command -/

theorem statuses_init {i : Instr} {s t : State} {r : Response} {m : Mode} {ks : KeySize}
    (hreq : requestOf i = some (m, ks)) (h : exec i s = .next t) (hport : t.responsePort = s.responsePort ++ [r]) :
    codeOf r.status ∈ [0, 1, 6, 7, 8] ∧
      (codeOf r.status = 1 → ∃ m ks, requestOf i = some (m, ks) ∧ select m ks s.caps = none) ∧
      (codeOf r.status = 8 → ∃ m ks, requestOf i = some (m, ks) ∧ select m ks s.caps = some (.sw m)) := by
  rcases codeOf_exec h hport with ⟨st, hfails, hcode⟩ | hcode <;> rw [hcode]
  · cases hfails with
    | noSlot => simp [statusCode]
    | initInUse => simp [statusCode]
    | initNoEngine hreq hsel => exact ⟨by simp [statusCode], fun _ => ⟨_, _, hreq, hsel⟩, nofun⟩
    | initSoftware hreq hsel => exact ⟨by simp [statusCode], nofun, fun _ => ⟨_, _, hreq, hsel⟩⟩
    | releaseEmpty | xformEmpty | xformDirection | xformMisaligned | xformPrimitive | xformSoftware => cases hreq
  · simp

theorem statuses_xform {c : BitVec 8} {dir : Direction} {len : Word} {data : Bytes} {s t : State} {r : Response}
    (h : exec (.xform c dir len data) s = .next t) (hport : t.responsePort = s.responsePort ++ [r]) :
    codeOf r.status ∈ [0, 2, 3, 4, 5, 6, 8] ∧
      (codeOf r.status = 2 → ∃ x h, s.slot? c = some x ∧ x.engine = some h ∧ h.mode = .ecb) ∧
      (codeOf r.status = 3 → len ≠ 0 ∧ ∃ x h, s.slot? c = some x ∧ x.engine = some h ∧ h.path = .hw) ∧
      (codeOf r.status = 8 → len ≠ 0 ∧ ∃ x h, s.slot? c = some x ∧ x.engine = some h ∧ h.path = .sw) := by
  rcases codeOf_exec h hport with ⟨st, hfails, hcode⟩ | hcode <;> rw [hcode]
  · cases hfails with
    | noSlot => simp [statusCode]
    | initInUse hreq | initNoEngine hreq | initSoftware hreq => cases hreq
    | xformEmpty => simp [statusCode]
    | xformDirection => simp [statusCode]
    | xformMisaligned _ _ hx he hecb =>
      exact ⟨by simp [statusCode], fun _ => ⟨_, _, hx, he, hecb⟩, nofun, nofun⟩
    | xformPrimitive _ _ hlen hx he hpath =>
      exact ⟨by simp [statusCode], nofun, fun _ => ⟨hlen, _, _, hx, he, hpath⟩, nofun⟩
    | xformSoftware _ _ hlen hx he hpath =>
      exact ⟨by simp [statusCode], nofun, nofun, fun _ => ⟨hlen, _, _, hx, he, hpath⟩⟩
  · simp

theorem statuses_release {c : BitVec 8} {s t : State} {r : Response} (h : exec (.release c) s = .next t)
    (hport : t.responsePort = s.responsePort ++ [r]) : codeOf r.status ∈ [0, 5, 6] := by
  rcases codeOf_exec h hport with ⟨st, hfails, hcode⟩ | hcode <;> rw [hcode]
  · cases hfails with
    | noSlot => simp [statusCode]
    | releaseEmpty => simp [statusCode]
    | initInUse hreq | initNoEngine hreq | initSoftware hreq => cases hreq
  · simp

/-- Settles O19, command by command. -/
theorem statusesOfEachCommand : Obligations.StatusesOfEachCommand := by
  intro s t i r _ h hport
  cases i with
  | initEcb | initOfb | initCfb128 | initCfb8 | initCfb1 => exact statuses_init rfl h hport
  | xform => exact statuses_xform h hport
  | release => exact statuses_release h hport

end Sys2Proof.Proofs
end

section
/-! Slot isolation over sequences (48_stream_laws.md R260): a command on another slot leaves slot `c` and `CAPS` as they
were, and a command on slot `c` does the same in two states that agree there. -/

namespace Sys2Proof.Proofs

open Sys2Proof.Machine Sys2Proof.Safety Sys2Proof.Laws

/-- Two states at a command boundary that agree on slot `c` and on `CAPS`. -/
structure AgreeOn (c : BitVec 8) (s s' : State) : Prop where
  left_ok : StateOk s
  right_ok : StateOk s'
  slot_eq : s.slot? c = s'.slot? c
  caps_eq : s.caps = s'.caps

theorem stateOk_exec {i : Instr} {s t : State} (hw : WellFormed i) (hs : StateOk s) (h : exec i s = .next t) :
    StateOk t :=
  stateOk_of_endsOk hs (endsOk_exec hw hs h)

theorem caps_exec {i : Instr} {s t : State} (h : exec i s = .next t) : t.caps = s.caps := by
  obtain ⟨-, hcaps, -, -⟩ := oneSlotFrame s t i h
  exact hcaps

/-- A command on another slot keeps the agreement (R21). -/
theorem AgreeOn.exec_other {c : BitVec 8} {i : Instr} {s s' t : State} (hagree : AgreeOn c s s')
    (hw : WellFormed i) (hother : i.slot ≠ c) (h : exec i s = .next t) : AgreeOn c t s' := by
  obtain ⟨other_slots, hcaps, -, -⟩ := oneSlotFrame s t i h
  exact ⟨stateOk_exec hw hagree.left_ok h, hagree.right_ok, (other_slots c hother.symm).trans hagree.slot_eq,
    hcaps.trans hagree.caps_eq⟩

/-- A command on the slot itself answers the same on both sides and keeps the agreement (R21, R260). -/
theorem AgreeOn.exec_named {i : Instr} {s s' t : State} (hagree : AgreeOn i.slot s s') (hw : WellFormed i)
    (h : exec i s = .next t) :
    ∃ t' r, exec i s' = .next t' ∧ t.responsePort = s.responsePort ++ [r] ∧
      t'.responsePort = s'.responsePort ++ [r] ∧ AgreeOn i.slot t t' := by
  obtain ⟨t', r, h', hslot, hport, hport'⟩ := slotIsolation s s' t i hagree.slot_eq hagree.caps_eq h
  exact ⟨t', r, h', hport, hport', stateOk_exec hw hagree.left_ok h, stateOk_exec hw hagree.right_ok h',
    hslot.symm, by rw [caps_exec h, caps_exec h', hagree.caps_eq]⟩

/-- A sequence goes on after a command that ends with a response (R80). -/
theorem runCommands_cons {i : Instr} {is : List Instr} {s t u : State} {r : Response} {rs : List Response}
    (h : exec i s = .next t) (hport : t.responsePort = s.responsePort ++ [r])
    (hrest : runCommands is t = some (u, rs)) : runCommands (i :: is) s = some (u, r :: rs) := by
  simp [runCommands, h, lastResponse, hport, hrest]

/-- The responses to the commands that name slot `c`. -/
def responsesOf (c : BitVec 8) (cmds : List Instr) (rs : List Response) : List Response :=
  ((cmds.zip rs).filter fun p => p.1.slot == c).map Prod.snd

theorem responsesOf_cons_named (i : Instr) (is : List Instr) (r : Response) (rs : List Response) :
    responsesOf i.slot (i :: is) (r :: rs) = r :: responsesOf i.slot is rs := by
  simp [responsesOf]

theorem responsesOf_cons_other {c : BitVec 8} {i : Instr} (hother : i.slot ≠ c) (is : List Instr) (r : Response)
    (rs : List Response) : responsesOf c (i :: is) (r :: rs) = responsesOf c is rs := by
  simp [responsesOf, hother]

/-- A sequence from one side and its subsequence on slot `c` from the other both complete, and they agree. -/
theorem AgreeOn.runCommands_filter {c : BitVec 8} {s s' : State} (cmds : List Instr) (hagree : AgreeOn c s s')
    (hwf : ∀ i ∈ cmds, WellFormed i) :
    ∃ t t' rs rs', runCommands cmds s = some (t, rs) ∧
      runCommands (cmds.filter fun i => i.slot == c) s' = some (t', rs') ∧ t.slot? c = t'.slot? c ∧
      responsesOf c cmds rs = rs' := by
  induction cmds generalizing s s' with
  | nil => exact ⟨s, s', [], [], rfl, rfl, hagree.slot_eq, rfl⟩
  | cons i is ih =>
    obtain ⟨hi, his⟩ := List.forall_mem_cons.mp hwf
    obtain ⟨u, hu⟩ := exec_next i hagree.left_ok
    by_cases hnamed : i.slot = c
    · subst hnamed
      obtain ⟨u', r, hu', hport, hport', hagree'⟩ := hagree.exec_named hi hu
      obtain ⟨t, t', rs, rs', hrun, hrun', hslot, hresponses⟩ := ih hagree' his
      refine ⟨t, t', r :: rs, r :: rs', runCommands_cons hu hport hrun, ?_, hslot, ?_⟩
      · rw [List.filter_cons_of_pos (by simp)]
        exact runCommands_cons hu' hport' hrun'
      · rw [responsesOf_cons_named, hresponses]
    · obtain ⟨r, hport, -⟩ := exec_ends_at_boundary hu
      obtain ⟨t, t', rs, rs', hrun, hrun', hslot, hresponses⟩ := ih (hagree.exec_other hi hnamed hu) his
      refine ⟨t, t', r :: rs, rs', runCommands_cons hu hport hrun, ?_, hslot, ?_⟩
      · rw [List.filter_cons_of_neg (by simpa using hnamed)]
        exact hrun'
      · rw [responsesOf_cons_other hnamed, hresponses]

/-- Settles O25, by induction on the sequence. -/
theorem slotIsolationOverSequences : Obligations.SlotIsolationOverSequences :=
  fun _ _ _ cmds hs hs' hwf hslot hcaps => AgreeOn.runCommands_filter cmds ⟨hs, hs', hslot, hcaps⟩ hwf

end Sys2Proof.Proofs
end

section
/-! Whole streams on a hardware-path slot (48_stream_laws.md R250 to R256): for each handle a run that succeeds is a
function of the concatenated input alone, which is what the software engine computes under S2. -/

namespace Sys2Proof.Proofs

open Sys2Proof.Machine Sys2Proof.Safety Sys2Proof.Laws

/-- Settles O48: the two handles are those of `FeedsBack`. -/
theorem streamMatchesReference : Obligations.StreamMatchesReference := by
  intro P s t c h mux ks dir key fs cv n chunks out hh hfs hs hchunks hrun
  exact runChunks_eq_refRun hh hfs hs (fun d hd => (hchunks d hd).1) hrun

/-! ### ECB -/

/-- Kind BLOCK over whole blocks and what follows them (R69). -/
theorem blockKind_append (f : Block → Block) {m : Nat} (k : Nat) {a : Bytes} (b : Bytes) (ha : a.length = 16 * m) :
    blockKind f (m + k) (a ++ b) = blockKind f m a ++ blockKind f k b := by
  induction m generalizing a with
  | zero => simp [List.length_eq_zero_iff.mp ha, blockKind]
  | succ m ih =>
    have hfirst : 16 ≤ a.length := by omega
    have hrest : (a.drop 16).length = 16 * m := by rw [List.length_drop]; omega
    rw [Nat.succ_add, blockKind, blockKind, List.take_append_of_le_length hfirst,
      List.drop_append_of_le_length hfirst, ih hrest, List.append_assoc]

theorem ecbOutput_append (P : Platform) (key : Bytes) (dir : Direction) {a : Bytes} (b : Bytes)
    (ha : a.length % 16 = 0) :
    ecbOutput P key dir (a ++ b) = ecbOutput P key dir a ++ ecbOutput P key dir b := by
  have hwhole : a.length = 16 * (a.length / 16) := (Nat.mul_div_cancel' (Nat.dvd_of_mod_eq_zero ha)).symm
  have hblocks : (a ++ b).length / 16 = a.length / 16 + b.length / 16 := by rw [List.length_append]; omega
  rw [ecbOutput, hblocks, blockKind_append _ _ _ hwhole, ecbOutput, ecbOutput]

section Ecb

variable {P : Platform} {ks : KeySize} {dir : Direction} {key out : Bytes} {fs c : BitVec 8} {s t : State}

/-- One command that succeeds, the empty one included, is kind BLOCK over its input (R153, R166). -/
theorem xformOn_eq_ecbOutput {data : Bytes} (hkey : key.length = ks.bytes)
    (hfs : selectorOf .hwEcb dir ks = some fs) (hs : HoldsStream s c .hwEcb dir key fs none none)
    (hfit : data.length ≤ lenMax) (hmod : data.length % 16 = 0)
    (hstep : xformOn P c dir (BitVec.ofNat 32 data.length) data s = .next t) (hout : okOutput t = some out) :
    out = ecbOutput P key dir data ∧ HoldsStream t c .hwEcb dir key fs none none := by
  by_cases hempty : data = []
  · subst hempty
    cases (xformOn_of_zero_length hs rfl rfl rfl).symm.trans hstep
    cases (okOutput_respondOk [] s).symm.trans hout
    exact ⟨rfl, hs⟩
  · have hlen : (BitVec.ofNat 32 data.length).toNat = data.length :=
      Nat.mod_eq_of_lt (Nat.lt_of_le_of_lt hfit (by decide))
    rw [xformOn_ecb hkey hfs hs hlen.symm (ofNat_length_ne_zero hempty hfit) (hlen.symm ▸ hmod)] at hstep
    by_cases hfail : P.primFails fs key data none = true
    · rw [if_pos hfail] at hstep
      cases hstep
      exact absurd hout (okOutput_raise_ne (by simp) s out)
    · rw [if_neg hfail] at hstep
      cases hstep
      rw [okOutput_respondOk] at hout
      exact ⟨(Option.some.inj hout).symm, hs⟩

/-- A run that succeeds is kind BLOCK over the whole message, and leaves the slot as it was. -/
theorem runChunks_eq_ecbOutput {chunks : List Bytes} (hkey : key.length = ks.bytes)
    (hfs : selectorOf .hwEcb dir ks = some fs) (hs : HoldsStream s c .hwEcb dir key fs none none)
    (hchunks : ChunksOk .ecb chunks) (hrun : runChunks P c dir chunks s = some (t, out)) :
    out = ecbOutput P key dir chunks.flatten ∧ HoldsStream t c .hwEcb dir key fs none none := by
  induction chunks generalizing s out with
  | nil => cases hrun; exact ⟨rfl, hs⟩
  | cons d ds ih =>
    obtain ⟨⟨hfit, hmod⟩, hds⟩ := List.forall_mem_cons.mp hchunks
    obtain ⟨u, o, os, hstep, hout, hrest, rfl⟩ := runChunks_cons_eq_some hrun
    obtain ⟨rfl, hu⟩ := xformOn_eq_ecbOutput hkey hfs hs hfit (hmod rfl) hstep hout
    obtain ⟨rfl, ht⟩ := ih hu hds hrest
    rw [List.flatten_cons, ecbOutput_append _ _ _ _ (hmod rfl)]
    exact ⟨rfl, ht⟩

end Ecb

/-! ### Chunk invariance -/

/-- Every run of XFORMs that succeeds from `s` outputs `(f msg).1` and leaves slot `c` as `(f msg).2`, where `msg` is
the concatenated input (R251). -/
def RunsAs (P : Platform) (c : BitVec 8) (dir : Direction) (m : Mode) (s : State) (f : Bytes → Bytes × Slot) :
    Prop :=
  ∀ chunks t out, ChunksOk m chunks → runChunks P c dir chunks s = some (t, out) →
    out = (f chunks.flatten).1 ∧ t.slot? c = some (f chunks.flatten).2

/-- A nonempty run in the other direction fails on its first chunk (R150). -/
theorem runChunks_of_direction_ne {P : Platform} {c : BitVec 8} {dir d : Direction} {s t : State} {x : Slot}
    {h : Engine} {chunks : List Bytes} {out : Bytes} (hx : s.slot? c = some x) (hr : x.state = .ready)
    (hd : x.direction = some d) (he : x.engine = some h) (hne : dir ≠ d)
    (hrun : runChunks P c dir chunks s = some (t, out)) : t = s ∧ out = [] := by
  cases chunks with
  | nil => cases hrun; exact ⟨rfl, rfl⟩
  | cons b bs =>
    obtain ⟨u, o, os, hstep, hout, -, -⟩ := runChunks_cons_eq_some hrun
    cases (xformOn_of_direction_ne hx hr hd he hne).symm.trans hstep
    exact absurd hout (okOutput_raise_ne (by simp) s o)

/-- A run in the slot's own direction, handle by handle. -/
theorem exists_runsAs_of_populated (P : Platform) {c : BitVec 8} {dir : Direction} {s : State} {x : Slot}
    {h : Engine} (hp : Populated x) (hx : s.slot? c = some x) (he : x.engine = some h) (hpath : h.path = .hw)
    (hd : x.direction = some dir) : ∃ f, RunsAs P c dir h.mode s f := by
  cases hp with
  | ecb ks d key hkey =>
    cases he; cases hd
    exact ⟨fun msg => (ecbOutput P key dir msg, hwSlot .hwEcb dir key _ none none),
      fun _ _ _ hchunks hrun => runChunks_eq_ecbOutput hkey rfl hx hchunks hrun⟩
  | ofb ks d key cv n hkey =>
    cases he; cases hd
    exact ⟨fun msg =>
        let r := refRun (P.blockE key) .keep msg cv n
        (r.1, hwSlot .hwOfb dir key _ (some r.2.1) (some r.2.2)),
      fun _ _ _ hchunks hrun =>
        runChunks_eq_refRun (ks := ks) (feedsBack_ofb dir) rfl hx (fun d hd => (hchunks d hd).1) hrun⟩
  | cfb128 ks d key cv n hkey =>
    cases he; cases hd
    exact ⟨fun msg =>
        let r := refRun (P.blockE key) (cfbMux dir) msg cv n
        (r.1, hwSlot .hwCfb128 dir key _ (some r.2.1) (some r.2.2)),
      fun _ _ _ hchunks hrun =>
        runChunks_eq_refRun (ks := ks) (feedsBack_cfb128 dir) rfl hx (fun d hd => (hchunks d hd).1) hrun⟩
  | cfb8 ks d key cv hkey =>
    cases he; cases hd
    exact ⟨fun msg =>
        let r := cfb8Kind (P.blockE key) (dirBit dir) cv msg
        (r.1, hwSlot .hwCfb8 dir key _ (some r.2) (some 0)),
      fun _ _ _ hchunks hrun =>
        runChunks_eq_cfb8Kind (ks := ks) rfl hx (fun d hd => (hchunks d hd).1) hrun⟩
  | sw m d key st => cases he; cases hpath

/-- On a hardware-path slot a run that succeeds is a function of the concatenated input. -/
theorem exists_runsAs (P : Platform) {c : BitVec 8} (dir : Direction) {s : State} {x : Slot} {h : Engine}
    (hs : StateOk s) (hx : s.slot? c = some x) (he : x.engine = some h) (hpath : h.path = .hw) :
    ∃ f, RunsAs P c dir h.mode s f := by
  have ⟨_, _, hslots, _⟩ := hs
  have hok := hslots x (slot_mem hx)
  have hr := ready_of_engine hok he
  obtain ⟨-, d, -, hd⟩ := exists_engine_direction hs hx hr
  by_cases hdir : dir = d
  · exact exists_runsAs_of_populated P (populated_of_slotOk hok hr) hx he hpath (hdir ▸ hd)
  · refine ⟨fun _ => ([], x), fun chunks t out _ hrun => ?_⟩
    obtain ⟨rfl, rfl⟩ := runChunks_of_direction_ne hx hr hd he hdir hrun
    exact ⟨rfl, hx⟩

/-- Settles O49: both runs are the same function of the same message. -/
theorem chunkInvariance : Obligations.ChunkInvariance := by
  intro P s t u c dir x h xs ys o o' hs hx he hpath hxs hys hflatten hrun hrun'
  obtain ⟨f, hf⟩ := exists_runsAs P dir hs hx he hpath
  obtain ⟨rfl, ht⟩ := hf xs t o hxs hrun
  obtain ⟨rfl, hu⟩ := hf ys u o' hys hrun'
  rw [ht, hu, hflatten]
  exact ⟨rfl, rfl⟩

/-! ### The software engine -/

/-- A hardware-path stream from INIT outputs the reference of its mode (R253). -/
theorem runChunks_eq_refOutput {P : Platform} {s t : State} {c fs : BitVec 8} {m : Mode} {h : Engine} {ks : KeySize}
    {dir : Direction} {key out : Bytes} {iv : Option Block} {n : Option (Fin 16)} {chunks : List Bytes}
    (hm : hwEngine m = some h) (hkey : key.length = ks.bytes) (hfs : selectorOf h dir ks = some fs)
    (hiv : (m = .ecb ∧ iv = none ∧ n = none) ∨ (m ≠ .ecb ∧ iv.isSome = true ∧ n = some 0))
    (hs : HoldsStream s c h dir key fs iv n) (hchunks : ChunksOk m chunks)
    (hrun : runChunks P c dir chunks s = some (t, out)) :
    refOutput P m dir key iv chunks.flatten = some out := by
  have hfit : ∀ d ∈ chunks, d.length ≤ lenMax := fun d hd => (hchunks d hd).1
  rcases hiv with ⟨rfl, rfl, rfl⟩ | ⟨hne, hsome, rfl⟩
  · cases hm
    obtain ⟨rfl, -⟩ := runChunks_eq_ecbOutput hkey hfs hs hchunks hrun
    cases dir <;> rfl
  · obtain ⟨v, rfl⟩ := Option.isSome_iff_exists.mp hsome
    cases m with
    | ecb => exact absurd rfl hne
    | ofb =>
      cases hm
      obtain ⟨rfl, -⟩ := runChunks_eq_refRun (feedsBack_ofb dir) hfs hs hfit hrun
      rfl
    | cfb128 =>
      cases hm
      obtain ⟨rfl, -⟩ := runChunks_eq_refRun (feedsBack_cfb128 dir) hfs hs hfit hrun
      rfl
    | cfb8 =>
      cases hm
      obtain ⟨rfl, -⟩ := runChunks_eq_cfb8Kind hfs hs hfit hrun
      rfl
    | cfb1 => cases hm

/-- Settles O58: S2 gives the one call the output of the same reference. -/
theorem softwareEquivalence : Obligations.SoftwareEquivalence := by
  intro P s t c m h ks dir key fs iv n st st' chunks o o' hequiv hm hkey hfs hiv hs hchunks hwhole hne hinit hcall hrun
  have hcfb1 : m ≠ .cfb1 := by rintro rfl; cases hm
  have hpresent : iv.isSome = true ↔ m ≠ .ecb := by
    rcases hiv with ⟨rfl, rfl, -⟩ | ⟨hecb, hsome, -⟩
    · simp
    · exact iff_of_true hsome hecb
  have hsoftware : refOutput P m dir key iv [chunks.flatten].flatten = some o' :=
    hequiv m ks dir key iv st hcfb1 hpresent hkey hinit [chunks.flatten] st' o' hwhole (by simpa using hne) hcall
  rw [List.flatten_singleton, runChunks_eq_refOutput hm hkey hfs hiv hs hchunks hrun] at hsoftware
  exact Option.some.inj hsoftware

end Sys2Proof.Proofs
end

section
/-! Round trip of the feedback modes (48_stream_laws.md R254): both directions make the same key stream, since what is
fed back is the ciphertext byte, the output of the one and the input of the other. -/

namespace Sys2Proof.Proofs

open Sys2Proof.Machine Sys2Proof.Safety Sys2Proof.Laws

/-- Two muxes that select the same byte when input and output change places (R195). -/
def Mirrors (mux mux' : FeedbackMux) : Prop := ∀ reg b o, muxPick mux' reg o b = muxPick mux reg b o

theorem mirrors_keep : Mirrors .keep .keep := fun _ _ _ => rfl

theorem mirrors_cfbMux : Mirrors (cfbMux .encrypt) (cfbMux .decrypt) := fun _ _ _ => rfl

/-- One byte there and back, with the same register and offset after both (R253). -/
theorem refStep_refStep {mux mux' : FeedbackMux} (hmux : Mirrors mux mux') (e : Block → Block) (b : Byte) (cv : Block)
    (n : Fin 16) :
    let r := refStep e mux b cv n
    refStep e mux' r.1 cv n = (b, r.2) := by
  simp only [refStep, xor_cancel_right, hmux _ b]

/-- A message there and back, with the same register and offset after both. -/
theorem refRun_refRun {mux mux' : FeedbackMux} (hmux : Mirrors mux mux') (e : Block → Block) (d : Bytes) (cv : Block)
    (n : Fin 16) :
    let r := refRun e mux d cv n
    refRun e mux' r.1 cv n = (d, r.2) := by
  induction d generalizing cv n with
  | nil => rfl
  | cons b bs ih => simp only [refRun, refStep_refStep hmux, ih]

/-- The byte loop of CFB-8 there and back (R72, R219). -/
theorem cfb8Kind_cfb8Kind (e : Block → Block) (v : Block) (d : Bytes) :
    let r := cfb8Kind e (dirBit .encrypt) v d
    cfb8Kind e (dirBit .decrypt) v r.1 = (d, r.2) := by
  induction d generalizing v with
  | nil => rfl
  | cons b bs ih =>
    simp only [dirBit] at ih ⊢
    simp [cfb8Kind, ih]

/-- Settles O56, mode by mode: both runs are folds over the whole message, and the second undoes the first. -/
theorem feedbackModesRoundTrip : Obligations.FeedbackModesRoundTrip := by
  intro P s s' t u c c' h ks key fs fs' iv xs ys o m hh hfs hfs' hs hs' hxs hys hrun hrun' hcut
  have hfit : ∀ d ∈ xs, d.length ≤ lenMax := fun d hd => (hxs d hd).1
  have hfit' : ∀ d ∈ ys, d.length ≤ lenMax := fun d hd => (hys d hd).1
  rcases hh with rfl | rfl | rfl
  · obtain ⟨hcipher, -⟩ := runChunks_eq_refRun (feedsBack_ofb .encrypt) hfs hs hfit hrun
    obtain ⟨hplain, -⟩ := runChunks_eq_refRun (feedsBack_ofb .decrypt) hfs' hs' hfit' hrun'
    rw [hplain, hcut, hcipher, refRun_refRun mirrors_keep]
  · obtain ⟨hcipher, -⟩ := runChunks_eq_refRun (feedsBack_cfb128 .encrypt) hfs hs hfit hrun
    obtain ⟨hplain, -⟩ := runChunks_eq_refRun (feedsBack_cfb128 .decrypt) hfs' hs' hfit' hrun'
    rw [hplain, hcut, hcipher, refRun_refRun mirrors_cfbMux]
  · obtain ⟨hcipher, -⟩ := runChunks_eq_cfb8Kind hfs hs hfit hrun
    obtain ⟨hplain, -⟩ := runChunks_eq_cfb8Kind hfs' hs' hfit' hrun'
    rw [hplain, hcut, hcipher, cfb8Kind_cfb8Kind]

end Sys2Proof.Proofs
end
